-- ==== Sys2Proof/Word.lean ====
section
/-! DEFINITION. The fixed widths of the block: an 8-bit byte (also a character code), a 6-bit symbol, a 32-bit
register word (00_scope.md rules R4, R7, R11; 10_state.md rule R26). -/

namespace Sys2Proof

/-- A byte of a buffer, and a character code (rule R11: "A character is an 8-bit code"). -/
abbrev Byte := BitVec 8

/-- A symbol: "a 6-bit value 0..63, the unit the pack datapath produces and the unpack datapath consumes"
(00_scope.md glossary). -/
abbrev Symbol := BitVec 6

/-- A register's contents, and a command word (rules R26, R90). -/
abbrev Word := BitVec 32

end Sys2Proof
end

