-- ==== Sys2Proof/Syntax.lean ====
section
/-! DEFINITION. The 15 commands of 30_encoding.md rule R92, one constructor for each row of spec/opcode_table.json, in
the table's order. -/

namespace Sys2Proof

/-- The U bit of a command word (rule R90): 0 = standard (`+`, `/`, padded), 1 = URL-safe (`-`, `_`, unpadded). -/
inductive Alphabet where
  | standard
  | urlSafe
deriving DecidableEq, Repr

/-- A command. Its operands in the word are the U bit and the 8-bit immediate IMM, where its format has them
(rules R91, R93); every other operand is implicit (IBUF, ILEN, IPTR, OBUF, OPTR). -/
inductive Instr where
  /-- No operation (rule R210). -/
  | nop
  /-- Forward lookup of the symbol IMM[5:0]; IMM[7:6] must be 0 (rules R93, R122), which `Instr.wellFormed` checks. -/
  | lutf (u : Alphabet) (imm : Byte)
  /-- Reverse lookup of the character IMM (rule R123). -/
  | lutr (imm : Byte)
  /-- Character class of the character IMM (rule R124). -/
  | cls (imm : Byte)
  /-- Encode one full triplet at the cursors (rule R143). -/
  | enc3 (u : Alphabet)
  /-- Encode a two-byte tail at the cursors (rule R144). -/
  | enc2 (u : Alphabet)
  /-- Encode a one-byte tail at the cursors (rule R145). -/
  | enc1 (u : Alphabet)
  /-- Decode one full group at the cursors (rule R188). -/
  | dec4
  /-- Decode a three-character tail at the cursors (rule R189). -/
  | dec3
  /-- Decode a two-character tail at the cursors (rule R190). -/
  | dec2
  /-- Validity check of the input (rule R161). -/
  | valid
  /-- Inspect the input (rule R176). -/
  | info
  /-- Encode the whole input (rule R146). -/
  | encode (u : Alphabet)
  /-- Decode the whole input; U is accepted and has no effect (rules R191, R192). -/
  | decode (u : Alphabet)
  /-- Clear the pending fault (rule R211). -/
  | clrerr
deriving DecidableEq, Repr

end Sys2Proof
end

