-- ==== Sys2Proof/WellFormed.lean ====
section
/-! DEFINITION. Which terms of `Instr` are commands of the block (30_encoding.md rules R91, R93). The types of the
constructors already say the rest: a format N command has no U and no IMM, a format U command has no IMM. -/

namespace Sys2Proof

/-- "LUTF uses `IMM[5:0]` as a symbol value 0..63 and requires `IMM[7:6] = 0`" (rule R93). No other operand of the word
is restricted. -/
def Instr.wellFormed : Instr → Bool
  | .nop        => true
  | .lutf _ imm => imm.extractLsb' 6 2 == 0
  | .lutr _     => true
  | .cls _      => true
  | .enc3 _     => true
  | .enc2 _     => true
  | .enc1 _     => true
  | .dec4       => true
  | .dec3       => true
  | .dec2       => true
  | .valid      => true
  | .info       => true
  | .encode _   => true
  | .decode _   => true
  | .clrerr     => true

end Sys2Proof
end

