-- ==== Sys2Proof/Decode.lean ====
section
/-! DEFINITION. The decoder of a command word (30_encoding.md rules R90 to R95), total on every 32-bit word and rejecting
by name; the encoder, from the same fields; and the opcode map of rule R92 as rows of a match and a mask. -/

namespace Sys2Proof

/-! ### The fields of a command word (rule R90) -/

/-- `OP`, bits 3:0. -/
def Word.op (w : Word) : BitVec 4 := w.extractLsb' 0 4

/-- `U`, bit 4. -/
def Word.u (w : Word) : BitVec 1 := w.extractLsb' 4 1

/-- `Z0`, bits 7:5, must be 0. -/
def Word.z0 (w : Word) : BitVec 3 := w.extractLsb' 5 3

/-- `IMM`, bits 15:8. -/
def Word.imm (w : Word) : Byte := w.extractLsb' 8 8

/-- `Z1`, bits 31:16, must be 0. -/
def Word.z1 (w : Word) : BitVec 16 := w.extractLsb' 16 16

/-- The alphabet a U bit selects. -/
def Alphabet.ofBit (b : BitVec 1) : Alphabet := if b = 1 then .urlSafe else .standard

/-- The U bit of an alphabet. -/
def Alphabet.bit : Alphabet → BitVec 1
  | .standard => 0
  | .urlSafe  => 1

/-! ### Decoding -/

/-- Why a word is illegal: the conditions of rule R94, each by its name. -/
inductive Reject where
  /-- `OP = 0xE`. -/
  | reservedOpcode
  /-- `Z0 != 0`. -/
  | z0NotZero
  /-- `Z1 != 0`. -/
  | z1NotZero
  /-- `U = 1` in a command of format N, or in LUTR or CLS. -/
  | uNotZero
  /-- `IMM != 0` in a command of format N or U. -/
  | immNotZero
  /-- `IMM[7:6] != 0` in LUTF. -/
  | immHighNotZero
deriving DecidableEq, Repr

/-- A format N command: U and IMM must be 0 (rule R91). -/
def decodeN (w : Word) (i : Instr) : Except Reject Instr :=
  if w.u ≠ 0 then .error .uNotZero else if w.imm ≠ 0 then .error .immNotZero else .ok i

/-- A format U command: U selects the alphabet, IMM must be 0 (rule R91). -/
def decodeU (w : Word) (i : Alphabet → Instr) : Except Reject Instr :=
  if w.imm ≠ 0 then .error .immNotZero else .ok (i (.ofBit w.u))

/-- A format I command other than LUTF: U must be 0, IMM is the operand (rule R91). -/
def decodeI (w : Word) (i : Byte → Instr) : Except Reject Instr :=
  if w.u ≠ 0 then .error .uNotZero else .ok (i w.imm)

/-- LUTF: format I with U allowed; bits 7:6 of IMM must be 0 (rule R91). -/
def decodeLutf (w : Word) : Except Reject Instr :=
  if w.imm.extractLsb' 6 2 ≠ 0 then .error .immHighNotZero else .ok (.lutf (.ofBit w.u) w.imm)

/-- The opcode map of rule R92, by OP. -/
def decodeOp (w : Word) : Except Reject Instr :=
  match w.op.toNat with
  | 0x0 => decodeN w .nop
  | 0x1 => decodeLutf w
  | 0x2 => decodeI w .lutr
  | 0x3 => decodeI w .cls
  | 0x4 => decodeU w .enc3
  | 0x5 => decodeU w .enc2
  | 0x6 => decodeU w .enc1
  | 0x7 => decodeN w .dec4
  | 0x8 => decodeN w .dec3
  | 0x9 => decodeN w .dec2
  | 0xA => decodeN w .valid
  | 0xB => decodeN w .info
  | 0xC => decodeU w .encode
  | 0xD => decodeU w .decode
  | 0xF => decodeN w .clrerr
  | _   => .error .reservedOpcode

/-- The decoder (rules R90 to R94): "every word is either one of the 15 commands or illegal". -/
def decode (w : Word) : Except Reject Instr :=
  if w.z0 ≠ 0 then .error .z0NotZero else if w.z1 ≠ 0 then .error .z1NotZero else decodeOp w

/-- The instruction the decoder reads from a row of spec/opcode_table.json whose `nbits` bits are `w` (a command is one
32-bit word, rule R90; the bits above `nbits` are 0). -/
def decodeTableWord (nbits w : Nat) : Option Instr :=
  match decode (BitVec.ofNat 32 (w % 2 ^ nbits)) with
  | .ok i    => some i
  | .error _ => none

/-! ### Encoding -/

/-- The word of the fields OP, U and IMM, with Z0 = Z1 = 0 (rule R90). -/
def wordOf (op : BitVec 4) (u : BitVec 1) (imm : Byte) : Word := (0 : BitVec 16) ++ imm ++ (0 : BitVec 3) ++ u ++ op

/-- The word of a command (rules R91, R92, R96). -/
def encode : Instr → Word
  | .nop        => wordOf 0x0 0 0
  | .lutf u imm => wordOf 0x1 u.bit imm
  | .lutr imm   => wordOf 0x2 0 imm
  | .cls imm    => wordOf 0x3 0 imm
  | .enc3 u     => wordOf 0x4 u.bit 0
  | .enc2 u     => wordOf 0x5 u.bit 0
  | .enc1 u     => wordOf 0x6 u.bit 0
  | .dec4       => wordOf 0x7 0 0
  | .dec3       => wordOf 0x8 0 0
  | .dec2       => wordOf 0x9 0 0
  | .valid      => wordOf 0xA 0 0
  | .info       => wordOf 0xB 0 0
  | .encode u   => wordOf 0xC u.bit 0
  | .decode u   => wordOf 0xD u.bit 0
  | .clrerr     => wordOf 0xF 0 0

/-! ### The opcode map as rows (rule R92) -/

/-- A row of the opcode map: "a word `w` spells the command exactly when `w & mask = match`". -/
structure OpcodeRow where
  mnemonic : String
  pattern  : Word
  mask     : Word
deriving DecidableEq, Repr

/-- Whether the word spells the row's command. -/
def OpcodeRow.spells (r : OpcodeRow) (w : Word) : Bool := w &&& r.mask == r.pattern

/-- The row of each command, `match` and `mask` as rule R92 tabulates them. -/
def Instr.row : Instr → OpcodeRow
  | .nop      => ⟨"NOP", 0x00000000, 0xFFFFFFFF⟩
  | .lutf _ _ => ⟨"LUTF", 0x00000001, 0xFFFFC0EF⟩
  | .lutr _   => ⟨"LUTR", 0x00000002, 0xFFFF00FF⟩
  | .cls _    => ⟨"CLS", 0x00000003, 0xFFFF00FF⟩
  | .enc3 _   => ⟨"ENC3", 0x00000004, 0xFFFFFFEF⟩
  | .enc2 _   => ⟨"ENC2", 0x00000005, 0xFFFFFFEF⟩
  | .enc1 _   => ⟨"ENC1", 0x00000006, 0xFFFFFFEF⟩
  | .dec4     => ⟨"DEC4", 0x00000007, 0xFFFFFFFF⟩
  | .dec3     => ⟨"DEC3", 0x00000008, 0xFFFFFFFF⟩
  | .dec2     => ⟨"DEC2", 0x00000009, 0xFFFFFFFF⟩
  | .valid    => ⟨"VALID", 0x0000000A, 0xFFFFFFFF⟩
  | .info     => ⟨"INFO", 0x0000000B, 0xFFFFFFFF⟩
  | .encode _ => ⟨"ENCODE", 0x0000000C, 0xFFFFFFEF⟩
  | .decode _ => ⟨"DECODE", 0x0000000D, 0xFFFFFFEF⟩
  | .clrerr   => ⟨"CLRERR", 0x0000000F, 0xFFFFFFFF⟩

/-- The 15 rows of rule R92, in the order of OP. -/
def opcodeMap : List OpcodeRow :=
  [Instr.nop.row, (Instr.lutf .standard 0).row, (Instr.lutr 0).row, (Instr.cls 0).row, (Instr.enc3 .standard).row]
  ++ [(Instr.enc2 .standard).row, (Instr.enc1 .standard).row, Instr.dec4.row, Instr.dec3.row, Instr.dec2.row]
  ++ [Instr.valid.row, Instr.info.row, (Instr.encode .standard).row, (Instr.decode .standard).row, Instr.clrerr.row]

end Sys2Proof
end

