-- ==== Sys2Proof/Config.lean ====
section
/-! DEFINITION. What one instance of the block fixes (00_scope.md rule R4: NBUF, MIXED_OK, WS_SET) and the one free
value of the spec, the contents of a buffer byte that nothing has written since reset
(93_implementation_defined.md U1). -/

namespace Sys2Proof

/-- The two byte buffers, which are also the two byte address spaces (10_state.md rule R25, 20_memory.md rule R60). -/
inductive Buf where
  | ibuf
  | obuf
deriving DecidableEq, Repr

/-- The three parameters of the model (rule R4: "The model takes three parameters; nothing else varies between
instances"). A state carries the parameters of its instance and no step changes them, so a statement about every state
is a statement about every choice of them (log entry 1). Their legality is `Config.wf`. -/
structure Config where
  /-- `NBUF`, "number of bytes in each of IBUF and OBUF", OPEN in the spec. -/
  nbuf    : Nat
  /-- `MIXED_OK`, "whether a string that holds both a standard-only character and a URL-only character passes the
  validity check". -/
  mixedOk : Bool
  /-- `WS_SET`, "the characters the validity check strips as whitespace". A legal set holds no alphabet character, no `=`
  (rule R23) and no code 0x80..0xFF (DEDUCED from rules R11 and R124, log entry 17). -/
  wsSet   : List Byte
deriving DecidableEq, Repr

/-- The spec's value of WS_SET (rule R4): 0x09, 0x0A, 0x0B, 0x0C, 0x0D, 0x20. PRESUMED by the spec itself
(93_implementation_defined.md K3; log entry 3). -/
def Config.specWsSet : List Byte := [0x09, 0x0A, 0x0B, 0x0C, 0x0D, 0x20]

/-- The parameters `State.reset` takes. MIXED_OK and WS_SET are the spec's values. NBUF = 64 is a DESIGN CHOICE, unsafe
where a claim rests on it: rule R4 leaves NBUF OPEN, and the vectors of 95_test_vectors.md hold for any NBUF >= 64
(log entry 1). -/
def Config.spec : Config where
  nbuf    := 64
  mixedOk := true
  wsSet   := Config.specWsSet

/-- FREE VALUE (rule R38, U1; log entry 4): the byte that index `i` of buffer `b` holds after the `k`-th reset until
something writes it. "each byte independently holds any 8-bit value, and it holds that one value until something writes
it". It has no body, so no proof can see a value of it. -/
opaque Config.resetByte : (k : Nat) → (b : Buf) → (i : Nat) → Byte

end Sys2Proof
end

