-- ==== Sys2Proof/Machine/State.lean ====
section
/-! DEFINITION. The state of the block as plain data (10_state.md rules R20 to R38), the host's transactions that wait at
the port and the port's answer (20_memory.md rule R61), the outcomes a step cannot have, and the state after reset. -/

namespace Sys2Proof.Machine

/-- A byte buffer: the bytes written since reset, as (index, byte) pairs with strictly rising indices. An index that is
not listed has not been written since reset, and the byte there is the free value `Config.resetByte` (rule R38, U1;
log entries 4 and 5). -/
abbrev Memory := List Host.Cell

/-- The fault codes of 60_exceptions.md rule R220 other than 0. A fault of the block is a NEXT state with STATUS.ERR and
EINFO written (rule R221), not a stop of the model. -/
inductive FaultCode where
  /-- Code 1: the word matches no command; EINFO = the word. -/
  | illegalCmd
  /-- Code 2: EINFO = 0 input side, 1 output side. -/
  | bounds
  /-- Code 3: the input is not valid; EINFO = 0. -/
  | invalidInput
  /-- Code 4: the padding length is above 2; EINFO = the padding length. -/
  | padlen
  /-- Code 5: a character in a meaningful position has no reverse entry; EINFO = its index in IBUF. -/
  | badchar
deriving DecidableEq, Repr

/-- Register 1, STATUS (rule R33): the fault code ERR in bits 3:0 and the four condition flags in bits 4 to 7. Bits 31:8
are reserved and read 0, and the host cannot write the register, so they are not stored. -/
structure Status where
  /-- `ERR`, 0 = no fault pending, legal values 0..5. -/
  err  : BitVec 4
  /-- `V`, "result of the last validity check that completed". -/
  v    : Bool
  /-- `PLOK`, "1 when the padding length found by the last INFO or DECODE is 0, 1 or 2". -/
  plok : Bool
  /-- `HSTD`, 1 when some input byte had class STD at the last INFO or DECODE. -/
  hstd : Bool
  /-- `HURL`, 1 when some input byte had class URL at the last INFO or DECODE. -/
  hurl : Bool
deriving DecidableEq, Repr

/-- What the outside world does to the block: the four host transactions of rule R61 and the reset event of
70_reset_and_hazards.md rule R260, the one asynchronous input. -/
inductive Txn where
  | regRead (n : Fin 16)
  | regWrite (n : Fin 16) (v : Word)
  | bufRead (b : Buf) (i : Nat)
  | bufWrite (b : Buf) (i : Nat) (v : Byte)
  | reset
deriving DecidableEq, Repr

/-- What the port answers to the last transaction (the result column of rule R61). -/
inductive Reply where
  /-- No transaction has been answered since reset. -/
  | idle
  /-- A write was carried out (or ignored silently, rule R62). -/
  | done
  /-- The word a RegRead returned. -/
  | word (v : Word)
  /-- The byte a BufRead returned. -/
  | byte (v : Byte)
  /-- The error response to a buffer transaction with an index at or above NBUF (rule R63). -/
  | error
deriving DecidableEq, Repr

/-- The complete state of the block (rule R20): the ten registers that hold state and the two buffers. CMD and registers
11 to 15 hold nothing (rules R32, R35), and there is no program counter, no hidden state and no mode (rules R36, R37,
R227). Four fields are the MODEL'S own: `cfg`, the parameters of the instance (log entry 1); `resets`, the counter the
free value is drawn with (log entry 4); `pending`, the transactions the host has issued and the block has not yet served
(log entry 6); `reply`, the port's answer (log entry 7). -/
structure State where
  /-- The parameters of rule R4; no step changes them. -/
  cfg     : Config
  /-- Register 1. -/
  status  : Status
  /-- Register 2, the information word of the pending fault (rule R34). -/
  einfo   : Word
  /-- Register 3, the number of meaningful bytes in IBUF (rule R27). -/
  ilen    : Word
  /-- Register 4, the input cursor (rule R28). -/
  iptr    : Word
  /-- Register 5, the output cursor (rule R29). -/
  optr    : Word
  /-- Register 6, the result of the last table command (rule R30). -/
  res     : Word
  /-- Register 7, the fill count (rule R31). -/
  fill    : Word
  /-- Register 8, the valid-character length (rule R31). -/
  vlen    : Word
  /-- Register 9, the padding length (rule R31). -/
  plen    : Word
  /-- Register 10, the decoded byte length, or 0 when PLOK is 0 (rule R31). -/
  blen    : Word
  /-- The input buffer (rule R25). -/
  ibuf    : Memory
  /-- The output buffer (rule R25). -/
  obuf    : Memory
  /-- How many reset events the block has taken; it selects the unspecified buffer bytes. -/
  resets  : Nat
  /-- The transactions waiting at the port, oldest first. -/
  pending : List Txn
  /-- The port's answer to the last transaction. -/
  reply   : Reply
deriving DecidableEq, Repr

/-- How the model can stop with a fault: in no way. "*Stuck*: never; every host transaction has a defined outcome in every
state" (60_exceptions.md rule R229), and a fault of the block is a next state (`FaultCode`). Nothing raises a value of
this type, because it has none (log entry 10). -/
inductive Fault where
deriving DecidableEq, Repr

/-- How the model can refuse. -/
inductive Refusal where
  /-- An instruction without a meaning in the model, by its mnemonic. No arm of `exec` raises it (every command has its
  meaning), so it is neither safe nor unsafe. -/
  | notModelled (mnemonic : String)
deriving DecidableEq, Repr

/-- STATUS after reset (rule R38): ERR = 0, V = 0, PLOK = 0, HSTD = 0, HURL = 0. -/
def Status.reset : Status where
  err  := 0
  v    := false
  plok := false
  hstd := false
  hurl := false

/-- The state right after the first reset of an instance with parameters `c` (rules R38, R261): every register 0, no
buffer byte written, nothing waiting at the port. -/
def State.resetOf (c : Config) : State where
  cfg     := c
  status  := Status.reset
  einfo   := 0
  ilen    := 0
  iptr    := 0
  optr    := 0
  res     := 0
  fill    := 0
  vlen    := 0
  plen    := 0
  blen    := 0
  ibuf    := []
  obuf    := []
  resets  := 0
  pending := []
  reply   := .idle

/-- The state right after reset, with the parameters of `Config.spec` (log entry 1). -/
def State.reset : State := State.resetOf Config.spec

end Sys2Proof.Machine
end

