-- ==== Sys2Proof/Machine/Rom.lean ====
section
/-! DEFINITION. The three ROMs FWD, REV and CLS, constants of the model (10_state.md rules R20 to R24), and the two
lookup functions (40_table.md rules R120, R121). 51 of FWD's entries and all character codes but 0x4D are PRESUMED by the
spec itself (93_implementation_defined.md K1, K2; log entry 2). -/

namespace Sys2Proof.Machine

/-- The padding character `=`, 0x3D (rule R11). -/
def padChar : Byte := 0x3D

/-! ### FWD, the forward table (rule R21) -/

/-- FWD[0..16): `A` to `P`. -/
def fwdRom0 : List Byte := [0x41, 0x42, 0x43, 0x44, 0x45, 0x46, 0x47, 0x48, 0x49, 0x4A, 0x4B, 0x4C, 0x4D, 0x4E, 0x4F, 0x50]

/-- FWD[16..32): `Q` to `Z`, `a` to `f`. -/
def fwdRom1 : List Byte := [0x51, 0x52, 0x53, 0x54, 0x55, 0x56, 0x57, 0x58, 0x59, 0x5A, 0x61, 0x62, 0x63, 0x64, 0x65, 0x66]

/-- FWD[32..48): `g` to `v`. -/
def fwdRom2 : List Byte := [0x67, 0x68, 0x69, 0x6A, 0x6B, 0x6C, 0x6D, 0x6E, 0x6F, 0x70, 0x71, 0x72, 0x73, 0x74, 0x75, 0x76]

/-- FWD[48..64): `w` to `z`, `0` to `9`, `+`, `/`. -/
def fwdRom3 : List Byte := [0x77, 0x78, 0x79, 0x7A, 0x30, 0x31, 0x32, 0x33, 0x34, 0x35, 0x36, 0x37, 0x38, 0x39, 0x2B, 0x2F]

/-- The 64 entries of FWD, index 0 first. -/
def fwdRom : List Byte := fwdRom0 ++ fwdRom1 ++ fwdRom2 ++ fwdRom3

/-- `FWD[i]`: the character that spells symbol `i` in the standard alphabet. -/
def fwd (i : Symbol) : Byte := fwdRom.getD i.toNat 0

/-! ### REV, the reverse table (rule R22) -/

/-- An entry of REV: `HIT(c)` and `VAL(c)`. -/
structure RevEntry where
  hit : Bool
  val : Symbol
deriving DecidableEq, Repr

/-- `REV[c]`, by the code ranges of rule R22: 66 entries with HIT = 1; "Every other code, 190 of them, has `HIT = 0` and
`VAL = 0`". -/
def rev (c : Byte) : RevEntry :=
  if c = 0x2B then ⟨true, 62⟩
  else if c = 0x2D then ⟨true, 62⟩
  else if c = 0x2F then ⟨true, 63⟩
  else if c = 0x5F then ⟨true, 63⟩
  else if 0x30 ≤ c ∧ c ≤ 0x39 then ⟨true, (c - 0x30).setWidth 6 + 52⟩
  else if 0x41 ≤ c ∧ c ≤ 0x5A then ⟨true, (c - 0x41).setWidth 6⟩
  else if 0x61 ≤ c ∧ c ≤ 0x7A then ⟨true, (c - 0x61).setWidth 6 + 26⟩
  else ⟨false, 0⟩

/-! ### CLS, the class ROM (rule R23) -/

/-- The six classes of rule R23. -/
inductive CharClass where
  | other
  | alnum
  | std
  | url
  | pad
  | ws
deriving DecidableEq, Repr

/-- The 3-bit content of the CLS ROM for a class (rule R23, column "code"). -/
def CharClass.code : CharClass → BitVec 3
  | .other => 0
  | .alnum => 1
  | .std   => 2
  | .url   => 3
  | .pad   => 4
  | .ws    => 5

/-- `CLS[c]`, "derived from REV, the padding character and the parameter WS_SET": a hit of REV is STD for `+` and `/`, URL
for `-` and `_`, and ALNUM otherwise (rule R23). Codes 0x80..0xFF are OTHER whatever WS_SET is: "not characters of either
alphabet, not padding and not whitespace (class OTHER)" (00_scope.md rule R11), "every code 0x80..0xFF give 0" (40_table.md
rule R124). In an instance that meets `Config.wf` neither that bound nor the order of the tests changes which codes are WS
(log entries 14 and 17). -/
def cls (cfg : Config) (c : Byte) : CharClass :=
  if c = 0x2B ∨ c = 0x2F then .std
  else if c = 0x2D ∨ c = 0x5F then .url
  else if (rev c).hit then .alnum
  else if c = padChar then .pad
  else if c < 0x80 ∧ c ∈ cfg.wsSet then .ws
  else .other

/-! ### The lookup functions (40_table.md) -/

/-- `FWDU(i, u)`, the alphabet-selecting forward lookup (rule R120). -/
def fwdu (i : Symbol) : Alphabet → Byte
  | .standard => fwd i
  | .urlSafe  => if i = 62 then 0x2D else if i = 63 then 0x5F else fwd i

/-- `SYM(c)`, the reverse lookup (rule R121): "if `HIT(c) = 0` it has no value". It takes no alphabet. -/
def sym (c : Byte) : Option Symbol := if (rev c).hit then some (rev c).val else none

end Sys2Proof.Machine

namespace Sys2Proof

/-- The parameters are legal: 12 <= NBUF <= 65532 (rule R4), and "WS_SET must not contain a code of class ALNUM, STD, URL
or PAD" (rule R23). DEDUCED: nor may it hold a code 0x80..0xFF. Rules R4 and R23 do not list that bound; rules R11 and R124
give those codes class OTHER in every instance, and a set that held one would make it WS by rule R23 (log entry 17). -/
def Config.wf (cfg : Config) : Bool :=
  decide (12 ≤ cfg.nbuf) && decide (cfg.nbuf ≤ 65532) &&
    cfg.wsSet.all (fun c => !(Machine.rev c).hit && c != Machine.padChar && decide (c < 0x80))

end Sys2Proof
end

