-- ==== Sys2Proof/Machine/Datapath.lean ====
section
/-! DEFINITION. The pack datapath (41_encode.md rules R140 to R142) and the unpack datapath (44_decode.md rules R185 to
R187), as pure functions on bytes and symbols, and the bytes they put out through the ROMs. -/

namespace Sys2Proof.Machine

/-! ### Pack -/

/-- The 24-bit integer `b0<<16 | b1<<8 | b2` (rule R140). -/
def packWord (b0 b1 b2 : Byte) : BitVec 24 := (b0.setWidth 24 <<< 16) ||| (b1.setWidth 24 <<< 8) ||| b2.setWidth 24

/-- `PACK3`, three bytes to four symbols: the slices 23:18, 17:12, 11:6, 5:0 of the 24-bit integer, "most-significant slice
first" (rule R140). -/
def pack3 (b0 b1 b2 : Byte) : Symbol × Symbol × Symbol × Symbol :=
  let w := packWord b0 b1 b2
  (w.extractLsb' 18 6, w.extractLsb' 12 6, w.extractLsb' 6 6, w.extractLsb' 0 6)

/-- `PACK2`, two bytes to three symbols: `v>>10`, `(v>>4)&0x3f`, `(v<<2)&0x3f` of `v = (b0<<8)|b1`; the last shift is on a
value wide enough to lose no bit before the mask (rules R8, R142). -/
def pack2 (b0 b1 : Byte) : Symbol × Symbol × Symbol :=
  let v : BitVec 18 := (b0.setWidth 18 <<< 8) ||| b1.setWidth 18
  ((v >>> 10).setWidth 6, ((v >>> 4) &&& 0x3F).setWidth 6, ((v <<< 2) &&& 0x3F).setWidth 6)

/-- `PACK1`, one byte to two symbols: `b>>2`, `(b<<4)&0x3f`; "The shift is on a value wider than 8 bits, so no bit is lost
before the mask" (rule R141). -/
def pack1 (b : Byte) : Symbol × Symbol :=
  let v : BitVec 12 := b.setWidth 12
  ((v >>> 2).setWidth 6, ((v <<< 4) &&& 0x3F).setWidth 6)

/-- The four characters ENC3 puts out (rule R143). -/
def enc3Text (u : Alphabet) (b0 b1 b2 : Byte) : List Byte :=
  match pack3 b0 b1 b2 with
  | (s0, s1, s2, s3) => [fwdu s0 u, fwdu s1 u, fwdu s2 u, fwdu s3 u]

/-- The `=` characters that end a tail: `n` of them in the standard alphabet, none in the URL-safe one (rules R144,
R145). -/
def tailPad (u : Alphabet) (n : Nat) : List Byte :=
  match u with
  | .standard => List.replicate n padChar
  | .urlSafe  => []

/-- The characters ENC2 puts out: three symbols, then one `=` if U = 0 (rule R144). -/
def enc2Text (u : Alphabet) (b0 b1 : Byte) : List Byte :=
  match pack2 b0 b1 with
  | (s0, s1, s2) => [fwdu s0 u, fwdu s1 u, fwdu s2 u] ++ tailPad u 1

/-- The characters ENC1 puts out: two symbols, then two `=` if U = 0 (rule R145). -/
def enc1Text (u : Alphabet) (b : Byte) : List Byte :=
  match pack1 b with
  | (s0, s1) => [fwdu s0 u, fwdu s1 u] ++ tailPad u 2

/-- The output of the whole encoder over a byte sequence: the full triplets in ascending order, then the tail of one or
two bytes, or nothing (rule R146). -/
def encodeText (u : Alphabet) : List Byte → List Byte
  | b0 :: b1 :: b2 :: rest => enc3Text u b0 b1 b2 ++ encodeText u rest
  | [b0, b1]               => enc2Text u b0 b1
  | [b0]                   => enc1Text u b0
  | []                     => []

/-! ### Unpack -/

/-- `UNPACK4`, four symbols to three bytes: bytes 23:16, 15:8, 7:0 of `(r0<<18)|(r1<<12)|(r2<<6)|r3` (rule R185). -/
def unpack4 (r0 r1 r2 r3 : Symbol) : Byte × Byte × Byte :=
  let w : BitVec 24 := (r0.setWidth 24 <<< 18) ||| (r1.setWidth 24 <<< 12) ||| (r2.setWidth 24 <<< 6) ||| r3.setWidth 24
  (w.extractLsb' 16 8, w.extractLsb' 8 8, w.extractLsb' 0 8)

/-- `UNPACK3`, three symbols to two bytes: bits 15:8, then 7:0, of `(r0<<10)|(r1<<4)|(r2>>2)`, 16 bits (rule R186;
90_conflicts.md C4). -/
def unpack3 (r0 r1 r2 : Symbol) : Byte × Byte :=
  let v : BitVec 16 := (r0.setWidth 16 <<< 10) ||| (r1.setWidth 16 <<< 4) ||| (r2.setWidth 16 >>> 2)
  (v.extractLsb' 8 8, v.extractLsb' 0 8)

/-- `UNPACK2`, two symbols to one byte: `(r0<<2)|(r1>>4)` (rule R187). -/
def unpack2 (r0 r1 : Symbol) : Byte := (r0.setWidth 8 <<< 2) ||| (r1.setWidth 8 >>> 4)

/-- The least `k` such that `cs[k]` has `HIT = 0`, if there is one (rules R188 to R191: "j the least such k"). -/
def firstMiss (cs : List Byte) : Option Nat := cs.findIdx? (fun c => !(rev c).hit)

/-- `VAL(c)`: the value SYM gives a character with a reverse entry. -/
def symVal (c : Byte) : Symbol := (rev c).val

/-- The three bytes of a full group of characters (rule R188). -/
def dec4Bytes (c0 c1 c2 c3 : Byte) : List Byte :=
  match unpack4 (symVal c0) (symVal c1) (symVal c2) (symVal c3) with
  | (b0, b1, b2) => [b0, b1, b2]

/-- The two bytes of a three-character tail (rule R189). -/
def dec3Bytes (c0 c1 c2 : Byte) : List Byte :=
  match unpack3 (symVal c0) (symVal c1) (symVal c2) with
  | (b0, b1) => [b0, b1]

/-- The byte of a two-character tail (rule R190). -/
def dec2Bytes (c0 c1 : Byte) : List Byte := [unpack2 (symVal c0) (symVal c1)]

/-- The full groups of a character sequence that starts at index `base`, in ascending order: their bytes, or the index of
the first character without a reverse entry (rule R191, the loop over `g`). -/
def decodeFull (base : Nat) : List Byte → Except Nat (List Byte)
  | c0 :: c1 :: c2 :: c3 :: rest =>
    match firstMiss [c0, c1, c2, c3] with
    | some j => .error (base + j)
    | none =>
      match decodeFull (base + 4) rest with
      | .error j => .error j
      | .ok out  => .ok (dec4Bytes c0 c1 c2 c3 ++ out)
  | _ => .ok []

/-- The final group, which starts at index `base`, by the padding length (rule R191): three characters for 1, two for 2,
none for 0. -/
def decodeTail (base plen : Nat) (cs : List Byte) : Except Nat (List Byte) :=
  match plen, cs with
  | 1, c0 :: c1 :: c2 :: _ =>
    match firstMiss [c0, c1, c2] with
    | some j => .error (base + j)
    | none   => .ok (dec3Bytes c0 c1 c2)
  | 2, c0 :: c1 :: _ =>
    match firstMiss [c0, c1] with
    | some j => .error (base + j)
    | none   => .ok (dec2Bytes c0 c1)
  | _, _ => .ok []

/-- `nfull` of rule R191: all `L div 4` groups when the padding length is 0, one fewer otherwise. -/
def fullGroups (len plen : Nat) : Nat := if plen = 0 then len / 4 else len / 4 - 1

/-- The decoder's datapath over a padded view `p` whose padding length is 0, 1 or 2 (rule R191): the output bytes, or the
index of the first character it reads that has no reverse entry. -/
def decodeText (p : List Byte) (plen : Nat) : Except Nat (List Byte) :=
  let t := 4 * fullGroups p.length plen
  match decodeFull 0 (p.take t) with
  | .error j => .error j
  | .ok out =>
    match decodeTail t plen (p.drop t) with
    | .error j => .error j
    | .ok last => .ok (out ++ last)

end Sys2Proof.Machine
end

