-- ==== Sys2Proof/Machine/Ops.lean ====
section
/-! DEFINITION. The named operations over the buffers and the registers: reading and writing a byte, the accessors of the
register file (10_state.md rule R26), taking a fault (60_exceptions.md rule R221), leaving the fault state (rule R224) and
the reset event (70_reset_and_hazards.md rule R260). -/

namespace Sys2Proof.Machine

/-! ### The memory of a buffer -/

/-- The byte written at index `i`, or `none` where nothing has been written since reset. -/
def Memory.get (m : Memory) (i : Nat) : Option Byte := List.lookup i m

/-- Write the byte `v` at index `i`, keeping the indices strictly rising. -/
def Memory.put (i : Nat) (v : Byte) : Memory → Memory
  | [] => [(i, v)]
  | (k, x) :: rest =>
    if i < k then (i, v) :: (k, x) :: rest
    else if i = k then (i, v) :: rest
    else (k, x) :: Memory.put i v rest

/-- Write the bytes `vs` at the consecutive indices from `i` up, in ascending order (rules R9, R66: a multi-byte MemWrite
"is only the pseudocode's name for n single-byte accesses at consecutive indices"). -/
def Memory.putAll (i : Nat) : List Byte → Memory → Memory
  | [], m      => m
  | v :: vs, m => Memory.putAll (i + 1) vs (Memory.put i v m)

/-- The canonical form: indices strictly rising. No entry can equal what an unlisted index reads as, because that is
`none` (log entry 5). -/
def Memory.wf : Memory → Bool
  | []                      => true
  | [_]                     => true
  | (i, _) :: (k, y) :: rest => decide (i < k) && Memory.wf ((k, y) :: rest)

/-- Every written index is below `n`. -/
def Memory.below (n : Nat) (m : Memory) : Bool := m.all (fun c => decide (c.1 < n))

/-! ### Buffer bytes -/

/-- A buffer of the state. -/
def State.mem (s : State) : Buf → Memory
  | .ibuf => s.ibuf
  | .obuf => s.obuf

/-- `S[i]`: the byte last written at index `i` of buffer `b`, or the unspecified byte it has held since the last reset
(rule R38, U1; log entry 4). -/
def State.readByte (s : State) (b : Buf) (i : Nat) : Byte := ((s.mem b).get i).getD (Config.resetByte s.resets b i)

/-- `S[i] <- v` (rule R63). -/
def State.writeByte (s : State) (b : Buf) (i : Nat) (v : Byte) : State :=
  match b with
  | .ibuf => { s with ibuf := Memory.put i v s.ibuf }
  | .obuf => { s with obuf := Memory.put i v s.obuf }

/-- `OBUF[i+k] <- vs[k]` for every `k`. -/
def State.writeObuf (s : State) (i : Nat) (vs : List Byte) : State := { s with obuf := Memory.putAll i vs s.obuf }

/-! ### Registers -/

/-- The 32-bit value of a natural number; every number a command writes to a register is below 2^32 in an instance that
meets `Config.wf` (rules R8, R9; log entry 13). -/
def word32 (n : Nat) : Word := BitVec.ofNat 32 n

/-- STATUS as the word a host reads: ERR in bits 3:0, V, PLOK, HSTD, HURL in bits 4 to 7, bits 31:8 zero (rule R33). -/
def Status.word (t : Status) : Word :=
  (0 : BitVec 24) ++ BitVec.ofBool t.hurl ++ BitVec.ofBool t.hstd ++ BitVec.ofBool t.plok ++ BitVec.ofBool t.v ++ t.err

/-- `x[n]`: the value of register number `n` (rule R26); "0 for n = 0 and n in 11..15" (rule R62). -/
def State.regRead (s : State) (n : Fin 16) : Word :=
  match n.val with
  | 1  => s.status.word
  | 2  => s.einfo
  | 3  => s.ilen
  | 4  => s.iptr
  | 5  => s.optr
  | 6  => s.res
  | 7  => s.fill
  | 8  => s.vlen
  | 9  => s.plen
  | 10 => s.blen
  | _  => 0

/-- A host write to a register other than CMD: ILEN, IPTR and OPTR take the value; "for n in {1, 2, 6, 7, 8, 9, 10} and n in
11..15 the write is ignored, silently" (rule R62). -/
def State.regStore (s : State) (n : Fin 16) (v : Word) : State :=
  match n.val with
  | 3 => { s with ilen := v }
  | 4 => { s with iptr := v }
  | 5 => { s with optr := v }
  | _ => s

/-- `RES <- v`. -/
def State.setRes (s : State) (v : Word) : State := { s with res := v }

/-- The cursors take the values `i` and `o`. -/
def State.setCursors (s : State) (i o : Nat) : State := { s with iptr := word32 i, optr := word32 o }

/-- `IPTR <- IPTR + n`, `OPTR <- OPTR + m` (rules R28, R29). -/
def State.advance (s : State) (n m : Nat) : State := s.setCursors (s.iptr.toNat + n) (s.optr.toNat + m)

/-! ### The port -/

/-- The port answers `r`. -/
def State.answer (s : State) (r : Reply) : State := { s with reply := r }

/-- The transactions left at the port. -/
def State.waiting (s : State) (ts : List Txn) : State := { s with pending := ts }

/-! ### Faults -/

/-- The value of STATUS.ERR for a fault (rule R220, column "code"). -/
def FaultCode.code : FaultCode → BitVec 4
  | .illegalCmd   => 1
  | .bounds       => 2
  | .invalidInput => 3
  | .padlen       => 4
  | .badchar      => 5

/-- Taking a fault (rule R221): "STATUS.ERR <- F, EINFO <- info and nothing else changes: no buffer byte, no cursor, no data
register, no flag." It is applied to the state before the command, so every write of the command is discarded. -/
def State.raise (s : State) (f : FaultCode) (info : Word) : State :=
  { s with status := { s.status with err := f.code }, einfo := info }

/-- A command that ends with `raise f(info)`: the machine goes on in the state after the fault entry (rule R221; log
entry 10). -/
def State.takeFault (s : State) (f : FaultCode) (info : Word) : Host.Outcome State Fault Refusal := .next (s.raise f info)

/-- Leaving the fault state (rules R211, R224): "STATUS.ERR <- 0, EINFO <- 0"; nothing is restored, since nothing was
changed. -/
def State.clearFault (s : State) : State := { s with status := { s.status with err := 0 }, einfo := 0 }

/-- A fault is pending. -/
def State.faultPending (s : State) : Bool := s.status.err != 0

/-- The output line `fault_o`: "it is high exactly while `STATUS.ERR != 0`" (rule R225). -/
def State.faultLine (s : State) : Bool := s.faultPending

/-! ### Reset -/

/-- The reset event (rules R38, R260): every register 0, every buffer byte unspecified anew. The parameters and the
transactions still to come are not the block's to reset. -/
def State.resetEvent (s : State) : State := { State.resetOf s.cfg with resets := s.resets + 1, pending := s.pending }

end Sys2Proof.Machine
end

