-- ==== Sys2Proof/Machine/Operands.lean ====
section
/-! DEFINITION. The implicit operands of a command: the input `IBUF[0..ILEN)`, the bytes at the cursors, the padded view
IN (20_memory.md rule R73) and the bounds checks (rule R74). -/

namespace Sys2Proof.Machine

/-- `IBUF[i]`. -/
def State.readIbuf (s : State) (i : Nat) : Byte := s.readByte .ibuf i

/-- `IBUF[IPTR + k]`. -/
def State.atCursor (s : State) (k : Nat) : Byte := s.readIbuf (s.iptr.toNat + k)

/-- The input `IBUF[0..ILEN)`, lowest index first. -/
def State.input (s : State) : List Byte := (List.range s.ilen.toNat).map s.readIbuf

/-! ### Bounds (rule R74), on natural numbers: no sum is reduced modulo 2^32 (rule R8) -/

/-- `ILEN > NBUF`. -/
def State.inputTooLong (s : State) : Bool := decide (s.cfg.nbuf < s.ilen.toNat)

/-- `ILEN > NBUF or IPTR + n > ILEN`: the input side of a group command that consumes `n` bytes. -/
def State.inputShort (s : State) (n : Nat) : Bool := s.inputTooLong || decide (s.ilen.toNat < s.iptr.toNat + n)

/-- `OPTR + m > NBUF`: the output side of a group command that produces `m` bytes. -/
def State.outputFull (s : State) (m : Nat) : Bool := decide (s.cfg.nbuf < s.optr.toNat + m)

/-- `EINFO` of an input-side BOUNDS fault. -/
def inputSide : Word := 0

/-- `EINFO` of an output-side BOUNDS fault. -/
def outputSide : Word := 1

/-! ### Lengths -/

/-- How many characters ENC2 and ENC1 put out: 4 in the standard alphabet, `n + 1` for an `n`-byte tail in the URL-safe one
(rules R144, R145, R146). -/
def tailLen (u : Alphabet) (n : Nat) : Nat :=
  match u with
  | .standard => 4
  | .urlSafe  => n + 1

/-- ENCODE's output length for an input of `len` bytes (rule R146): `4*q + tail`. -/
def encodeLen (u : Alphabet) (len : Nat) : Nat := 4 * (len / 3) + (if len % 3 = 0 then 0 else tailLen u (len % 3))

/-- `FILLv`, the fill count for an input of `len` bytes: `(4 - n mod 4) mod 4` (43_inspect.md rule R171). -/
def fillOf (len : Nat) : Nat := (4 - len % 4) % 4

/-! ### The padded view (rule R73) -/

/-- `IN(i)` over an input `bs`: `bs[i]` below its length, `=` at and above it. -/
def viewAt (bs : List Byte) (i : Nat) : Byte := bs.getD i padChar

/-- The padded view as a sequence: `IN(i)` for `i < L`, where `L = n + FILLv`. -/
def padded (bs : List Byte) : List Byte := bs ++ List.replicate (fillOf bs.length) padChar

end Sys2Proof.Machine
end

