-- ==== Sys2Proof/Machine/Flags.lean ====
section
/-! DEFINITION. The condition flags of STATUS (10_state.md rule R33) and what they are computed from: the validity
predicate (42_validate.md rule R160) for V, the padding length for PLOK, and the classes of the input bytes for HSTD and
HURL (43_inspect.md rule R175). -/

namespace Sys2Proof.Machine

/-! ### V: the validity predicate (rule R160) -/

/-- `t`: the bytes whose class is not WS, order kept. -/
def stripWs (cfg : Config) (bs : List Byte) : List Byte := bs.filter (fun c => cls cfg c != .ws)

/-- `k`: how many `=` are taken off the end of `t`, at most two. -/
def trailingPads (t : List Byte) : Nat :=
  if 2 ≤ t.length ∧ t.getD (t.length - 1) 0 = padChar ∧ t.getD (t.length - 2) 0 = padChar then 2
  else if 1 ≤ t.length ∧ t.getD (t.length - 1) 0 = padChar then 1
  else 0

/-- `r`: what is left of the input when whitespace and the trailing `=` are off. -/
def validCore (cfg : Config) (bs : List Byte) : List Byte :=
  let t := stripWs cfg bs
  t.take (t.length - trailingPads t)

/-- Every character is of the standard set. -/
def allStd (cfg : Config) (r : List Byte) : Bool := r.all (fun c => cls cfg c == .alnum || cls cfg c == .std)

/-- Every character is of the URL-safe set. -/
def allUrl (cfg : Config) (r : List Byte) : Bool := r.all (fun c => cls cfg c == .alnum || cls cfg c == .url)

/-- Every character is of one of the two sets. -/
def allAny (cfg : Config) (r : List Byte) : Bool :=
  r.all (fun c => cls cfg c == .alnum || cls cfg c == .std || cls cfg c == .url)

/-- `Valid(s)` (rule R160). Which of the two readings holds is the parameter MIXED_OK (90_conflicts.md C3). -/
def validText (cfg : Config) (bs : List Byte) : Bool :=
  let r := validCore cfg bs
  if cfg.mixedOk then allAny cfg r else allStd cfg r || allUrl cfg r

/-! ### PLOK, HSTD, HURL (rule R175) -/

/-- `PLOKv`: the padding length is one "the decoder has a case for". -/
def plokOf (plen : Nat) : Bool := decide (plen ≤ 2)

/-- `HSTDv`: some input byte has class STD. -/
def hstdOf (cfg : Config) (bs : List Byte) : Bool := bs.any (fun c => cls cfg c == .std)

/-- `HURLv`: some input byte has class URL. -/
def hurlOf (cfg : Config) (bs : List Byte) : Bool := bs.any (fun c => cls cfg c == .url)

/-! ### Writing the flags: ERR keeps its value (rule R33) -/

/-- `STATUS.V <- b`. -/
def State.setV (s : State) (b : Bool) : State := { s with status := { s.status with v := b } }

/-- `STATUS.V`, `PLOK`, `HSTD`, `HURL` take new values. -/
def State.setFlags (s : State) (v plok hstd hurl : Bool) : State :=
  { s with status := { err := s.status.err, v := v, plok := plok, hstd := hstd, hurl := hurl } }

end Sys2Proof.Machine
end

