-- ==== Sys2Proof/Machine/EncodeFamily.lean ====
section
/-! DEFINITION. The encode family (41_encode.md): the group commands ENC3, ENC2, ENC1 and the whole-buffer command
ENCODE. -/

namespace Sys2Proof.Machine

/-- A group command of either family: the two bounds checks, input side first (rules R74, R223), then `run`. -/
def State.boundedGroup (s : State) (n m : Nat) (run : Host.Outcome State Fault Refusal) :
    Host.Outcome State Fault Refusal :=
  if s.inputShort n then s.takeFault .bounds inputSide
  else if s.outputFull m then s.takeFault .bounds outputSide
  else run

/-- The end of a group command without a fault: the bytes `out` at OPTR, and both cursors advanced by the `n` bytes consumed
and the bytes produced. -/
def State.groupDone (s : State) (n : Nat) (out : List Byte) : State :=
  (s.writeObuf s.optr.toNat out).advance n out.length

/-- ENC3 (rule R143). -/
def execEnc3 (u : Alphabet) (s : State) : Host.Outcome State Fault Refusal :=
  s.boundedGroup 3 4 (.next (s.groupDone 3 (enc3Text u (s.atCursor 0) (s.atCursor 1) (s.atCursor 2))))

/-- ENC2 (rule R144): with U = 1 "exactly three bytes of OBUF are written". -/
def execEnc2 (u : Alphabet) (s : State) : Host.Outcome State Fault Refusal :=
  s.boundedGroup 2 (tailLen u 2) (.next (s.groupDone 2 (enc2Text u (s.atCursor 0) (s.atCursor 1))))

/-- ENC1 (rule R145). -/
def execEnc1 (u : Alphabet) (s : State) : Host.Outcome State Fault Refusal :=
  s.boundedGroup 1 (tailLen u 1) (.next (s.groupDone 1 (enc1Text u (s.atCursor 0))))

/-- ENCODE (rule R146): it ignores the incoming cursors, "checks the whole output length before writing anything", and
leaves IPTR = ILEN and OPTR = the output length. -/
def execEncode (u : Alphabet) (s : State) : Host.Outcome State Fault Refusal :=
  if s.inputTooLong then s.takeFault .bounds inputSide
  else if s.cfg.nbuf < encodeLen u s.ilen.toNat then s.takeFault .bounds outputSide
  else .next ((s.writeObuf 0 (encodeText u s.input)).setCursors s.ilen.toNat (encodeLen u s.ilen.toNat))

end Sys2Proof.Machine
end

