-- ==== Sys2Proof/Machine/InspectFamily.lean ====
section
/-! DEFINITION. The inspect family (43_inspect.md): the four numbers and the flags of the padding-length validator, which
INFO and DECODE share (rule R178), and INFO. -/

namespace Sys2Proof.Machine

/-- `VLENv` (rule R172): the least index of a `=` in the padded view, and `L` when there is none. -/
def vlenOf (bs : List Byte) : Nat := (padded bs).findIdx (fun c => c == padChar)

/-- `PLENv` (rule R173): `L - VLENv`. -/
def plenOf (bs : List Byte) : Nat := (padded bs).length - vlenOf bs

/-- `BLENv` (rule R174): `(VLENv + PLENv) * 3 div 4 - PLENv` when `PLENv <= 2`, and 0 otherwise. -/
def blenOf (bs : List Byte) : Nat :=
  if plenOf bs ≤ 2 then (vlenOf bs + plenOf bs) * 3 / 4 - plenOf bs else 0

/-- What INFO and DECODE write when they end without a fault: `FILL, VLEN, PLEN, BLEN` and `V = 1, PLOK, HSTD, HURL`
(rules R176, R178, R191). It counts every byte of the input, whitespace included (rule R170). -/
def State.writeInfo (s : State) (bs : List Byte) : State :=
  { s.setFlags true (plokOf (plenOf bs)) (hstdOf s.cfg bs) (hurlOf s.cfg bs) with
    fill := word32 (fillOf bs.length)
    vlen := word32 (vlenOf bs)
    plen := word32 (plenOf bs)
    blen := word32 (blenOf bs) }

/-- INFO (rule R176): "A padding length above 2 is not a fault of INFO". -/
def execInfo (s : State) : Host.Outcome State Fault Refusal :=
  if s.inputTooLong then s.takeFault .bounds inputSide
  else if !validText s.cfg s.input then s.takeFault .invalidInput 0
  else .next (s.writeInfo s.input)

end Sys2Proof.Machine
end

