-- ==== Sys2Proof/Machine/DecodeFamily.lean ====
section
/-! DEFINITION. The decode family (44_decode.md): the group commands DEC4, DEC3, DEC2 and the whole-buffer command
DECODE. -/

namespace Sys2Proof.Machine

/-- A decoding group command after its bounds checks: BADCHAR at the least character of `cs` without a reverse entry, else
the bytes `out` (rules R188 to R190). `cs` are the characters at IPTR. -/
def State.decodeGroup (s : State) (cs out : List Byte) : Host.Outcome State Fault Refusal :=
  match firstMiss cs with
  | some j => s.takeFault .badchar (word32 (s.iptr.toNat + j))
  | none   => .next (s.groupDone cs.length out)

/-- DEC4 (rule R188): "DEC4 makes no validity check of its own beyond HIT". -/
def execDec4 (s : State) : Host.Outcome State Fault Refusal :=
  s.boundedGroup 4 3 (s.decodeGroup [s.atCursor 0, s.atCursor 1, s.atCursor 2, s.atCursor 3]
    (dec4Bytes (s.atCursor 0) (s.atCursor 1) (s.atCursor 2) (s.atCursor 3)))

/-- DEC3 (rule R189): "It reads three characters and does not look at a fourth". -/
def execDec3 (s : State) : Host.Outcome State Fault Refusal :=
  s.boundedGroup 3 2 (s.decodeGroup [s.atCursor 0, s.atCursor 1, s.atCursor 2]
    (dec3Bytes (s.atCursor 0) (s.atCursor 1) (s.atCursor 2)))

/-- DEC2 (rule R190). -/
def execDec2 (s : State) : Host.Outcome State Fault Refusal :=
  s.boundedGroup 2 1 (s.decodeGroup [s.atCursor 0, s.atCursor 1] (dec2Bytes (s.atCursor 0) (s.atCursor 1)))

/-- DECODE over an input `bs` that is valid (rule R191, from "compute FILLv, L, VLENv, PLENv" on): PADLEN, BADCHAR, or the
output with everything INFO would have left (rule R178). -/
def State.decodeValid (s : State) (bs : List Byte) : Host.Outcome State Fault Refusal :=
  if 2 < plenOf bs then s.takeFault .padlen (word32 (plenOf bs))
  else
    match decodeText (padded bs) (plenOf bs) with
    | .error j => s.takeFault .badchar (word32 j)
    | .ok out  => .next (((s.writeObuf 0 out).setCursors bs.length (blenOf bs)).writeInfo bs)

/-- DECODE (rule R191). The U bit "has no effect on any result" (rule R192): the padded view already supplies the padding
and the aliases already have the right values. -/
def execDecode (_u : Alphabet) (s : State) : Host.Outcome State Fault Refusal :=
  if s.inputTooLong then s.takeFault .bounds inputSide
  else if !validText s.cfg s.input then s.takeFault .invalidInput 0
  else s.decodeValid s.input

end Sys2Proof.Machine
end

