-- ==== Sys2Proof/Machine/SystemFamily.lean ====
section
/-! DEFINITION. The system family (45_system.md): NOP and CLRERR. -/

namespace Sys2Proof.Machine

/-- NOP (rule R210): "(no state change)". -/
def execNop (s : State) : Host.Outcome State Fault Refusal := .next s

/-- CLRERR (rule R211): "STATUS.ERR <- 0, EINFO <- 0". -/
def execClrerr (s : State) : Host.Outcome State Fault Refusal := .next s.clearFault

end Sys2Proof.Machine
end

