-- ==== Sys2Proof/Machine/TableFamily.lean ====
section
/-! DEFINITION. The table family (40_table.md): LUTF, LUTR and CLS make the ROMs observable entry by entry. -/

namespace Sys2Proof.Machine

/-- LUTF (rule R122): "RES <- zext_32(FWDU(IMM[5:0], U))". -/
def execLutf (u : Alphabet) (imm : Byte) (s : State) : Host.Outcome State Fault Refusal :=
  .next (s.setRes ((fwdu (imm.extractLsb' 0 6) u).setWidth 32))

/-- RES after LUTR: `0x100 | VAL` on a hit, 0 on a miss (rule R123). -/
def lutrResult (c : Byte) : Word := if (rev c).hit then 0x100 ||| (rev c).val.setWidth 32 else 0

/-- LUTR (rule R123); "A miss is a result, not a fault". -/
def execLutr (imm : Byte) (s : State) : Host.Outcome State Fault Refusal := .next (s.setRes (lutrResult imm))

/-- CLS (rule R124): "RES <- zext_32(CLS[IMM])". -/
def execCls (imm : Byte) (s : State) : Host.Outcome State Fault Refusal :=
  .next (s.setRes ((cls s.cfg imm).code.setWidth 32))

end Sys2Proof.Machine
end

