-- ==== Sys2Proof/Machine/ValidateFamily.lean ====
section
/-! DEFINITION. The validate family (42_validate.md): VALID. -/

namespace Sys2Proof.Machine

/-- VALID (rule R161): it writes V and nothing else; "an invalid string is the result V = 0, not a fault". -/
def execValid (s : State) : Host.Outcome State Fault Refusal :=
  if s.inputTooLong then s.takeFault .bounds inputSide
  else .next (s.setV (validText s.cfg s.input))

end Sys2Proof.Machine
end

