-- ==== Sys2Proof/Machine/Dispatch.lean ====
section
/-! DEFINITION. One arm for each command of Instr, in the order of the opcode map (30_encoding.md rule R92). -/

namespace Sys2Proof.Machine

/-- "execute the row's rule": step 3 of rule R95, and step 3 alone. That a word other than CLRERR is ignored while a fault is
pending (step 1) stands in `State.runCommand`, before decoding, as the rule has it (log entry 11). -/
def exec (i : Instr) (s : State) : Host.Outcome State Fault Refusal :=
  match i with
  | .nop => Sys2Proof.Machine.execNop s
  | .lutf u imm => Sys2Proof.Machine.execLutf u imm s
  | .lutr imm => Sys2Proof.Machine.execLutr imm s
  | .cls imm => Sys2Proof.Machine.execCls imm s
  | .enc3 u => Sys2Proof.Machine.execEnc3 u s
  | .enc2 u => Sys2Proof.Machine.execEnc2 u s
  | .enc1 u => Sys2Proof.Machine.execEnc1 u s
  | .dec4 => Sys2Proof.Machine.execDec4 s
  | .dec3 => Sys2Proof.Machine.execDec3 s
  | .dec2 => Sys2Proof.Machine.execDec2 s
  | .valid => Sys2Proof.Machine.execValid s
  | .info => Sys2Proof.Machine.execInfo s
  | .encode u => Sys2Proof.Machine.execEncode u s
  | .decode u => Sys2Proof.Machine.execDecode u s
  | .clrerr => Sys2Proof.Machine.execClrerr s

end Sys2Proof.Machine
end

