-- ==== Sys2Proof/Machine/Port.lean ====
section
/-! DEFINITION. The host port (20_memory.md rules R61 to R63), the decoding and execution of a CMD write (30_encoding.md
rule R95), and what one transaction does. -/

namespace Sys2Proof.Machine

/-- A host write of the word `w` to CMD (rule R95): while a fault is pending only the word of CLRERR is executed and any
other is ignored undecoded; otherwise the word is decoded, an illegal one is the fault ILLEGAL_CMD with EINFO the word, and
a command executes. -/
def State.runCommand (s : State) (w : Word) : Host.Outcome State Fault Refusal :=
  if s.faultPending then
    if w = 0x0000000F then exec .clrerr s else .next s
  else
    match decode w with
    | .error _ => s.takeFault .illegalCmd w
    | .ok i    => exec i s

/-- `RegWrite(n, v)` (rule R62): register 0 is CMD. -/
def State.regWrite (s : State) (n : Fin 16) (v : Word) : Host.Outcome State Fault Refusal :=
  if n.val = 0 then s.runCommand v else .next (s.regStore n v)

/-- `BufRead(S, i)` (rule R63): the byte, or the error response at an index at or above NBUF. -/
def State.bufRead (s : State) (b : Buf) (i : Nat) : State :=
  if i < s.cfg.nbuf then s.answer (.byte (s.readByte b i)) else s.answer .error

/-- `BufWrite(S, i, v)` (rule R63): "sets `S[i] <- b` and changes nothing else", or the error response. -/
def State.bufWrite (s : State) (b : Buf) (i : Nat) (v : Byte) : State :=
  if i < s.cfg.nbuf then (s.writeByte b i v).answer .done else s.answer .error

/-- One transaction, atomic and complete before the next begins (rules R61, R70), or the reset event between two
transactions (rule R260). -/
def State.serve (s : State) : Txn → Host.Outcome State Fault Refusal
  | .regRead n      => .next (s.answer (.word (s.regRead n)))
  | .regWrite n v   => (s.answer .done).regWrite n v
  | .bufRead b i    => .next (s.bufRead b i)
  | .bufWrite b i v => .next (s.bufWrite b i v)
  | .reset          => .next s.resetEvent

/-- The block serves the oldest transaction that waits at the port; "The block never acts on its own: between two host
transactions the state does not change" (rule R12; log entry 8). -/
def State.serveNext (s : State) : Host.Outcome State Fault Refusal :=
  match s.pending with
  | []      => .next s
  | t :: ts => (s.waiting ts).serve t

/-- The host writes the word of `nbits` bits `w` to CMD as its next transaction (log entry 6). -/
def State.issueCommand (s : State) (nbits w : Nat) : State :=
  s.waiting (.regWrite 0 (BitVec.ofNat 32 (w % 2 ^ nbits)) :: s.pending)

end Sys2Proof.Machine
end

