-- ==== Sys2Proof/Machine/Step.lean ====
section
/-! DEFINITION. One step of the machine: one transaction of the host (00_scope.md rules R5, R12). -/

namespace Sys2Proof.Machine

/-- One step: the oldest waiting transaction is served. -/
def step (s : State) : Host.Outcome State Fault Refusal := s.serveNext

/-- The state whose very next step executes the command word `w`: a `RegWrite(0, w)` is put at the head of the waiting
transactions. The block fetches no instructions (rule R36); the host's write to CMD is how a command comes to run. -/
def State.withFetchWord (s : State) (nbits w : Nat) : State := s.issueCommand nbits w

end Sys2Proof.Machine
end

