-- ==== Sys2Proof/Safety.lean ====
section
/-! DEFINITION. The terms the statements use: the state a fault leaves, what a range of a buffer holds, the bit-by-bit
forms of the datapath, the predicate `Valid` and the valid-character length as properties, the frames, the table of rule
R40, and the invariant of the machine. None of them is used by the machine. -/

namespace Sys2Proof.Machine

/-! ### Fault entry (60_exceptions.md rules R220, R221) -/

/-- The state before a command, with STATUS.ERR = `code` and EINFO = `info` and nothing else changed. -/
def State.afterFault (s : State) (code : BitVec 4) (info : Word) : State :=
  { s with status := { s.status with err := code }, einfo := info }

/-- The command `i` ends at `s` as the fault with number `code` and information word `info`. -/
def Raises (i : Instr) (s : State) (code : BitVec 4) (info : Word) : Prop := exec i s = .next (s.afterFault code info)

/-- The state left when the block has taken the oldest waiting transaction from the port and answered it with `r`, and
nothing else has changed. -/
def State.served (s : State) (rest : List Txn) (r : Reply) : State := { s with pending := rest, reply := r }

/-! ### Bytes of a buffer (00_scope.md rule R9) -/

/-- The bytes of buffer `b` from index `i` up are `vs`, lowest index first. -/
def Holds (s : State) (b : Buf) (i : Nat) (vs : List Byte) : Prop := ∀ k v, vs[k]? = some v → s.readByte b (i + k) = v

/-- Every byte of buffer `b` outside the `n` bytes from index `i` up reads as before. -/
def SameOutside (s t : State) (b : Buf) (i n : Nat) : Prop := ∀ a, a < i ∨ i + n ≤ a → t.readByte b a = s.readByte b a

/-- Every byte of buffer `b` reads as before. -/
def SameBytes (s t : State) (b : Buf) : Prop := ∀ a, t.readByte b a = s.readByte b a

/-! ### The datapath bit by bit (rules R140 to R142, R185 to R187) -/

/-- `s0 = b0[7:2]`, `s1 = b0[1:0] ++ b1[7:4]`, `s2 = b1[3:0] ++ b2[7:6]`, `s3 = b2[5:0]`. -/
def slices3 (b0 b1 b2 : Byte) : List Symbol :=
  [b0.extractLsb' 2 6, b0.extractLsb' 0 2 ++ b1.extractLsb' 4 4, b1.extractLsb' 0 4 ++ b2.extractLsb' 6 2,
   b2.extractLsb' 0 6]

/-- `s0 = b0[7:2]`, `s1 = b0[1:0] ++ b1[7:4]`, `s2 = b1[3:0] ++ 00`. -/
def slices2 (b0 b1 : Byte) : List Symbol :=
  [b0.extractLsb' 2 6, b0.extractLsb' 0 2 ++ b1.extractLsb' 4 4, b1.extractLsb' 0 4 ++ (0 : BitVec 2)]

/-- `s0 = b[7:2]`, `s1 = b[1:0] ++ 0000`. -/
def slices1 (b : Byte) : List Symbol := [b.extractLsb' 2 6, b.extractLsb' 0 2 ++ (0 : BitVec 4)]

/-- `b0 = r0 ++ r1[5:4]`, `b1 = r1[3:0] ++ r2[5:2]`, `b2 = r2[1:0] ++ r3`. -/
def join4 (r0 r1 r2 r3 : Symbol) : List Byte :=
  [r0 ++ r1.extractLsb' 4 2, r1.extractLsb' 0 4 ++ r2.extractLsb' 2 4, r2.extractLsb' 0 2 ++ r3]

/-- `b0 = r0 ++ r1[5:4]`, `b1 = r1[3:0] ++ r2[5:2]`. -/
def join3 (r0 r1 r2 : Symbol) : List Byte := [r0 ++ r1.extractLsb' 4 2, r1.extractLsb' 0 4 ++ r2.extractLsb' 2 4]

/-- `b0 = r0 ++ r1[5:4]`. -/
def join2 (r0 r1 : Symbol) : List Byte := [r0 ++ r1.extractLsb' 4 2]

/-- The characters of a list of symbols in alphabet `u`, followed by `n` padding characters if the alphabet is the
standard one (rules R143 to R145). -/
def spell (u : Alphabet) (ss : List Symbol) (n : Nat) : List Byte :=
  ss.map (fun i => fwdu i u) ++ (if u = .standard then List.replicate n 0x3D else [])

/-- `SYM` of the character at index `i` of IBUF, as the value of its REV entry. -/
def State.symAt (s : State) (i : Nat) : Symbol := (rev (s.readByte .ibuf i)).val

/-- The character at index `i` of IBUF has a reverse entry. -/
def State.hitAt (s : State) (i : Nat) : Prop := (rev (s.readByte .ibuf i)).hit = true

/-- Index `i + j` holds the first character of IBUF from `i` up without a reverse entry. -/
def State.firstBadAt (s : State) (i j : Nat) : Prop := (∀ k, k < j → s.hitAt (i + k)) ∧ ¬ s.hitAt (i + j)

/-! ### Validity and the four numbers, as properties (rules R160, R171 to R175) -/

/-- `Valid(s)` of rule R160 without the words of its computation: with the whitespace taken out, the input is a run `r` of
characters of the permitted sets followed by at most two `=`. -/
def ValidInput (cfg : Config) (bs : List Byte) : Prop :=
  ∃ (r : List Byte) (k : Nat), k ≤ 2 ∧
    bs.filter (fun c => decide (cls cfg c ≠ .ws)) = r ++ List.replicate k 0x3D ∧
    if cfg.mixedOk = true then ∀ c ∈ r, cls cfg c = .alnum ∨ cls cfg c = .std ∨ cls cfg c = .url
    else (∀ c ∈ r, cls cfg c = .alnum ∨ cls cfg c = .std) ∨ (∀ c ∈ r, cls cfg c = .alnum ∨ cls cfg c = .url)

/-- The bytes `IBUF[0..ILEN)`, lowest index first. -/
def State.inputBytes (s : State) : List Byte := (List.range s.ilen.toNat).map (fun i => s.readByte .ibuf i)

/-- `IN(i)` of rule R73. -/
def State.viewIn (s : State) (i : Nat) : Byte := if i < s.ilen.toNat then s.readByte .ibuf i else 0x3D

/-- `FILLv` (rule R171). -/
def State.fillCount (s : State) : Nat := (4 - s.ilen.toNat % 4) % 4

/-- `L = n + FILLv` (rule R171). -/
def State.paddedLen (s : State) : Nat := s.ilen.toNat + s.fillCount

/-- `v` is `VLENv` (rule R172): the least `i < L` with `IN(i) = '='`, and `L` when there is none. -/
def IsVlen (s : State) (v : Nat) : Prop :=
  v ≤ s.paddedLen ∧ (∀ i, i < v → s.viewIn i ≠ 0x3D) ∧ (v < s.paddedLen → s.viewIn v = 0x3D)

/-- The registers FILL, VLEN, PLEN, BLEN and the flags of `t` are those of the input of `s`, whose valid-character length is
`v` (rules R171 to R176). -/
structure InfoOf (s t : State) (v : Nat) : Prop where
  fill : t.fill.toNat = s.fillCount
  vlen : t.vlen.toNat = v
  plen : t.plen.toNat = s.paddedLen - v
  blen : t.blen.toNat = if s.paddedLen - v ≤ 2 then s.paddedLen * 3 / 4 - (s.paddedLen - v) else 0
  flagV : t.status.v = true
  plok : t.status.plok = true ↔ s.paddedLen - v ≤ 2
  hstd : t.status.hstd = true ↔ ∃ i, i < s.ilen.toNat ∧ cls s.cfg (s.readByte .ibuf i) = .std
  hurl : t.status.hurl = true ↔ ∃ i, i < s.ilen.toNat ∧ cls s.cfg (s.readByte .ibuf i) = .url

/-- The padding length of rule R173's table: `m` alphabet characters followed by `k` characters `=`. -/
def paddingTable (m k : Nat) : Nat :=
  match m % 4 with
  | 0 => if k = 0 then 0 else 4
  | 1 => 3
  | 2 => 2
  | _ => if k = 2 then 5 else 1

/-- A URL-only character becomes the standard-only character with the same reverse value (rule R192). -/
def toStandard (c : Byte) : Byte := if c = 0x2D then 0x2B else if c = 0x5F then 0x2F else c

/-- `+` becomes `-` and `/` becomes `_` (rule R149). -/
def toUrlSafe (c : Byte) : Byte := if c = 0x2B then 0x2D else if c = 0x2F then 0x5F else c

/-! ### Frames -/

/-- What a command that writes OBUF and the two cursors, and nothing else, leaves unchanged (rules R40, R143 to R146, R188
to R190). Which bytes of OBUF change is said beside it, by `SameOutside`. -/
structure OnlyOutput (s t : State) : Prop where
  status  : t.status = s.status
  einfo   : t.einfo = s.einfo
  ilen    : t.ilen = s.ilen
  res     : t.res = s.res
  fill    : t.fill = s.fill
  vlen    : t.vlen = s.vlen
  plen    : t.plen = s.plen
  blen    : t.blen = s.blen
  ibuf    : SameBytes s t .ibuf
  cfg     : t.cfg = s.cfg
  resets  : t.resets = s.resets
  pending : t.pending = s.pending
  reply   : t.reply = s.reply

/-- What INFO leaves unchanged when it ends without a fault: everything but FILL, VLEN, PLEN, BLEN and the four flags
(rules R40, R176). -/
structure OnlyInfo (s t : State) : Prop where
  err     : t.status.err = s.status.err
  einfo   : t.einfo = s.einfo
  ilen    : t.ilen = s.ilen
  iptr    : t.iptr = s.iptr
  optr    : t.optr = s.optr
  res     : t.res = s.res
  ibuf    : SameBytes s t .ibuf
  obuf    : SameBytes s t .obuf
  cfg     : t.cfg = s.cfg
  resets  : t.resets = s.resets
  pending : t.pending = s.pending
  reply   : t.reply = s.reply

/-- What DECODE leaves unchanged when it ends without a fault, beside the bytes of OBUF above its output (rules R40,
R191). -/
structure OnlyDecode (s t : State) : Prop where
  err     : t.status.err = s.status.err
  einfo   : t.einfo = s.einfo
  ilen    : t.ilen = s.ilen
  res     : t.res = s.res
  ibuf    : SameBytes s t .ibuf
  cfg     : t.cfg = s.cfg
  resets  : t.resets = s.resets
  pending : t.pending = s.pending
  reply   : t.reply = s.reply

end Sys2Proof.Machine

namespace Sys2Proof

/-! ### What a command reads and writes (rule R40) -/

/-- The columns of rule R40 that a command can write. -/
inductive Column where
  | obuf
  | cursors
  | res
  | numbers
  | flagV
  | flags
deriving DecidableEq, Repr

/-- The W entries of rule R40, row by row. -/
def Instr.writes : Instr → List Column
  | .nop      => []
  | .lutf _ _ => [.res]
  | .lutr _   => [.res]
  | .cls _    => [.res]
  | .enc3 _   => [.obuf, .cursors]
  | .enc2 _   => [.obuf, .cursors]
  | .enc1 _   => [.obuf, .cursors]
  | .dec4     => [.obuf, .cursors]
  | .dec3     => [.obuf, .cursors]
  | .dec2     => [.obuf, .cursors]
  | .valid    => [.flagV]
  | .info     => [.numbers, .flagV, .flags]
  | .encode _ => [.obuf, .cursors]
  | .decode _ => [.obuf, .cursors, .numbers, .flagV, .flags]
  | .clrerr   => []

/-- How many bytes at IPTR a group command consumes (rule R28); `none` for every other command. -/
def Instr.consumes : Instr → Option Nat
  | .enc3 _   => some 3
  | .enc2 _   => some 2
  | .enc1 _   => some 1
  | .dec4     => some 4
  | .dec3     => some 3
  | .dec2     => some 2
  | .nop      => none
  | .lutf _ _ => none
  | .lutr _   => none
  | .cls _    => none
  | .valid    => none
  | .info     => none
  | .encode _ => none
  | .decode _ => none
  | .clrerr   => none

/-- How many bytes at OPTR a group command produces (rule R29); `none` for every other command. -/
def Instr.produces : Instr → Option Nat
  | .enc3 _         => some 4
  | .enc2 .standard => some 4
  | .enc2 .urlSafe  => some 3
  | .enc1 .standard => some 4
  | .enc1 .urlSafe  => some 2
  | .dec4           => some 3
  | .dec3           => some 2
  | .dec2           => some 1
  | .nop            => none
  | .lutf _ _       => none
  | .lutr _         => none
  | .cls _          => none
  | .valid          => none
  | .info           => none
  | .encode _       => none
  | .decode _       => none
  | .clrerr         => none

/-- The commands that read the whole input `IBUF[0..ILEN)` (rules R40, R220). -/
def Instr.readsInput : Instr → Bool
  | .valid    => true
  | .info     => true
  | .encode _ => true
  | .decode _ => true
  | .nop      => false
  | .lutf _ _ => false
  | .lutr _   => false
  | .cls _    => false
  | .enc3 _   => false
  | .enc2 _   => false
  | .enc1 _   => false
  | .dec4     => false
  | .dec3     => false
  | .dec2     => false
  | .clrerr   => false

end Sys2Proof

namespace Sys2Proof.Machine

/-- The causes of rule R220: which command can raise which code, with which information word, and what must hold of the
operands. Code 1 is raised by decoding, before a command runs. -/
inductive CauseOf (i : Instr) (s : State) : BitVec 4 → Word → Prop where
  /-- BOUNDS, input side: `ILEN > NBUF`, or the cursor of a group command passes ILEN. -/
  | inputSide (n : Nat) (hn : i.consumes = some n) (h : s.cfg.nbuf < s.ilen.toNat ∨ s.ilen.toNat < s.iptr.toNat + n) :
      CauseOf i s 2 0
  /-- BOUNDS, input side, of a command that works on the whole input. -/
  | wholeInput (hi : i.readsInput = true) (h : s.cfg.nbuf < s.ilen.toNat) : CauseOf i s 2 0
  /-- BOUNDS, output side, of a group command that produces `m` bytes: `OPTR + m > NBUF`. -/
  | outputSide (m : Nat) (hm : i.produces = some m) (h : s.cfg.nbuf < s.optr.toNat + m) : CauseOf i s 2 1
  /-- BOUNDS, output side, of ENCODE: its output length is above NBUF. -/
  | wholeOutput (u : Alphabet) (hi : i = .encode u) (h : s.cfg.nbuf < encodeLen u s.ilen.toNat) : CauseOf i s 2 1
  /-- INVALID_INPUT: INFO and DECODE on an input that is not valid. -/
  | invalid (hi : Column.numbers ∈ i.writes) (h : ¬ ValidInput s.cfg s.inputBytes) : CauseOf i s 3 0
  /-- PADLEN: DECODE on a valid input whose padding length is above 2; EINFO is the padding length. -/
  | padlen (u : Alphabet) (v : Nat) (hi : i = .decode u) (hv : IsVlen s v) (h : 2 < s.paddedLen - v) :
      CauseOf i s 4 (BitVec.ofNat 32 (s.paddedLen - v))
  /-- BADCHAR: a decoding command; EINFO is the index below ILEN of a character without a reverse entry. -/
  | badchar (k : Nat) (hi : i = .dec4 ∨ i = .dec3 ∨ i = .dec2 ∨ ∃ u, i = .decode u) (hk : k < s.ilen.toNat)
      (h : ¬ s.hitAt k) : CauseOf i s 5 (BitVec.ofNat 32 k)

/-- The two states give a command the same operands (90_conflicts.md C8, rule R25): the parameters, ILEN, the cursors and
the bytes `IBUF[0..ILEN)`. OBUF, the bytes of IBUF at and above ILEN, the result registers and the flags may differ. -/
structure SameOperands (s s' : State) : Prop where
  cfg  : s'.cfg = s.cfg
  ilen : s'.ilen = s.ilen
  iptr : s'.iptr = s.iptr
  optr : s'.optr = s.optr
  ibuf : ∀ i, i < s.ilen.toNat → s'.readByte .ibuf i = s.readByte .ibuf i

/-! ### Runs of commands -/

/-- The commands of a list executed one after another, as the host would write them with no fault pending. -/
def runCommands : List Instr → State → Host.Outcome State Fault Refusal
  | [], s => .next s
  | i :: is, s =>
    match exec i s with
    | .next t    => runCommands is t
    | .fault r   => .fault r
    | .refused r => .refused r

/-- The tail command of rule R146's sequence: ENC1, ENC2 or nothing for 1, 2 or 0 bytes left. -/
def tailCommand (u : Alphabet) (r : Nat) : List Instr :=
  match r with
  | 1 => [.enc1 u]
  | 2 => [.enc2 u]
  | _ => []

/-! ### Illegal words (rule R94) -/

/-- The conditions of rule R94, on the bits of the word. -/
def IllegalWord (w : Word) : Prop :=
  let op := (w.extractLsb' 0 4).toNat
  let u := (w.extractLsb' 4 1).toNat
  let imm := (w.extractLsb' 8 8).toNat
  op = 0xE ∨ (w.extractLsb' 5 3).toNat ≠ 0 ∨ (w.extractLsb' 16 16).toNat ≠ 0 ∨
  (u = 1 ∧ op ∈ [0x0, 0x7, 0x8, 0x9, 0xA, 0xB, 0xF, 0x2, 0x3]) ∨
  (imm ≠ 0 ∧ op ∈ [0x0, 0x7, 0x8, 0x9, 0xA, 0xB, 0xF, 0x4, 0x5, 0x6, 0xC, 0xD]) ∨
  (64 ≤ imm ∧ op = 0x1)

/-! ### The invariant of the machine -/

/-- What EINFO may hold beside each fault code (rules R34, R220): 0 with no fault; an illegal word; 0 or 1; 0; a padding
length above 2; an index of IBUF. No other code occurs. -/
def FaultRecord (s : State) : Prop :=
  match s.status.err.toNat with
  | 0 => s.einfo = 0
  | 1 => IllegalWord s.einfo
  | 2 => s.einfo = 0 ∨ s.einfo = 1
  | 3 => s.einfo = 0
  | 4 => 2 < s.einfo.toNat
  | 5 => s.einfo.toNat < s.cfg.nbuf
  | _ => False

/-- The invariant every step keeps: the parameters are legal (rule R4); both buffers are in canonical form and hold nothing
at or above NBUF (rule R25); the fault record is legal (rule R220); FILL is 0..3 and VLEN + PLEN a multiple of 4 (rules
R171, R173); PLOK is 1 only with a padding length of at most 2, and BLEN is 0 when PLOK is 0 (rules R26, R174, R175). -/
structure Inv (s : State) : Prop where
  params     : s.cfg.wf = true
  ibufWf     : Memory.wf s.ibuf = true
  obufWf     : Memory.wf s.obuf = true
  ibufBelow  : Memory.below s.cfg.nbuf s.ibuf = true
  obufBelow  : Memory.below s.cfg.nbuf s.obuf = true
  record     : FaultRecord s
  fillRange  : s.fill.toNat < 4
  whole      : (s.vlen.toNat + s.plen.toNat) % 4 = 0
  plokRange  : s.status.plok = true → s.plen.toNat ≤ 2
  blenZero   : s.status.plok = false → s.blen = 0

end Sys2Proof.Machine
end

