-- ==== Sys2Proof/Certificates/Slice0/Obligations.lean ====
section
/-! DEFINITION. The statements about the model, one `def Obligations.<Name> : Prop` each. They are stated on a state's
registers and on single bytes of its buffers, in the bit-by-bit forms of Safety.lean, not in the words of the meanings.
Premises: `s.cfg.wf = true` says that the parameters are the ones rule R4 allows; it is part of `Inv`, which every step
keeps (`InvariantKept`) and reset has (`InvariantAtReset`). NBUF, MIXED_OK, WS_SET and the unspecified buffer bytes are
universally quantified or free everywhere. -/

open Sys2Proof Sys2Proof.Machine

/-! ### Encoding (30_encoding.md) -/

/-- Rules R92, R96: words written out from the spec's encoding, at least one for each family, are the commands they spell,
and some illegal words are none. -/
def Obligations.SampleWordsDecode : Prop :=
  decode 0x00000000 = .ok .nop ∧ decode 0x00001301 = .ok (.lutf .standard 19) ∧
  decode 0x00003E11 = .ok (.lutf .urlSafe 62) ∧ decode 0x00005402 = .ok (.lutr 0x54) ∧
  decode 0x00002D03 = .ok (.cls 0x2D) ∧ decode 0x00000004 = .ok (.enc3 .standard) ∧
  decode 0x00000015 = .ok (.enc2 .urlSafe) ∧ decode 0x00000007 = .ok .dec4 ∧ decode 0x0000000A = .ok .valid ∧
  decode 0x0000000B = .ok .info ∧ decode 0x0000001C = .ok (.encode .urlSafe) ∧
  decode 0x0000000D = .ok (.decode .standard) ∧ decode 0x0000000F = .ok .clrerr ∧
  decode 0x0000000E = .error .reservedOpcode ∧ decode 0x0000001F = .error .uNotZero ∧
  decode 0x00004001 = .error .immHighNotZero

/-- Decoding the word of a well-formed command gives the command back, with every operand at every value. -/
def Obligations.DecodeOfEncode : Prop := ∀ i : Instr, i.wellFormed = true → decode (encode i) = .ok i

/-- A word the decoder accepts is the word of the well-formed command it decodes to: no bit of a legal word is ignored. -/
def Obligations.EncodeOfDecode : Prop :=
  ∀ (w : Word) (i : Instr), decode w = .ok i → i.wellFormed = true ∧ encode i = w

/-- Rule R92: a word spells the command exactly when `w & mask = match`, and no two rows match the same word. -/
def Obligations.OpcodeMapMatchesDecoder : Prop :=
  ∀ w : Word,
    (∀ i, decode w = .ok i → opcodeMap.filter (fun r => r.spells w) = [i.row]) ∧
    (∀ e, decode w = .error e → opcodeMap.filter (fun r => r.spells w) = [])

/-- Rule R94: the six conditions that make a word illegal, the same as matching no row, and the fault ILLEGAL_CMD with EINFO
the word when it is written to CMD with no fault pending. -/
def Obligations.IllegalWordsFault : Prop :=
  ∀ w : Word,
    (IllegalWord w ↔ ∀ r ∈ opcodeMap, w &&& r.mask ≠ r.pattern) ∧
    (IllegalWord w ↔ ∀ i, decode w ≠ .ok i) ∧
    (IllegalWord w → ∀ (s : State) (rest : List Txn), s.pending = .regWrite 0 w :: rest → s.status.err = 0 →
      step s = .next ((s.served rest .done).afterFault 1 w))

/-! ### The port and the step (20_memory.md, 30_encoding.md rule R95, 60_exceptions.md rule R222) -/

/-- Rule R95, steps 2 and 3: when the word the host writes to CMD decodes to a command and no fault is pending, the step is
`exec` of that command, at the state in which the port has taken the transaction and answered it. -/
def Obligations.StepRunsDecodedCommand : Prop :=
  ∀ (s : State) (w : Word) (rest : List Txn) (i : Instr), s.pending = .regWrite 0 w :: rest → s.status.err = 0 →
    decode w = .ok i → step s = exec i (s.served rest .done)

/-- Rule R222: while a fault is pending a word other than CLRERR's is ignored, decoded or not; CLRERR's is executed; and the
other transactions work as they do with no fault pending. -/
def Obligations.PendingFaultIgnoresCommands : Prop :=
  ∀ (s : State) (rest : List Txn), s.status.err ≠ 0 →
    (∀ w, s.pending = .regWrite 0 w :: rest → w ≠ 0x0000000F → step s = .next (s.served rest .done)) ∧
    (s.pending = .regWrite 0 0x0000000F :: rest → step s = .next ((s.served rest .done).afterFault 0 0)) ∧
    (∀ (x : Txn) (t : State), s.pending = x :: rest →
      (∃ n, x = .regRead n ∧ n ≠ 1 ∧ n ≠ 2) ∨ (∃ n v, x = .regWrite n v ∧ n ≠ 0) ∨ (∃ b i, x = .bufRead b i) ∨
        (∃ b i v, x = .bufWrite b i v) →
      step s = .next t → step (s.afterFault 0 0) = .next (t.afterFault 0 0))

/-- Rule R62: what RegRead returns, and what RegWrite does, for every register number and whatever STATUS.ERR holds. -/
def Obligations.RegisterTransactions : Prop :=
  ∀ (s : State) (rest : List Txn),
    (∀ n, s.pending = .regRead n :: rest → ∃ w, step s = .next (s.served rest (.word w)) ∧
      (n = 1 → w = s.status.word) ∧ (n = 2 → w = s.einfo) ∧ (n = 3 → w = s.ilen) ∧ (n = 4 → w = s.iptr) ∧
      (n = 5 → w = s.optr) ∧ (n = 6 → w = s.res) ∧ (n = 7 → w = s.fill) ∧ (n = 8 → w = s.vlen) ∧
      (n = 9 → w = s.plen) ∧ (n = 10 → w = s.blen) ∧ (n = 0 ∨ 11 ≤ n → w = 0)) ∧
    (∀ n v, s.pending = .regWrite n v :: rest →
      (n = 0 → step s = (s.served rest .done).runCommand v) ∧
      (n = 3 → step s = .next { s.served rest .done with ilen := v }) ∧
      (n = 4 → step s = .next { s.served rest .done with iptr := v }) ∧
      (n = 5 → step s = .next { s.served rest .done with optr := v }) ∧
      (n = 1 ∨ n = 2 ∨ 6 ≤ n → step s = .next (s.served rest .done)))

/-- Rule R33, the layout of STATUS: ERR in bits 3:0, V, PLOK, HSTD, HURL in bits 4 to 7, and bits 31:8 read 0. -/
def Obligations.StatusWordLayout : Prop :=
  ∀ t : Status, t.word.extractLsb' 0 4 = t.err ∧ t.word.getLsbD 4 = t.v ∧ t.word.getLsbD 5 = t.plok ∧
    t.word.getLsbD 6 = t.hstd ∧ t.word.getLsbD 7 = t.hurl ∧ t.word.extractLsb' 8 24 = 0

/-- Rule R63: buffer transactions below NBUF, and the refusal at and above it, whatever STATUS.ERR holds. -/
def Obligations.BufferTransactions : Prop :=
  ∀ (s : State) (rest : List Txn) (b : Buf) (i : Nat),
    (s.pending = .bufRead b i :: rest → i < s.cfg.nbuf → step s = .next (s.served rest (.byte (s.readByte b i)))) ∧
    (s.pending = .bufRead b i :: rest → s.cfg.nbuf ≤ i → step s = .next (s.served rest .error)) ∧
    (∀ v, s.pending = .bufWrite b i v :: rest → i < s.cfg.nbuf → ∃ t, step s = .next t ∧ t.readByte b i = v ∧
      (∀ b' j, b' ≠ b ∨ j ≠ i → t.readByte b' j = s.readByte b' j) ∧ (∀ n, t.regRead n = s.regRead n) ∧
      t.cfg = s.cfg ∧ t.resets = s.resets ∧ t.pending = rest ∧ t.reply = .done) ∧
    (∀ v, s.pending = .bufWrite b i v :: rest → s.cfg.nbuf ≤ i → step s = .next (s.served rest .error))

/-- Rule R12: "The block never acts on its own: between two host transactions the state does not change". That a step with
nothing waiting is a step at all is the model's choice (log entry 8). -/
def Obligations.IdleBlockDoesNotAct : Prop := ∀ s : State, s.pending = [] → step s = .next s

/-- Rules R38, R260: after the reset event every register reads 0, `fault_o` is low, and every buffer byte is unspecified
anew, whatever fault was pending and whatever the buffers held. The form of the free value, and that the waiting
transactions stay, are the model's choice (log entries 4 and 9). -/
def Obligations.ResetEventClearsRegisters : Prop :=
  ∀ (s : State) (rest : List Txn), s.pending = .reset :: rest → ∃ t, step s = .next t ∧
    (∀ n, t.regRead n = 0) ∧ t.status.err = 0 ∧ t.faultLine = false ∧
    (∀ b i, t.readByte b i = Config.resetByte (s.resets + 1) b i) ∧ t.cfg = s.cfg ∧ t.pending = rest

/-- Rule R261: the reset value of every piece of state, for every choice of the parameters. -/
def Obligations.ResetValues : Prop :=
  ∀ c : Config,
    let s := State.resetOf c
    s.status = { err := 0, v := false, plok := false, hstd := false, hurl := false } ∧ s.einfo = 0 ∧ s.ilen = 0 ∧
    s.iptr = 0 ∧ s.optr = 0 ∧ s.res = 0 ∧ s.fill = 0 ∧ s.vlen = 0 ∧ s.plen = 0 ∧ s.blen = 0 ∧
    (∀ n, s.regRead n = 0) ∧ s.faultLine = false ∧ ∀ b i, s.readByte b i = Config.resetByte s.resets b i

/-- Rules R212, R265: every command terminates, so every state has a next state. Rule R229 says that the block is never stuck,
and lists a refused buffer transaction as an outcome of its own, one that changes no state; that it is a next state here is
the model's choice (log entry 7), and so is that a state with nothing waiting has a next state at all (log entry 8). -/
def Obligations.StepAlwaysHasNextState : Prop := ∀ s : State, ∃ t, step s = .next t

/-- Rules R224, R225: `fault_o` is high exactly while ERR is not 0; only a CMD write raises it, only CLRERR and reset lower
it, and while it stays high ERR and EINFO keep the first fault. -/
def Obligations.FaultLineFollowsErr : Prop :=
  ∀ s t : State, step s = .next t →
    (t.faultLine = true ↔ t.status.err ≠ 0) ∧
    (s.faultLine = false → t.faultLine = true → ∃ w rest, s.pending = .regWrite 0 w :: rest) ∧
    (s.faultLine = true → t.faultLine = false →
      ∃ rest, s.pending = .regWrite 0 0x0000000F :: rest ∨ s.pending = .reset :: rest) ∧
    (s.faultLine = true → t.faultLine = true → t.status.err = s.status.err ∧ t.einfo = s.einfo)

/-! ### The ROMs (10_state.md rules R21 to R24, 40_table.md rules R120, R121) -/

/-- Rule R21: the forward table as one string, index 0 first. 51 of its entries rest on general knowledge
(93_implementation_defined.md K1, K2). -/
def Obligations.ForwardTableIsAlphabet : Prop :=
  ∀ i : Symbol,
    "ABCDEFGHIJKLMNOPQRSTUVWXYZabcdefghijklmnopqrstuvwxyz0123456789+/".toList[i.toNat]?.map Char.toNat =
      some (fwd i).toNat

/-- The entries of the reverse table, and no others, as rule R22 prints them. 51 of FWD's entries and the ASCII codes are
PRESUMED by the spec itself (93_implementation_defined.md K1, K2; log entry 2). -/
def Obligations.ReverseTableEntries : Prop :=
  (∀ i : Symbol, rev (fwd i) = ⟨true, i⟩) ∧ rev 0x2D = ⟨true, 62⟩ ∧ rev 0x5F = ⟨true, 63⟩ ∧
  (∀ c : Byte, (rev c).hit = true → (∃ i, c = fwd i) ∨ c = 0x2D ∨ c = 0x5F) ∧
  (∀ c : Byte, (rev c).hit = false → (rev c).val = 0) ∧
  ((List.range 256).countP (fun n => (rev (BitVec.ofNat 8 n)).hit)) = 66

/-- The code and the members of each class as rule R23 prints them, for every legal WS_SET, the 64 characters of each of the
two sets, and rule R11's class of 0x80..0xFF. The ASCII codes are PRESUMED by the spec itself (93_implementation_defined.md
K2; log entry 2); that a legal WS_SET holds no code 0x80..0xFF is DEDUCED (log entry 17). -/
def Obligations.ClassRomMembers : Prop :=
  [CharClass.other, .alnum, .std, .url, .pad, .ws].map (fun k => k.code.toNat) = [0, 1, 2, 3, 4, 5] ∧
  ∀ cfg : Config, cfg.wf = true →
    (List.range 256).countP (fun n => decide (cls cfg (BitVec.ofNat 8 n) = .alnum ∨ cls cfg (BitVec.ofNat 8 n) = .std)) = 64 ∧
    (List.range 256).countP (fun n => decide (cls cfg (BitVec.ofNat 8 n) = .alnum ∨ cls cfg (BitVec.ofNat 8 n) = .url)) = 64 ∧
    ∀ c : Byte,
    (cls cfg c = .std ↔ c = 0x2B ∨ c = 0x2F) ∧ (cls cfg c = .url ↔ c = 0x2D ∨ c = 0x5F) ∧
    (cls cfg c = .pad ↔ c = 0x3D) ∧ (cls cfg c = .ws ↔ c ∈ cfg.wsSet) ∧
    (cls cfg c = .alnum ↔ (0x41 ≤ c ∧ c ≤ 0x5A) ∨ (0x61 ≤ c ∧ c ≤ 0x7A) ∨ (0x30 ≤ c ∧ c ≤ 0x39)) ∧
    (cls cfg c = .other ↔ (rev c).hit = false ∧ c ≠ 0x3D ∧ c ∉ cfg.wsSet) ∧ (0x80 ≤ c → cls cfg c = .other) ∧
    ((rev c).hit = true ↔ cls cfg c = .alnum ∨ cls cfg c = .std ∨ cls cfg c = .url)

/-- Rule R24: the ROM laws (a) to (d), and (e): no step changes a ROM (FWD and REV do not depend on the state at all, CLS
depends on the parameters, which no step changes). -/
def Obligations.RomLaws : Prop :=
  (∀ i : Symbol, (rev (fwd i)).val = i ∧ (rev (fwd i)).hit = true) ∧
  (∀ (cfg : Config) (c : Byte), cls cfg c = .alnum ∨ cls cfg c = .std → fwd (rev c).val = c) ∧
  (fwd (rev 0x2D).val = 0x2B ∧ fwd (rev 0x5F).val = 0x2F) ∧
  (∀ i j : Symbol, fwd i = fwd j → i = j) ∧
  (∀ s t : State, step s = .next t → t.cfg = s.cfg ∧ ∀ c, cls t.cfg c = cls s.cfg c)

/-- Rules R120, R121: the alphabet-selecting forward lookup, which is the substitution of the URL-safe characters after the
lookup, and the reverse lookup, which undoes it in either alphabet. -/
def Obligations.LookupFunctions : Prop :=
  (∀ i : Symbol, fwdu i .standard = fwd i) ∧ fwdu 62 .urlSafe = 0x2D ∧ fwdu 63 .urlSafe = 0x5F ∧
  (∀ i : Symbol, i ≠ 62 → i ≠ 63 → fwdu i .urlSafe = fwd i) ∧ (∀ i : Symbol, fwdu i .urlSafe = toUrlSafe (fwd i)) ∧
  (∀ c : Byte, sym c = if (rev c).hit = true then some (rev c).val else none) ∧
  sym 0x2B = some 62 ∧ sym 0x2D = some 62 ∧ sym 0x2F = some 63 ∧ sym 0x5F = some 63 ∧
  (∀ (i : Symbol) (u : Alphabet), sym (fwdu i u) = some i)

/-! ### The table family (40_table.md) -/

/-- Rule R122: LUTF leaves the character in RES[7:0], 0 in RES[31:8], and changes nothing else (every other register, and
every byte of both buffers, is that of `s`); a word with IMM[7:6] not 0 is no command. -/
def Obligations.LutfResult : Prop :=
  ∀ (u : Alphabet) (imm : Byte) (s : State),
    (imm.toNat < 64 → ∃ v : Word, exec (.lutf u imm) s = .next { s with res := v } ∧ v.extractLsb' 8 24 = 0 ∧
      v.extractLsb' 0 8 =
        if u = .urlSafe ∧ imm = 62 then 0x2D else if u = .urlSafe ∧ imm = 63 then 0x5F else fwd (BitVec.ofNat 6 imm.toNat)) ∧
    (64 ≤ imm.toNat → ∃ e, decode (encode (.lutf u imm)) = .error e)

/-- Rule R123: RES[8] is the HIT bit, RES[5:0] the symbol value, every other bit 0; nothing else changes. The word with
U = 1 is no command. -/
def Obligations.LutrResult : Prop :=
  ∀ (c : Byte) (s : State),
    (∃ v : Word, exec (.lutr c) s = .next { s with res := v } ∧ v.extractLsb' 0 6 = (rev c).val ∧
      v.extractLsb' 6 2 = 0 ∧ v.getLsbD 8 = (rev c).hit ∧ v.extractLsb' 9 23 = 0) ∧
    (∃ e, decode (encode (.lutr c) ||| 0x00000010) = .error e)

/-- Rule R124: RES is the number of the character's class, 0 OTHER, 1 ALNUM, 2 STD, 3 URL, 4 PAD, 5 WS, and 0 for every code
0x80..0xFF; nothing else changes. The word with U = 1 is no command. -/
def Obligations.ClsResult : Prop :=
  ∀ (c : Byte) (s : State),
    (∃ v : Word, exec (.cls c) s = .next { s with res := v } ∧
      (cls s.cfg c = .other → v = 0) ∧ (cls s.cfg c = .alnum → v = 1) ∧ (cls s.cfg c = .std → v = 2) ∧
      (cls s.cfg c = .url → v = 3) ∧ (cls s.cfg c = .pad → v = 4) ∧ (cls s.cfg c = .ws → v = 5) ∧
      (0x80 ≤ c → v = 0)) ∧
    (∃ e, decode (encode (.cls c) ||| 0x00000010) = .error e)

/-! ### The encode family (41_encode.md) -/

/-- Rule R140: PACK3 bit by bit, and that it is a bijection from byte triples to symbol quadruples. -/
def Obligations.Pack3Bits : Prop :=
  (∀ b0 b1 b2 : Byte, [(pack3 b0 b1 b2).1, (pack3 b0 b1 b2).2.1, (pack3 b0 b1 b2).2.2.1, (pack3 b0 b1 b2).2.2.2] =
    slices3 b0 b1 b2) ∧
  (∀ a b : Byte × Byte × Byte, pack3 a.1 a.2.1 a.2.2 = pack3 b.1 b.2.1 b.2.2 → a = b) ∧
  (∀ q : Symbol × Symbol × Symbol × Symbol, ∃ b0 b1 b2 : Byte, pack3 b0 b1 b2 = q)

/-- Rules R141, R142: PACK1 and PACK2 bit by bit, and their agreement with PACK3 on the symbols they share. -/
def Obligations.PackTailBits : Prop :=
  (∀ b : Byte, [(pack1 b).1, (pack1 b).2] = slices1 b ∧ (pack1 b).1 = (pack3 b 0 0).1 ∧
    (pack1 b).2 = (pack3 b 0 0).2.1) ∧
  (∀ b0 b1 : Byte, [(pack2 b0 b1).1, (pack2 b0 b1).2.1, (pack2 b0 b1).2.2] = slices2 b0 b1 ∧
    (pack2 b0 b1).1 = (pack3 b0 b1 0).1 ∧ (pack2 b0 b1).2.1 = (pack3 b0 b1 0).2.1 ∧
    (pack2 b0 b1).2.2 = (pack3 b0 b1 0).2.2.1)

/-- Rule R143: ENC3 at every state: the two BOUNDS faults, and the four characters, the cursors and the frame. The bytes
stored are the four from index OPTR up. -/
def Obligations.Enc3EncodesTriplet : Prop :=
  ∀ (u : Alphabet) (s : State), s.cfg.wf = true →
    (s.cfg.nbuf < s.ilen.toNat ∨ s.ilen.toNat < s.iptr.toNat + 3 → Raises (.enc3 u) s 2 0) ∧
    (s.ilen.toNat ≤ s.cfg.nbuf → s.iptr.toNat + 3 ≤ s.ilen.toNat → s.cfg.nbuf < s.optr.toNat + 4 →
      Raises (.enc3 u) s 2 1) ∧
    (s.ilen.toNat ≤ s.cfg.nbuf → s.iptr.toNat + 3 ≤ s.ilen.toNat → s.optr.toNat + 4 ≤ s.cfg.nbuf →
      ∃ t, exec (.enc3 u) s = .next t ∧
        Holds t .obuf s.optr.toNat (spell u (slices3 (s.readByte .ibuf s.iptr.toNat)
          (s.readByte .ibuf (s.iptr.toNat + 1)) (s.readByte .ibuf (s.iptr.toNat + 2))) 0) ∧
        SameOutside s t .obuf s.optr.toNat 4 ∧ t.iptr.toNat = s.iptr.toNat + 3 ∧ t.optr.toNat = s.optr.toNat + 4 ∧
        OnlyOutput s t)

/-- Rule R144: ENC2 at every state. It stores `m` bytes from index OPTR up, 4 in the standard alphabet (the last a `=`) and 3
in the URL-safe one. -/
def Obligations.Enc2EncodesPair : Prop :=
  ∀ (u : Alphabet) (s : State), s.cfg.wf = true →
    let m := if u = .standard then 4 else 3
    (s.cfg.nbuf < s.ilen.toNat ∨ s.ilen.toNat < s.iptr.toNat + 2 → Raises (.enc2 u) s 2 0) ∧
    (s.ilen.toNat ≤ s.cfg.nbuf → s.iptr.toNat + 2 ≤ s.ilen.toNat → s.cfg.nbuf < s.optr.toNat + m →
      Raises (.enc2 u) s 2 1) ∧
    (s.ilen.toNat ≤ s.cfg.nbuf → s.iptr.toNat + 2 ≤ s.ilen.toNat → s.optr.toNat + m ≤ s.cfg.nbuf →
      ∃ t, exec (.enc2 u) s = .next t ∧
        Holds t .obuf s.optr.toNat (spell u (slices2 (s.readByte .ibuf s.iptr.toNat)
          (s.readByte .ibuf (s.iptr.toNat + 1))) 1) ∧
        SameOutside s t .obuf s.optr.toNat m ∧ t.iptr.toNat = s.iptr.toNat + 2 ∧ t.optr.toNat = s.optr.toNat + m ∧
        OnlyOutput s t)

/-- Rule R145: ENC1 at every state. It stores `m` bytes from index OPTR up, 4 in the standard alphabet (the last two `=`) and
2 in the URL-safe one. -/
def Obligations.Enc1EncodesByte : Prop :=
  ∀ (u : Alphabet) (s : State), s.cfg.wf = true →
    let m := if u = .standard then 4 else 2
    (s.cfg.nbuf < s.ilen.toNat ∨ s.ilen.toNat < s.iptr.toNat + 1 → Raises (.enc1 u) s 2 0) ∧
    (s.ilen.toNat ≤ s.cfg.nbuf → s.iptr.toNat + 1 ≤ s.ilen.toNat → s.cfg.nbuf < s.optr.toNat + m →
      Raises (.enc1 u) s 2 1) ∧
    (s.ilen.toNat ≤ s.cfg.nbuf → s.iptr.toNat + 1 ≤ s.ilen.toNat → s.optr.toNat + m ≤ s.cfg.nbuf →
      ∃ t, exec (.enc1 u) s = .next t ∧
        Holds t .obuf s.optr.toNat (spell u (slices1 (s.readByte .ibuf s.iptr.toNat)) 2) ∧
        SameOutside s t .obuf s.optr.toNat m ∧ t.iptr.toNat = s.iptr.toNat + 1 ∧ t.optr.toNat = s.optr.toNat + m ∧
        OnlyOutput s t)

/-- Rule R146: ENCODE at every state, whatever the cursors: the two BOUNDS faults; else every full group, the tail, the
cursors and the frame. The bytes stored are the `m` from index 0 up. -/
def Obligations.EncodeEncodesInput : Prop :=
  ∀ (u : Alphabet) (s : State), s.cfg.wf = true →
    let n := s.ilen.toNat
    let q := n / 3
    let r := n % 3
    let m := 4 * q + (if r = 0 then 0 else if u = .standard then 4 else r + 1)
    (s.cfg.nbuf < n → Raises (.encode u) s 2 0) ∧
    (n ≤ s.cfg.nbuf → s.cfg.nbuf < m → Raises (.encode u) s 2 1) ∧
    (n ≤ s.cfg.nbuf → m ≤ s.cfg.nbuf → ∃ t, exec (.encode u) s = .next t ∧
      (∀ g, g < q → Holds t .obuf (4 * g) (spell u (slices3 (s.readByte .ibuf (3 * g))
        (s.readByte .ibuf (3 * g + 1)) (s.readByte .ibuf (3 * g + 2))) 0)) ∧
      (r = 1 → Holds t .obuf (4 * q) (spell u (slices1 (s.readByte .ibuf (3 * q))) 2)) ∧
      (r = 2 → Holds t .obuf (4 * q) (spell u (slices2 (s.readByte .ibuf (3 * q)) (s.readByte .ibuf (3 * q + 1))) 1)) ∧
      SameOutside s t .obuf 0 m ∧ t.iptr.toNat = n ∧ t.optr.toNat = m ∧ OnlyOutput s t)

/-- Rule R146: where ENCODE does not fault it leaves exactly the state that REWIND, ENC3 `ILEN div 3` times, then ENC1, ENC2
or nothing leave. -/
def Obligations.EncodeIsGroupSequence : Prop :=
  ∀ (u : Alphabet) (s t : State), s.cfg.wf = true → exec (.encode u) s = .next t → s.status.err = 0 → t.status.err = 0 →
    runCommands (List.replicate (s.ilen.toNat / 3) (.enc3 u) ++ tailCommand u (s.ilen.toNat % 3))
      { s with iptr := 0, optr := 0 } = .next t

/-- Rule R147: the length law of the standard alphabet. -/
def Obligations.StandardLengthLaw : Prop :=
  ∀ s t : State, s.cfg.wf = true → exec (.encode .standard) s = .next t → s.status.err = 0 → t.status.err = 0 →
    t.optr.toNat = (s.ilen.toNat + 2) / 3 * 4 ∧ t.optr.toNat % 4 = 0

/-- Rule R148: the length law of the URL-safe alphabet, and that its output holds no `+`, `/` or `=`. -/
def Obligations.UrlSafeLengthLaw : Prop :=
  ∀ s t : State, s.cfg.wf = true → exec (.encode .urlSafe) s = .next t → s.status.err = 0 → t.status.err = 0 →
    (s.ilen.toNat % 3 = 0 → t.optr.toNat = 4 * (s.ilen.toNat / 3)) ∧
    (s.ilen.toNat % 3 = 1 → t.optr.toNat = 4 * (s.ilen.toNat / 3) + 2) ∧
    (s.ilen.toNat % 3 = 2 → t.optr.toNat = 4 * (s.ilen.toNat / 3) + 3) ∧ t.optr.toNat % 4 ≠ 1 ∧
    ∀ i, i < t.optr.toNat → t.readByte .obuf i ≠ 0x2B ∧ t.readByte .obuf i ≠ 0x2F ∧ t.readByte .obuf i ≠ 0x3D

/-- Rule R149: the output of ENCODE.U is the output of ENCODE without its trailing `=`, every `+` replaced by `-` and every
`/` by `_`. -/
def Obligations.UrlSafeIsSubstitutedStandard : Prop :=
  ∀ s t t' : State, s.cfg.wf = true → s.status.err = 0 →
    exec (.encode .standard) s = .next t → t.status.err = 0 →
    exec (.encode .urlSafe) s = .next t' → t'.status.err = 0 →
      t'.optr.toNat ≤ t.optr.toNat ∧
      (∀ i, i < t'.optr.toNat → t.readByte .obuf i ≠ 0x3D ∧ t'.readByte .obuf i = toUrlSafe (t.readByte .obuf i)) ∧
      (∀ i, t'.optr.toNat ≤ i → i < t.optr.toNat → t.readByte .obuf i = 0x3D)

/-! ### The validate family (42_validate.md) -/

/-- Rules R160, R161: VALID writes V and nothing else, for every input that fits and either value of MIXED_OK; BOUNDS(0) where
ILEN > NBUF. -/
def Obligations.ValidFlag : Prop :=
  ∀ s : State,
    (s.cfg.nbuf < s.ilen.toNat → Raises .valid s 2 0) ∧
    (s.ilen.toNat ≤ s.cfg.nbuf → ∃ b : Bool, exec .valid s = .next { s with status := { s.status with v := b } } ∧
      (b = true ↔ ValidInput s.cfg s.inputBytes))

/-- Rule R160: the two readings differ exactly on an input that the permissive one accepts and that holds both a
standard-only and a URL-only character. -/
def Obligations.MixedReadingsDiffer : Prop :=
  ∀ s : State, s.ilen.toNat ≤ s.cfg.nbuf → ∃ t t' : State,
    exec .valid { s with cfg := { s.cfg with mixedOk := true } } = .next t ∧
    exec .valid { s with cfg := { s.cfg with mixedOk := false } } = .next t' ∧
    (t'.status.v = true ↔ t.status.v = true ∧
      ¬ ((∃ i, i < s.ilen.toNat ∧ cls s.cfg (s.readByte .ibuf i) = .std) ∧
        ∃ i, i < s.ilen.toNat ∧ cls s.cfg (s.readByte .ibuf i) = .url))

/-- Rule R162: what V = 1 guarantees of the input. -/
def Obligations.ValidInputGuarantees : Prop :=
  ∀ s t : State, s.ilen.toNat ≤ s.cfg.nbuf → exec .valid s = .next t → t.status.v = true →
    (∀ i, i < s.ilen.toNat → cls s.cfg (s.readByte .ibuf i) ≠ .other) ∧
    ((List.range s.ilen.toNat).countP (fun i => decide (cls s.cfg (s.readByte .ibuf i) = .pad)) ≤ 2) ∧
    (∀ i j, i < j → j < s.ilen.toNat → cls s.cfg (s.readByte .ibuf i) = .pad →
      cls s.cfg (s.readByte .ibuf j) = .pad ∨ cls s.cfg (s.readByte .ibuf j) = .ws) ∧
    (∀ i, i < s.ilen.toNat → (∀ k, k ≤ i → s.readByte .ibuf k ≠ 0x3D) →
      cls s.cfg (s.readByte .ibuf i) = .alnum ∨ cls s.cfg (s.readByte .ibuf i) = .std ∨
      cls s.cfg (s.readByte .ibuf i) = .url ∨ cls s.cfg (s.readByte .ibuf i) = .ws)

/-! ### The inspect family (43_inspect.md) -/

/-- Rule R176 with the numbers and flags of rules R171 to R175: INFO at every state, for every valid-character length the
input can have. -/
def Obligations.InfoResult : Prop :=
  ∀ s : State, s.cfg.wf = true →
    (s.cfg.nbuf < s.ilen.toNat → Raises .info s 2 0) ∧
    (s.ilen.toNat ≤ s.cfg.nbuf → ¬ ValidInput s.cfg s.inputBytes → Raises .info s 3 0) ∧
    (s.ilen.toNat ≤ s.cfg.nbuf → ValidInput s.cfg s.inputBytes →
      (∃ v, IsVlen s v) ∧ ∀ v, IsVlen s v → ∃ t, exec .info s = .next t ∧ InfoOf s t v ∧ OnlyInfo s t)

/-- Rule R173: the padding length of `m` alphabet characters followed by `k` characters `=`, by `m mod 4` and `k`. -/
def Obligations.PaddingLengthTable : Prop :=
  ∀ (s : State) (m k : Nat), s.cfg.wf = true → s.ilen.toNat ≤ s.cfg.nbuf → s.ilen.toNat = m + k → k ≤ 2 →
    (∀ i, i < m → s.hitAt i) → (∀ i, m ≤ i → i < m + k → s.readByte .ibuf i = 0x3D) →
    ValidInput s.cfg s.inputBytes →
    ∃ t, exec .info s = .next t ∧ t.vlen.toNat = m ∧ t.plen.toNat = paddingTable m k

/-- Rule R178: INFO and DECODE leave the same numbers and flags whenever both end without a fault on the same input. -/
def Obligations.InfoAndDecodeAgree : Prop :=
  ∀ (u : Alphabet) (s t t' : State), s.status.err = 0 → exec .info s = .next t → t.status.err = 0 →
    exec (.decode u) s = .next t' → t'.status.err = 0 →
    t'.fill = t.fill ∧ t'.vlen = t.vlen ∧ t'.plen = t.plen ∧ t'.blen = t.blen ∧ t'.status = t.status

/-! ### The decode family (44_decode.md) -/

/-- Rules R185 to R187: the unpack functions bit by bit, and that they undo the pack functions (and PACK3 undoes UNPACK4). -/
def Obligations.UnpackBits : Prop :=
  (∀ r0 r1 r2 r3 : Symbol,
    [(unpack4 r0 r1 r2 r3).1, (unpack4 r0 r1 r2 r3).2.1, (unpack4 r0 r1 r2 r3).2.2] = join4 r0 r1 r2 r3 ∧
    pack3 (unpack4 r0 r1 r2 r3).1 (unpack4 r0 r1 r2 r3).2.1 (unpack4 r0 r1 r2 r3).2.2 = (r0, r1, r2, r3)) ∧
  (∀ r0 r1 r2 : Symbol, [(unpack3 r0 r1 r2).1, (unpack3 r0 r1 r2).2] = join3 r0 r1 r2) ∧
  (∀ r0 r1 : Symbol, [unpack2 r0 r1] = join2 r0 r1) ∧
  (∀ b0 b1 b2 : Byte, unpack4 (pack3 b0 b1 b2).1 (pack3 b0 b1 b2).2.1 (pack3 b0 b1 b2).2.2.1 (pack3 b0 b1 b2).2.2.2 =
    (b0, b1, b2)) ∧
  (∀ b0 b1 : Byte, unpack3 (pack2 b0 b1).1 (pack2 b0 b1).2.1 (pack2 b0 b1).2.2 = (b0, b1)) ∧
  (∀ b : Byte, unpack2 (pack1 b).1 (pack1 b).2 = b)

/-- Rule R188: DEC4 at every state: the BOUNDS faults, BADCHAR at the first character without a reverse entry, and the three
bytes, the cursors and the frame. The bytes stored are the three from index OPTR up. -/
def Obligations.Dec4DecodesGroup : Prop :=
  ∀ s : State, s.cfg.wf = true →
    (s.cfg.nbuf < s.ilen.toNat ∨ s.ilen.toNat < s.iptr.toNat + 4 → Raises .dec4 s 2 0) ∧
    (s.ilen.toNat ≤ s.cfg.nbuf → s.iptr.toNat + 4 ≤ s.ilen.toNat →
      (s.cfg.nbuf < s.optr.toNat + 3 → Raises .dec4 s 2 1) ∧
      (s.optr.toNat + 3 ≤ s.cfg.nbuf →
        (∀ j, j < 4 → s.firstBadAt s.iptr.toNat j → Raises .dec4 s 5 (BitVec.ofNat 32 (s.iptr.toNat + j))) ∧
        ((∀ k, k < 4 → s.hitAt (s.iptr.toNat + k)) → ∃ t, exec .dec4 s = .next t ∧
          Holds t .obuf s.optr.toNat (join4 (s.symAt s.iptr.toNat) (s.symAt (s.iptr.toNat + 1))
            (s.symAt (s.iptr.toNat + 2)) (s.symAt (s.iptr.toNat + 3))) ∧
          SameOutside s t .obuf s.optr.toNat 3 ∧ t.iptr.toNat = s.iptr.toNat + 4 ∧ t.optr.toNat = s.optr.toNat + 3 ∧
          OnlyOutput s t)))

/-- Rule R189: DEC3 at every state. The bytes stored are the two from index OPTR up. -/
def Obligations.Dec3DecodesTail : Prop :=
  ∀ s : State, s.cfg.wf = true →
    (s.cfg.nbuf < s.ilen.toNat ∨ s.ilen.toNat < s.iptr.toNat + 3 → Raises .dec3 s 2 0) ∧
    (s.ilen.toNat ≤ s.cfg.nbuf → s.iptr.toNat + 3 ≤ s.ilen.toNat →
      (s.cfg.nbuf < s.optr.toNat + 2 → Raises .dec3 s 2 1) ∧
      (s.optr.toNat + 2 ≤ s.cfg.nbuf →
        (∀ j, j < 3 → s.firstBadAt s.iptr.toNat j → Raises .dec3 s 5 (BitVec.ofNat 32 (s.iptr.toNat + j))) ∧
        ((∀ k, k < 3 → s.hitAt (s.iptr.toNat + k)) → ∃ t, exec .dec3 s = .next t ∧
          Holds t .obuf s.optr.toNat (join3 (s.symAt s.iptr.toNat) (s.symAt (s.iptr.toNat + 1))
            (s.symAt (s.iptr.toNat + 2))) ∧
          SameOutside s t .obuf s.optr.toNat 2 ∧ t.iptr.toNat = s.iptr.toNat + 3 ∧ t.optr.toNat = s.optr.toNat + 2 ∧
          OnlyOutput s t)))

/-- Rule R190: DEC2 at every state. The byte stored is the one at index OPTR. -/
def Obligations.Dec2DecodesTail : Prop :=
  ∀ s : State, s.cfg.wf = true →
    (s.cfg.nbuf < s.ilen.toNat ∨ s.ilen.toNat < s.iptr.toNat + 2 → Raises .dec2 s 2 0) ∧
    (s.ilen.toNat ≤ s.cfg.nbuf → s.iptr.toNat + 2 ≤ s.ilen.toNat →
      (s.cfg.nbuf < s.optr.toNat + 1 → Raises .dec2 s 2 1) ∧
      (s.optr.toNat + 1 ≤ s.cfg.nbuf →
        (∀ j, j < 2 → s.firstBadAt s.iptr.toNat j → Raises .dec2 s 5 (BitVec.ofNat 32 (s.iptr.toNat + j))) ∧
        ((∀ k, k < 2 → s.hitAt (s.iptr.toNat + k)) → ∃ t, exec .dec2 s = .next t ∧
          Holds t .obuf s.optr.toNat (join2 (s.symAt s.iptr.toNat) (s.symAt (s.iptr.toNat + 1))) ∧
          SameOutside s t .obuf s.optr.toNat 1 ∧ t.iptr.toNat = s.iptr.toNat + 2 ∧ t.optr.toNat = s.optr.toNat + 1 ∧
          OnlyOutput s t)))

/-- Rule R191: DECODE at every state, with either U and whatever the cursors: the faults in the order of the rule, and on
success every group's bytes, the tail's, the cursors, the numbers, the flags and the frame. The bytes stored are the
`L * 3 div 4 - PLEN` from index 0 up. -/
def Obligations.DecodeDecodesInput : Prop :=
  ∀ (u : Alphabet) (s : State), s.cfg.wf = true →
    (s.cfg.nbuf < s.ilen.toNat → Raises (.decode u) s 2 0) ∧
    (s.ilen.toNat ≤ s.cfg.nbuf → ¬ ValidInput s.cfg s.inputBytes → Raises (.decode u) s 3 0) ∧
    (s.ilen.toNat ≤ s.cfg.nbuf → ValidInput s.cfg s.inputBytes → ∀ v, IsVlen s v →
      let p := s.paddedLen - v
      let m := s.paddedLen * 3 / 4 - p
      (2 < p → Raises (.decode u) s 4 (BitVec.ofNat 32 p)) ∧
      (p ≤ 2 → ∀ j, j < v → s.firstBadAt 0 j → Raises (.decode u) s 5 (BitVec.ofNat 32 j)) ∧
      (p ≤ 2 → (∀ i, i < v → s.hitAt i) → ∃ t, exec (.decode u) s = .next t ∧
        (∀ g, 4 * g + 4 ≤ v → Holds t .obuf (3 * g) (join4 (s.symAt (4 * g)) (s.symAt (4 * g + 1))
          (s.symAt (4 * g + 2)) (s.symAt (4 * g + 3)))) ∧
        (p = 1 → Holds t .obuf (m - 2) (join3 (s.symAt (v - 3)) (s.symAt (v - 2)) (s.symAt (v - 1)))) ∧
        (p = 2 → Holds t .obuf (m - 1) (join2 (s.symAt (v - 2)) (s.symAt (v - 1)))) ∧
        SameOutside s t .obuf 0 m ∧ t.iptr = s.ilen ∧ t.optr.toNat = m ∧ InfoOf s t v ∧ OnlyDecode s t))

/-- S14 law 9: with an input that fits and is valid, DECODE succeeds exactly when the padding length is at most 2 and no
whitespace stands before the first `=`. -/
def Obligations.DecodeSucceedsExactly : Prop :=
  ∀ (u : Alphabet) (s t : State) (v : Nat), s.cfg.wf = true → s.ilen.toNat ≤ s.cfg.nbuf →
    ValidInput s.cfg s.inputBytes → IsVlen s v → s.status.err = 0 → exec (.decode u) s = .next t →
    (t.status.err = 0 ↔
      s.paddedLen - v ≤ 2 ∧ ∀ i, i < v → i < s.ilen.toNat → cls s.cfg (s.readByte .ibuf i) ≠ .ws)

/-- Rule R192: the U bit of DECODE has no effect, because decoding the source's normalised string (the required `=` appended,
`-` and `_` replaced by `+` and `/`) gives the same bytes and the same VLEN, PLEN and BLEN as decoding the input as it
stands, with either value of MIXED_OK. The premises say that the input decodes and that the normalised string fits; the
validity check sees each string as it stands (log entry 15). -/
def Obligations.DecodeIgnoresUrlFlag : Prop :=
  (∀ s : State, exec (.decode .urlSafe) s = exec (.decode .standard) s) ∧
  (∀ (s s' : State) (v : Nat), s.cfg.wf = true → s.paddedLen ≤ s.cfg.nbuf →
    ValidInput s.cfg s.inputBytes → IsVlen s v → s.paddedLen - v ≤ 2 → (∀ i, i < v → s.hitAt i) →
    s'.cfg = s.cfg → s'.ilen.toNat = s.paddedLen →
    (∀ i, i < s.paddedLen → s'.readByte .ibuf i = toStandard (s.viewIn i)) →
    ∃ t t' : State, exec (.decode .urlSafe) s = .next t ∧ exec (.decode .standard) s' = .next t' ∧
      t.status.err = s.status.err ∧ t'.status.err = s'.status.err ∧ t'.optr = t.optr ∧ t'.vlen = t.vlen ∧
      t'.plen = t.plen ∧ t'.blen = t.blen ∧ t'.fill = 0 ∧
      ∀ i, i < t.optr.toNat → t'.readByte .obuf i = t.readByte .obuf i)

/-- Rule R193: the bits a tail decode drops may be anything: DEC3 does not see the low two bits of its third symbol, nor DEC2
the low four of its second. -/
def Obligations.DroppedBitsAreIgnored : Prop :=
  ∀ (s t t' : State) (c c' : Byte), (rev c).hit = true → (rev c').hit = true →
    ((rev c).val.extractLsb' 2 4 = (rev c').val.extractLsb' 2 4 →
      exec .dec3 (s.writeByte .ibuf (s.iptr.toNat + 2) c) = .next t →
      exec .dec3 (s.writeByte .ibuf (s.iptr.toNat + 2) c') = .next t' →
      t'.status = t.status ∧ t'.einfo = t.einfo ∧ t'.iptr = t.iptr ∧ t'.optr = t.optr ∧ SameBytes t t' .obuf) ∧
    ((rev c).val.extractLsb' 4 2 = (rev c').val.extractLsb' 4 2 →
      exec .dec2 (s.writeByte .ibuf (s.iptr.toNat + 1) c) = .next t →
      exec .dec2 (s.writeByte .ibuf (s.iptr.toNat + 1) c') = .next t' →
      t'.status = t.status ∧ t'.einfo = t.einfo ∧ t'.iptr = t.iptr ∧ t'.optr = t.optr ∧ SameBytes t t' .obuf)

/-- Rule R194: the round trip. ENCODE in either alphabet, the output copied to IBUF with ILEN = OPTR, then DECODE with either
U, ends without a fault with the original bytes in `OBUF[0..OPTR)`. -/
def Obligations.EncodeThenDecodeRoundTrip : Prop :=
  ∀ (u u' : Alphabet) (s t s' : State), s.cfg.wf = true → s.ilen.toNat ≤ s.cfg.nbuf →
    (s.ilen.toNat + 2) / 3 * 4 ≤ s.cfg.nbuf → exec (.encode u) s = .next t →
    s'.cfg = s.cfg → s'.ilen = t.optr → (∀ i, i < t.optr.toNat → s'.readByte .ibuf i = t.readByte .obuf i) →
    ∃ t' : State, exec (.decode u') s' = .next t' ∧ t'.status.err = s'.status.err ∧ t'.einfo = s'.einfo ∧
      t'.status.v = true ∧ t'.status.plok = true ∧ t'.optr.toNat = s.ilen.toNat ∧
      ∀ i, i < s.ilen.toNat → t'.readByte .obuf i = s.readByte .ibuf i

/-- Rule R195: the group commands make no validity check, so MIXED_OK does not reach them, and a mix of the two alphabets
decodes: an alias and its standard character give the same bytes. -/
def Obligations.GroupDecodersIgnoreMixedOk : Prop :=
  ∀ (s t : State) (b : Bool) (i : Instr), i = .dec4 ∨ i = .dec3 ∨ i = .dec2 → exec i s = .next t →
    exec i { s with cfg := { s.cfg with mixedOk := b } } = .next { t with cfg := { t.cfg with mixedOk := b } } ∧
    ∀ (s' t' : State), s'.cfg = s.cfg → s'.ilen = s.ilen → s'.iptr = s.iptr → s'.optr = s.optr →
      s'.status = s.status → s'.einfo = s.einfo →
      (∀ k, s'.readByte .ibuf k = toStandard (s.readByte .ibuf k)) → exec i s' = .next t' →
      t'.status = t.status ∧ t'.einfo = t.einfo ∧ t'.iptr = t.iptr ∧ t'.optr = t.optr ∧
      ∀ a, s.optr.toNat ≤ a → a < t.optr.toNat → t'.readByte .obuf a = t.readByte .obuf a

/-- Rule R196: after a successful DECODE the number of groups is `(VLEN + PLEN) div 4`, which is `(ILEN + FILL) div 4`, and
`BLEN = 3*G - PLEN` bytes are produced. -/
def Obligations.DecodeGroupCount : Prop :=
  ∀ (u : Alphabet) (s t : State), s.cfg.wf = true → s.status.err = 0 → exec (.decode u) s = .next t → t.status.err = 0 →
    t.vlen.toNat + t.plen.toNat = s.ilen.toNat + t.fill.toNat ∧ (t.vlen.toNat + t.plen.toNat) % 4 = 0 ∧
    t.plen.toNat ≤ 2 ∧ t.blen.toNat + t.plen.toNat = 3 * ((t.vlen.toNat + t.plen.toNat) / 4) ∧ t.optr = t.blen

/-! ### The system family (45_system.md) -/

/-- Rule R210: NOP changes no state, and a word with OP = 0 and any other bit set is not NOP but an illegal word. -/
def Obligations.NopChangesNothing : Prop :=
  (∀ s : State, exec .nop s = .next s) ∧ decode 0x00000000 = .ok .nop ∧
  ∀ w : Word, w.extractLsb' 0 4 = 0 → w ≠ 0x00000000 → ∃ e, decode w = .error e

/-- Rule R211: CLRERR writes 0 to ERR and EINFO and nothing else, `fault_o` goes low, and with no fault pending it changes
nothing. The flags, the data registers, the cursors and every byte of both buffers keep their values. -/
def Obligations.ClrerrClearsFault : Prop :=
  ∀ s : State, ∃ t, exec .clrerr s = .next t ∧ t = { s with status := { s.status with err := 0 }, einfo := 0 } ∧
    t.faultLine = false ∧ (s.status.err = 0 → s.einfo = 0 → t = s)

/-! ### Rules about every command -/

/-- Rules R220, R221, R223: a command other than CLRERR either keeps ERR and EINFO, or ends as one fault with a code, an
information word and a cause the table of rule R220 gives it, and then changes nothing but ERR and EINFO. -/
def Obligations.FaultsAreAllOrNothing : Prop :=
  ∀ (i : Instr) (s t : State), s.cfg.wf = true → i ≠ .clrerr → exec i s = .next t →
    (t.status.err = s.status.err ∧ t.einfo = s.einfo) ∨
    ∃ code info, CauseOf i s code info ∧ t = s.afterFault code info

/-- Rule R40: what no command writes, and what each command leaves alone, column by column; a fault writes ERR and EINFO
only. Every byte of IBUF reads as before after every command, and so does every byte of OBUF after a command that has no W
in that column. -/
def Obligations.CommandsWriteOnlyTheirColumns : Prop :=
  ∀ (i : Instr) (s t : State), exec i s = .next t →
    SameBytes s t .ibuf ∧ t.ilen = s.ilen ∧ t.cfg = s.cfg ∧ t.resets = s.resets ∧ t.pending = s.pending ∧
    t.reply = s.reply ∧
    (Column.obuf ∉ i.writes → SameBytes s t .obuf) ∧
    (Column.cursors ∉ i.writes → t.iptr = s.iptr ∧ t.optr = s.optr) ∧
    (Column.res ∉ i.writes → t.res = s.res) ∧
    (Column.numbers ∉ i.writes → t.fill = s.fill ∧ t.vlen = s.vlen ∧ t.plen = s.plen ∧ t.blen = s.blen) ∧
    (Column.flagV ∉ i.writes → t.status.v = s.status.v) ∧
    (Column.flags ∉ i.writes →
      t.status.plok = s.status.plok ∧ t.status.hstd = s.status.hstd ∧ t.status.hurl = s.status.hurl)

/-- 90_conflicts.md C8, rule R25: a command's result depends on no state other than its operands and the pending fault. From
two states with the same operands it raises the same fault, leaves the same cursors, and whatever else it writes is the
same in both: OBUF, the bytes of IBUF at and above ILEN, the flags and the result registers are not read. -/
def Obligations.ResultsDependOnOperandsOnly : Prop :=
  ∀ (i : Instr) (s s' t t' : State), SameOperands s s' → s'.status.err = s.status.err → s'.einfo = s.einfo →
    exec i s = .next t → exec i s' = .next t' →
    t'.status.err = t.status.err ∧ t'.einfo = t.einfo ∧ t'.iptr = t.iptr ∧ t'.optr = t.optr ∧
    (t'.res = t.res ∨ t.res = s.res ∧ t'.res = s'.res) ∧
    (t'.fill = t.fill ∧ t'.vlen = t.vlen ∧ t'.plen = t.plen ∧ t'.blen = t.blen ∨
      t.fill = s.fill ∧ t.vlen = s.vlen ∧ t.plen = s.plen ∧ t.blen = s.blen ∧
      t'.fill = s'.fill ∧ t'.vlen = s'.vlen ∧ t'.plen = s'.plen ∧ t'.blen = s'.blen) ∧
    (t'.status.v = t.status.v ∨ t.status.v = s.status.v ∧ t'.status.v = s'.status.v) ∧
    (t'.status = t.status ∨
      t.status.plok = s.status.plok ∧ t.status.hstd = s.status.hstd ∧ t.status.hurl = s.status.hurl ∧
      t'.status.plok = s'.status.plok ∧ t'.status.hstd = s'.status.hstd ∧ t'.status.hurl = s'.status.hurl) ∧
    ∀ a, t'.readByte .obuf a = t.readByte .obuf a ∨
      t.readByte .obuf a = s.readByte .obuf a ∧ t'.readByte .obuf a = s'.readByte .obuf a

/-! ### The invariant -/

/-- Every step keeps the invariant: legal parameters, canonical buffers that hold nothing at or above NBUF, a legal fault
record, and the ranges of FILL, VLEN, PLEN, BLEN and PLOK. -/
def Obligations.InvariantKept : Prop := ∀ s t : State, Inv s → step s = .next t → Inv t

/-- The invariant holds right after reset, for every legal choice of the parameters, and so at `State.reset` (whose NBUF is
the model's choice, log entry 1). -/
def Obligations.InvariantAtReset : Prop := (∀ c : Config, c.wf = true → Inv (State.resetOf c)) ∧ Inv State.reset

/-! ### The codes 0x80..0xFF (00_scope.md rule R11) -/

/-- Rules R11, R161, R176, R191: one byte 0x80..0xFF among the input makes it invalid, whatever the parameters: VALID ends with
V = 0 and nothing else changed, INFO and DECODE raise INVALID_INPUT(0). -/
def Obligations.HighCodesAreInvalid : Prop :=
  ∀ (s : State) (i : Nat), s.ilen.toNat ≤ s.cfg.nbuf → i < s.ilen.toNat → 0x80 ≤ s.readByte .ibuf i →
    exec .valid s = .next { s with status := { s.status with v := false } } ∧
    Raises .info s 3 0 ∧ ∀ u : Alphabet, Raises (.decode u) s 3 0
end

