-- ==== Sys2Proof/Laws/State.lean ====
section
/-! SUPPORT. One lemma for each field of State and each update of it, true by rfl: later proofs do not unfold a record
update. -/

namespace Sys2Proof.Machine

/-! ### `State.raise` -/

@[simp] theorem State.raise_cfg (s : State) (f : FaultCode) (info : Word) : (s.raise f info).cfg = s.cfg := rfl
@[simp] theorem State.raise_status (s : State) (f : FaultCode) (info : Word) :
    (s.raise f info).status = { s.status with err := f.code } := rfl
@[simp] theorem State.raise_einfo (s : State) (f : FaultCode) (info : Word) : (s.raise f info).einfo = info := rfl
@[simp] theorem State.raise_ilen (s : State) (f : FaultCode) (info : Word) : (s.raise f info).ilen = s.ilen := rfl
@[simp] theorem State.raise_iptr (s : State) (f : FaultCode) (info : Word) : (s.raise f info).iptr = s.iptr := rfl
@[simp] theorem State.raise_optr (s : State) (f : FaultCode) (info : Word) : (s.raise f info).optr = s.optr := rfl
@[simp] theorem State.raise_res (s : State) (f : FaultCode) (info : Word) : (s.raise f info).res = s.res := rfl
@[simp] theorem State.raise_fill (s : State) (f : FaultCode) (info : Word) : (s.raise f info).fill = s.fill := rfl
@[simp] theorem State.raise_vlen (s : State) (f : FaultCode) (info : Word) : (s.raise f info).vlen = s.vlen := rfl
@[simp] theorem State.raise_plen (s : State) (f : FaultCode) (info : Word) : (s.raise f info).plen = s.plen := rfl
@[simp] theorem State.raise_blen (s : State) (f : FaultCode) (info : Word) : (s.raise f info).blen = s.blen := rfl
@[simp] theorem State.raise_ibuf (s : State) (f : FaultCode) (info : Word) : (s.raise f info).ibuf = s.ibuf := rfl
@[simp] theorem State.raise_obuf (s : State) (f : FaultCode) (info : Word) : (s.raise f info).obuf = s.obuf := rfl
@[simp] theorem State.raise_resets (s : State) (f : FaultCode) (info : Word) : (s.raise f info).resets = s.resets := rfl
@[simp] theorem State.raise_pending (s : State) (f : FaultCode) (info : Word) : (s.raise f info).pending = s.pending :=
    rfl
@[simp] theorem State.raise_reply (s : State) (f : FaultCode) (info : Word) : (s.raise f info).reply = s.reply := rfl

/-! ### `State.afterFault` -/

@[simp] theorem State.afterFault_cfg (s : State) (code : BitVec 4) (info : Word) : (s.afterFault code info).cfg = s.cfg :=
    rfl
@[simp] theorem State.afterFault_status (s : State) (code : BitVec 4) (info : Word) :
    (s.afterFault code info).status = { s.status with err := code } := rfl
@[simp] theorem State.afterFault_einfo (s : State) (code : BitVec 4) (info : Word) :
    (s.afterFault code info).einfo = info := rfl
@[simp] theorem State.afterFault_ilen (s : State) (code : BitVec 4) (info : Word) :
    (s.afterFault code info).ilen = s.ilen := rfl
@[simp] theorem State.afterFault_iptr (s : State) (code : BitVec 4) (info : Word) :
    (s.afterFault code info).iptr = s.iptr := rfl
@[simp] theorem State.afterFault_optr (s : State) (code : BitVec 4) (info : Word) :
    (s.afterFault code info).optr = s.optr := rfl
@[simp] theorem State.afterFault_res (s : State) (code : BitVec 4) (info : Word) : (s.afterFault code info).res = s.res :=
    rfl
@[simp] theorem State.afterFault_fill (s : State) (code : BitVec 4) (info : Word) :
    (s.afterFault code info).fill = s.fill := rfl
@[simp] theorem State.afterFault_vlen (s : State) (code : BitVec 4) (info : Word) :
    (s.afterFault code info).vlen = s.vlen := rfl
@[simp] theorem State.afterFault_plen (s : State) (code : BitVec 4) (info : Word) :
    (s.afterFault code info).plen = s.plen := rfl
@[simp] theorem State.afterFault_blen (s : State) (code : BitVec 4) (info : Word) :
    (s.afterFault code info).blen = s.blen := rfl
@[simp] theorem State.afterFault_ibuf (s : State) (code : BitVec 4) (info : Word) :
    (s.afterFault code info).ibuf = s.ibuf := rfl
@[simp] theorem State.afterFault_obuf (s : State) (code : BitVec 4) (info : Word) :
    (s.afterFault code info).obuf = s.obuf := rfl
@[simp] theorem State.afterFault_resets (s : State) (code : BitVec 4) (info : Word) :
    (s.afterFault code info).resets = s.resets := rfl
@[simp] theorem State.afterFault_pending (s : State) (code : BitVec 4) (info : Word) :
    (s.afterFault code info).pending = s.pending := rfl
@[simp] theorem State.afterFault_reply (s : State) (code : BitVec 4) (info : Word) :
    (s.afterFault code info).reply = s.reply := rfl

/-! ### `State.clearFault` -/

@[simp] theorem State.clearFault_cfg (s : State) : (s.clearFault).cfg = s.cfg := rfl
@[simp] theorem State.clearFault_status (s : State) : (s.clearFault).status = { s.status with err := 0 } := rfl
@[simp] theorem State.clearFault_einfo (s : State) : (s.clearFault).einfo = 0 := rfl
@[simp] theorem State.clearFault_ilen (s : State) : (s.clearFault).ilen = s.ilen := rfl
@[simp] theorem State.clearFault_iptr (s : State) : (s.clearFault).iptr = s.iptr := rfl
@[simp] theorem State.clearFault_optr (s : State) : (s.clearFault).optr = s.optr := rfl
@[simp] theorem State.clearFault_res (s : State) : (s.clearFault).res = s.res := rfl
@[simp] theorem State.clearFault_fill (s : State) : (s.clearFault).fill = s.fill := rfl
@[simp] theorem State.clearFault_vlen (s : State) : (s.clearFault).vlen = s.vlen := rfl
@[simp] theorem State.clearFault_plen (s : State) : (s.clearFault).plen = s.plen := rfl
@[simp] theorem State.clearFault_blen (s : State) : (s.clearFault).blen = s.blen := rfl
@[simp] theorem State.clearFault_ibuf (s : State) : (s.clearFault).ibuf = s.ibuf := rfl
@[simp] theorem State.clearFault_obuf (s : State) : (s.clearFault).obuf = s.obuf := rfl
@[simp] theorem State.clearFault_resets (s : State) : (s.clearFault).resets = s.resets := rfl
@[simp] theorem State.clearFault_pending (s : State) : (s.clearFault).pending = s.pending := rfl
@[simp] theorem State.clearFault_reply (s : State) : (s.clearFault).reply = s.reply := rfl

/-! ### `State.setRes` -/

@[simp] theorem State.setRes_cfg (s : State) (v : Word) : (s.setRes v).cfg = s.cfg := rfl
@[simp] theorem State.setRes_status (s : State) (v : Word) : (s.setRes v).status = s.status := rfl
@[simp] theorem State.setRes_einfo (s : State) (v : Word) : (s.setRes v).einfo = s.einfo := rfl
@[simp] theorem State.setRes_ilen (s : State) (v : Word) : (s.setRes v).ilen = s.ilen := rfl
@[simp] theorem State.setRes_iptr (s : State) (v : Word) : (s.setRes v).iptr = s.iptr := rfl
@[simp] theorem State.setRes_optr (s : State) (v : Word) : (s.setRes v).optr = s.optr := rfl
@[simp] theorem State.setRes_res (s : State) (v : Word) : (s.setRes v).res = v := rfl
@[simp] theorem State.setRes_fill (s : State) (v : Word) : (s.setRes v).fill = s.fill := rfl
@[simp] theorem State.setRes_vlen (s : State) (v : Word) : (s.setRes v).vlen = s.vlen := rfl
@[simp] theorem State.setRes_plen (s : State) (v : Word) : (s.setRes v).plen = s.plen := rfl
@[simp] theorem State.setRes_blen (s : State) (v : Word) : (s.setRes v).blen = s.blen := rfl
@[simp] theorem State.setRes_ibuf (s : State) (v : Word) : (s.setRes v).ibuf = s.ibuf := rfl
@[simp] theorem State.setRes_obuf (s : State) (v : Word) : (s.setRes v).obuf = s.obuf := rfl
@[simp] theorem State.setRes_resets (s : State) (v : Word) : (s.setRes v).resets = s.resets := rfl
@[simp] theorem State.setRes_pending (s : State) (v : Word) : (s.setRes v).pending = s.pending := rfl
@[simp] theorem State.setRes_reply (s : State) (v : Word) : (s.setRes v).reply = s.reply := rfl

/-! ### `State.setCursors` -/

@[simp] theorem State.setCursors_cfg (s : State) (i o : Nat) : (s.setCursors i o).cfg = s.cfg := rfl
@[simp] theorem State.setCursors_status (s : State) (i o : Nat) : (s.setCursors i o).status = s.status := rfl
@[simp] theorem State.setCursors_einfo (s : State) (i o : Nat) : (s.setCursors i o).einfo = s.einfo := rfl
@[simp] theorem State.setCursors_ilen (s : State) (i o : Nat) : (s.setCursors i o).ilen = s.ilen := rfl
@[simp] theorem State.setCursors_iptr (s : State) (i o : Nat) : (s.setCursors i o).iptr = word32 i := rfl
@[simp] theorem State.setCursors_optr (s : State) (i o : Nat) : (s.setCursors i o).optr = word32 o := rfl
@[simp] theorem State.setCursors_res (s : State) (i o : Nat) : (s.setCursors i o).res = s.res := rfl
@[simp] theorem State.setCursors_fill (s : State) (i o : Nat) : (s.setCursors i o).fill = s.fill := rfl
@[simp] theorem State.setCursors_vlen (s : State) (i o : Nat) : (s.setCursors i o).vlen = s.vlen := rfl
@[simp] theorem State.setCursors_plen (s : State) (i o : Nat) : (s.setCursors i o).plen = s.plen := rfl
@[simp] theorem State.setCursors_blen (s : State) (i o : Nat) : (s.setCursors i o).blen = s.blen := rfl
@[simp] theorem State.setCursors_ibuf (s : State) (i o : Nat) : (s.setCursors i o).ibuf = s.ibuf := rfl
@[simp] theorem State.setCursors_obuf (s : State) (i o : Nat) : (s.setCursors i o).obuf = s.obuf := rfl
@[simp] theorem State.setCursors_resets (s : State) (i o : Nat) : (s.setCursors i o).resets = s.resets := rfl
@[simp] theorem State.setCursors_pending (s : State) (i o : Nat) : (s.setCursors i o).pending = s.pending := rfl
@[simp] theorem State.setCursors_reply (s : State) (i o : Nat) : (s.setCursors i o).reply = s.reply := rfl

/-! ### `State.answer` -/

@[simp] theorem State.answer_cfg (s : State) (r : Reply) : (s.answer r).cfg = s.cfg := rfl
@[simp] theorem State.answer_status (s : State) (r : Reply) : (s.answer r).status = s.status := rfl
@[simp] theorem State.answer_einfo (s : State) (r : Reply) : (s.answer r).einfo = s.einfo := rfl
@[simp] theorem State.answer_ilen (s : State) (r : Reply) : (s.answer r).ilen = s.ilen := rfl
@[simp] theorem State.answer_iptr (s : State) (r : Reply) : (s.answer r).iptr = s.iptr := rfl
@[simp] theorem State.answer_optr (s : State) (r : Reply) : (s.answer r).optr = s.optr := rfl
@[simp] theorem State.answer_res (s : State) (r : Reply) : (s.answer r).res = s.res := rfl
@[simp] theorem State.answer_fill (s : State) (r : Reply) : (s.answer r).fill = s.fill := rfl
@[simp] theorem State.answer_vlen (s : State) (r : Reply) : (s.answer r).vlen = s.vlen := rfl
@[simp] theorem State.answer_plen (s : State) (r : Reply) : (s.answer r).plen = s.plen := rfl
@[simp] theorem State.answer_blen (s : State) (r : Reply) : (s.answer r).blen = s.blen := rfl
@[simp] theorem State.answer_ibuf (s : State) (r : Reply) : (s.answer r).ibuf = s.ibuf := rfl
@[simp] theorem State.answer_obuf (s : State) (r : Reply) : (s.answer r).obuf = s.obuf := rfl
@[simp] theorem State.answer_resets (s : State) (r : Reply) : (s.answer r).resets = s.resets := rfl
@[simp] theorem State.answer_pending (s : State) (r : Reply) : (s.answer r).pending = s.pending := rfl
@[simp] theorem State.answer_reply (s : State) (r : Reply) : (s.answer r).reply = r := rfl

/-! ### `State.waiting` -/

@[simp] theorem State.waiting_cfg (s : State) (ts : List Txn) : (s.waiting ts).cfg = s.cfg := rfl
@[simp] theorem State.waiting_status (s : State) (ts : List Txn) : (s.waiting ts).status = s.status := rfl
@[simp] theorem State.waiting_einfo (s : State) (ts : List Txn) : (s.waiting ts).einfo = s.einfo := rfl
@[simp] theorem State.waiting_ilen (s : State) (ts : List Txn) : (s.waiting ts).ilen = s.ilen := rfl
@[simp] theorem State.waiting_iptr (s : State) (ts : List Txn) : (s.waiting ts).iptr = s.iptr := rfl
@[simp] theorem State.waiting_optr (s : State) (ts : List Txn) : (s.waiting ts).optr = s.optr := rfl
@[simp] theorem State.waiting_res (s : State) (ts : List Txn) : (s.waiting ts).res = s.res := rfl
@[simp] theorem State.waiting_fill (s : State) (ts : List Txn) : (s.waiting ts).fill = s.fill := rfl
@[simp] theorem State.waiting_vlen (s : State) (ts : List Txn) : (s.waiting ts).vlen = s.vlen := rfl
@[simp] theorem State.waiting_plen (s : State) (ts : List Txn) : (s.waiting ts).plen = s.plen := rfl
@[simp] theorem State.waiting_blen (s : State) (ts : List Txn) : (s.waiting ts).blen = s.blen := rfl
@[simp] theorem State.waiting_ibuf (s : State) (ts : List Txn) : (s.waiting ts).ibuf = s.ibuf := rfl
@[simp] theorem State.waiting_obuf (s : State) (ts : List Txn) : (s.waiting ts).obuf = s.obuf := rfl
@[simp] theorem State.waiting_resets (s : State) (ts : List Txn) : (s.waiting ts).resets = s.resets := rfl
@[simp] theorem State.waiting_pending (s : State) (ts : List Txn) : (s.waiting ts).pending = ts := rfl
@[simp] theorem State.waiting_reply (s : State) (ts : List Txn) : (s.waiting ts).reply = s.reply := rfl

/-! ### `State.writeObuf` -/

@[simp] theorem State.writeObuf_cfg (s : State) (i : Nat) (vs : List Byte) : (s.writeObuf i vs).cfg = s.cfg := rfl
@[simp] theorem State.writeObuf_status (s : State) (i : Nat) (vs : List Byte) : (s.writeObuf i vs).status = s.status :=
    rfl
@[simp] theorem State.writeObuf_einfo (s : State) (i : Nat) (vs : List Byte) : (s.writeObuf i vs).einfo = s.einfo := rfl
@[simp] theorem State.writeObuf_ilen (s : State) (i : Nat) (vs : List Byte) : (s.writeObuf i vs).ilen = s.ilen := rfl
@[simp] theorem State.writeObuf_iptr (s : State) (i : Nat) (vs : List Byte) : (s.writeObuf i vs).iptr = s.iptr := rfl
@[simp] theorem State.writeObuf_optr (s : State) (i : Nat) (vs : List Byte) : (s.writeObuf i vs).optr = s.optr := rfl
@[simp] theorem State.writeObuf_res (s : State) (i : Nat) (vs : List Byte) : (s.writeObuf i vs).res = s.res := rfl
@[simp] theorem State.writeObuf_fill (s : State) (i : Nat) (vs : List Byte) : (s.writeObuf i vs).fill = s.fill := rfl
@[simp] theorem State.writeObuf_vlen (s : State) (i : Nat) (vs : List Byte) : (s.writeObuf i vs).vlen = s.vlen := rfl
@[simp] theorem State.writeObuf_plen (s : State) (i : Nat) (vs : List Byte) : (s.writeObuf i vs).plen = s.plen := rfl
@[simp] theorem State.writeObuf_blen (s : State) (i : Nat) (vs : List Byte) : (s.writeObuf i vs).blen = s.blen := rfl
@[simp] theorem State.writeObuf_ibuf (s : State) (i : Nat) (vs : List Byte) : (s.writeObuf i vs).ibuf = s.ibuf := rfl
@[simp] theorem State.writeObuf_obuf (s : State) (i : Nat) (vs : List Byte) :
    (s.writeObuf i vs).obuf = Memory.putAll i vs s.obuf := rfl
@[simp] theorem State.writeObuf_resets (s : State) (i : Nat) (vs : List Byte) : (s.writeObuf i vs).resets = s.resets :=
    rfl
@[simp] theorem State.writeObuf_pending (s : State) (i : Nat) (vs : List Byte) : (s.writeObuf i vs).pending = s.pending :=
    rfl
@[simp] theorem State.writeObuf_reply (s : State) (i : Nat) (vs : List Byte) : (s.writeObuf i vs).reply = s.reply := rfl

/-! ### `State.setV` -/

@[simp] theorem State.setV_cfg (s : State) (b : Bool) : (s.setV b).cfg = s.cfg := rfl
@[simp] theorem State.setV_status (s : State) (b : Bool) : (s.setV b).status = { s.status with v := b } := rfl
@[simp] theorem State.setV_einfo (s : State) (b : Bool) : (s.setV b).einfo = s.einfo := rfl
@[simp] theorem State.setV_ilen (s : State) (b : Bool) : (s.setV b).ilen = s.ilen := rfl
@[simp] theorem State.setV_iptr (s : State) (b : Bool) : (s.setV b).iptr = s.iptr := rfl
@[simp] theorem State.setV_optr (s : State) (b : Bool) : (s.setV b).optr = s.optr := rfl
@[simp] theorem State.setV_res (s : State) (b : Bool) : (s.setV b).res = s.res := rfl
@[simp] theorem State.setV_fill (s : State) (b : Bool) : (s.setV b).fill = s.fill := rfl
@[simp] theorem State.setV_vlen (s : State) (b : Bool) : (s.setV b).vlen = s.vlen := rfl
@[simp] theorem State.setV_plen (s : State) (b : Bool) : (s.setV b).plen = s.plen := rfl
@[simp] theorem State.setV_blen (s : State) (b : Bool) : (s.setV b).blen = s.blen := rfl
@[simp] theorem State.setV_ibuf (s : State) (b : Bool) : (s.setV b).ibuf = s.ibuf := rfl
@[simp] theorem State.setV_obuf (s : State) (b : Bool) : (s.setV b).obuf = s.obuf := rfl
@[simp] theorem State.setV_resets (s : State) (b : Bool) : (s.setV b).resets = s.resets := rfl
@[simp] theorem State.setV_pending (s : State) (b : Bool) : (s.setV b).pending = s.pending := rfl
@[simp] theorem State.setV_reply (s : State) (b : Bool) : (s.setV b).reply = s.reply := rfl

/-! ### `State.writeInfo` -/

@[simp] theorem State.writeInfo_cfg (s : State) (bs : List Byte) : (s.writeInfo bs).cfg = s.cfg := rfl
@[simp] theorem State.writeInfo_status (s : State) (bs : List Byte) :
    (s.writeInfo bs).status = { err := s.status.err, v := true, plok := plokOf (plenOf bs), hstd := hstdOf s.cfg bs, hurl := hurlOf s.cfg bs } := rfl
@[simp] theorem State.writeInfo_einfo (s : State) (bs : List Byte) : (s.writeInfo bs).einfo = s.einfo := rfl
@[simp] theorem State.writeInfo_ilen (s : State) (bs : List Byte) : (s.writeInfo bs).ilen = s.ilen := rfl
@[simp] theorem State.writeInfo_iptr (s : State) (bs : List Byte) : (s.writeInfo bs).iptr = s.iptr := rfl
@[simp] theorem State.writeInfo_optr (s : State) (bs : List Byte) : (s.writeInfo bs).optr = s.optr := rfl
@[simp] theorem State.writeInfo_res (s : State) (bs : List Byte) : (s.writeInfo bs).res = s.res := rfl
@[simp] theorem State.writeInfo_fill (s : State) (bs : List Byte) : (s.writeInfo bs).fill = word32 (fillOf bs.length) :=
    rfl
@[simp] theorem State.writeInfo_vlen (s : State) (bs : List Byte) : (s.writeInfo bs).vlen = word32 (vlenOf bs) := rfl
@[simp] theorem State.writeInfo_plen (s : State) (bs : List Byte) : (s.writeInfo bs).plen = word32 (plenOf bs) := rfl
@[simp] theorem State.writeInfo_blen (s : State) (bs : List Byte) : (s.writeInfo bs).blen = word32 (blenOf bs) := rfl
@[simp] theorem State.writeInfo_ibuf (s : State) (bs : List Byte) : (s.writeInfo bs).ibuf = s.ibuf := rfl
@[simp] theorem State.writeInfo_obuf (s : State) (bs : List Byte) : (s.writeInfo bs).obuf = s.obuf := rfl
@[simp] theorem State.writeInfo_resets (s : State) (bs : List Byte) : (s.writeInfo bs).resets = s.resets := rfl
@[simp] theorem State.writeInfo_pending (s : State) (bs : List Byte) : (s.writeInfo bs).pending = s.pending := rfl
@[simp] theorem State.writeInfo_reply (s : State) (bs : List Byte) : (s.writeInfo bs).reply = s.reply := rfl

/-! ### `State.resetEvent` -/

@[simp] theorem State.resetEvent_cfg (s : State) : (s.resetEvent).cfg = s.cfg := rfl
@[simp] theorem State.resetEvent_status (s : State) : (s.resetEvent).status = Status.reset := rfl
@[simp] theorem State.resetEvent_einfo (s : State) : (s.resetEvent).einfo = 0 := rfl
@[simp] theorem State.resetEvent_ilen (s : State) : (s.resetEvent).ilen = 0 := rfl
@[simp] theorem State.resetEvent_iptr (s : State) : (s.resetEvent).iptr = 0 := rfl
@[simp] theorem State.resetEvent_optr (s : State) : (s.resetEvent).optr = 0 := rfl
@[simp] theorem State.resetEvent_res (s : State) : (s.resetEvent).res = 0 := rfl
@[simp] theorem State.resetEvent_fill (s : State) : (s.resetEvent).fill = 0 := rfl
@[simp] theorem State.resetEvent_vlen (s : State) : (s.resetEvent).vlen = 0 := rfl
@[simp] theorem State.resetEvent_plen (s : State) : (s.resetEvent).plen = 0 := rfl
@[simp] theorem State.resetEvent_blen (s : State) : (s.resetEvent).blen = 0 := rfl
@[simp] theorem State.resetEvent_ibuf (s : State) : (s.resetEvent).ibuf = [] := rfl
@[simp] theorem State.resetEvent_obuf (s : State) : (s.resetEvent).obuf = [] := rfl
@[simp] theorem State.resetEvent_resets (s : State) : (s.resetEvent).resets = s.resets + 1 := rfl
@[simp] theorem State.resetEvent_pending (s : State) : (s.resetEvent).pending = s.pending := rfl
@[simp] theorem State.resetEvent_reply (s : State) : (s.resetEvent).reply = .idle := rfl

/-! ### `State.writeByte` -/

@[simp] theorem State.writeByte_cfg (s : State) (b : Buf) (i : Nat) (v : Byte) : (s.writeByte b i v).cfg = s.cfg := by
  cases b <;> rfl
@[simp] theorem State.writeByte_status (s : State) (b : Buf) (i : Nat) (v : Byte) : (s.writeByte b i v).status = s.status := by
  cases b <;> rfl
@[simp] theorem State.writeByte_einfo (s : State) (b : Buf) (i : Nat) (v : Byte) : (s.writeByte b i v).einfo = s.einfo := by
  cases b <;> rfl
@[simp] theorem State.writeByte_ilen (s : State) (b : Buf) (i : Nat) (v : Byte) : (s.writeByte b i v).ilen = s.ilen := by
  cases b <;> rfl
@[simp] theorem State.writeByte_iptr (s : State) (b : Buf) (i : Nat) (v : Byte) : (s.writeByte b i v).iptr = s.iptr := by
  cases b <;> rfl
@[simp] theorem State.writeByte_optr (s : State) (b : Buf) (i : Nat) (v : Byte) : (s.writeByte b i v).optr = s.optr := by
  cases b <;> rfl
@[simp] theorem State.writeByte_res (s : State) (b : Buf) (i : Nat) (v : Byte) : (s.writeByte b i v).res = s.res := by
  cases b <;> rfl
@[simp] theorem State.writeByte_fill (s : State) (b : Buf) (i : Nat) (v : Byte) : (s.writeByte b i v).fill = s.fill := by
  cases b <;> rfl
@[simp] theorem State.writeByte_vlen (s : State) (b : Buf) (i : Nat) (v : Byte) : (s.writeByte b i v).vlen = s.vlen := by
  cases b <;> rfl
@[simp] theorem State.writeByte_plen (s : State) (b : Buf) (i : Nat) (v : Byte) : (s.writeByte b i v).plen = s.plen := by
  cases b <;> rfl
@[simp] theorem State.writeByte_blen (s : State) (b : Buf) (i : Nat) (v : Byte) : (s.writeByte b i v).blen = s.blen := by
  cases b <;> rfl
@[simp] theorem State.writeByte_resets (s : State) (b : Buf) (i : Nat) (v : Byte) : (s.writeByte b i v).resets = s.resets := by
  cases b <;> rfl
@[simp] theorem State.writeByte_pending (s : State) (b : Buf) (i : Nat) (v : Byte) : (s.writeByte b i v).pending = s.pending := by
  cases b <;> rfl
@[simp] theorem State.writeByte_reply (s : State) (b : Buf) (i : Nat) (v : Byte) : (s.writeByte b i v).reply = s.reply := by
  cases b <;> rfl

/-! ### The views of the state -/

@[simp] theorem State.mem_ibuf (s : State) : s.mem .ibuf = s.ibuf := rfl
@[simp] theorem State.mem_obuf (s : State) : s.mem .obuf = s.obuf := rfl
theorem State.advance_eq (s : State) (n m : Nat) :
    s.advance n m = s.setCursors (s.iptr.toNat + n) (s.optr.toNat + m) := rfl
theorem State.afterFault_of_raise (s : State) (f : FaultCode) (info : Word) : s.raise f info = s.afterFault f.code info := rfl

end Sys2Proof.Machine
end

