-- ==== Sys2Proof/Laws/Memory.lean ====
section
/-! SUPPORT. The laws of a buffer's memory: read after write, the canonical form, equal memories are equal data, and the
same for the bytes of the state. -/

namespace Sys2Proof.Machine

/-! ### Read after write -/

@[simp] theorem Memory.get_nil (i : Nat) : Memory.get [] i = none := rfl

theorem Memory.get_cons (k : Nat) (x : Byte) (m : Memory) (i : Nat) :
    Memory.get ((k, x) :: m) i = if i = k then some x else Memory.get m i := by
  by_cases h : i = k <;> simp [Memory.get, List.lookup, h]
  have : (i == k) = false := by simpa using h
  simp [this]

/-- A read after a write to the same place gives the value written, and a write leaves every other place alone; for every
list, in canonical form or not. -/
theorem Memory.get_put (m : Memory) (i j : Nat) (v : Byte) :
    Memory.get (Memory.put i v m) j = if j = i then some v else Memory.get m j := by
  induction m with
  | nil => simp [Memory.put, Memory.get_cons]
  | cons c rest ih =>
    obtain ⟨k, x⟩ := c
    simp only [Memory.put]
    by_cases h1 : i < k
    · simp [h1, Memory.get_cons]
    · by_cases h2 : i = k
      · subst h2
        by_cases h3 : j = i <;> simp [Memory.get_cons, h3]
      · simp only [h1, h2, if_false, Memory.get_cons, ih]
        by_cases h3 : j = k
        · subst h3; simp [Ne.symm h2]
        · simp [h3]

/-- Read after a run of writes: the byte of the run inside it, the old byte outside it. -/
theorem Memory.get_putAll (vs : List Byte) (m : Memory) (i j : Nat) :
    Memory.get (Memory.putAll i vs m) j = if i ≤ j ∧ j < i + vs.length then vs[j - i]? else Memory.get m j := by
  induction vs generalizing i m with
  | nil => simp [Memory.putAll]
  | cons v vs ih =>
    simp only [Memory.putAll, ih, Memory.get_put, List.length_cons]
    by_cases h1 : j = i
    · subst h1; simp
    · by_cases h2 : i + 1 ≤ j ∧ j < i + 1 + vs.length
      · rw [if_pos h2, if_pos (by omega)]
        obtain ⟨d, hd⟩ : ∃ d, j - i = d + 1 := ⟨j - i - 1, by omega⟩
        have : j - (i + 1) = d := by omega
        rw [hd, this, List.getElem?_cons_succ]
      · rw [if_neg h2, if_neg h1, if_neg (by omega)]

theorem Memory.putAll_append (xs ys : List Byte) (m : Memory) (i : Nat) :
    Memory.putAll i (xs ++ ys) m = Memory.putAll (i + xs.length) ys (Memory.putAll i xs m) := by
  induction xs generalizing i m with
  | nil => simp [Memory.putAll]
  | cons x xs ih =>
    simp only [List.cons_append, Memory.putAll, ih, List.length_cons]
    congr 1
    omega

/-! ### The canonical form -/

/-- The first listed index, if any, is above `n`. -/
def Memory.above (n : Nat) : Memory → Bool
  | []          => true
  | (k, _) :: _ => decide (n < k)

theorem Memory.wf_cons (k : Nat) (x : Byte) (m : Memory) :
    Memory.wf ((k, x) :: m) = (Memory.above k m && Memory.wf m) := by
  cases m with
  | nil => rfl
  | cons c rest => rfl

theorem Memory.above_put (n i : Nat) (v : Byte) (m : Memory) (hn : n < i) (h : Memory.above n m = true) :
    Memory.above n (Memory.put i v m) = true := by
  cases m with
  | nil => simpa [Memory.put, Memory.above] using hn
  | cons c rest =>
    obtain ⟨k, x⟩ := c
    simp only [Memory.above, decide_eq_true_eq] at h
    simp only [Memory.put]
    split
    · simpa [Memory.above] using hn
    · split <;> simpa [Memory.above] using (by omega)

theorem Memory.wf_put (i : Nat) (v : Byte) (m : Memory) (h : Memory.wf m = true) : Memory.wf (Memory.put i v m) = true := by
  induction m with
  | nil => rfl
  | cons c rest ih =>
    obtain ⟨k, x⟩ := c
    have h' := h
    rw [Memory.wf_cons, Bool.and_eq_true] at h
    simp only [Memory.put]
    by_cases h1 : i < k
    · rw [if_pos h1, Memory.wf_cons, h']
      simpa [Memory.above] using h1
    · by_cases h2 : i = k
      · rw [if_neg h1, if_pos h2, Memory.wf_cons, h2, h.1, h.2]; rfl
      · rw [if_neg h1, if_neg h2, Memory.wf_cons, ih h.2, Memory.above_put k i v rest (by omega) h.1]; rfl

theorem Memory.wf_putAll (vs : List Byte) (i : Nat) (m : Memory) (h : Memory.wf m = true) :
    Memory.wf (Memory.putAll i vs m) = true := by
  induction vs generalizing i m with
  | nil => exact h
  | cons v vs ih => exact ih _ _ (Memory.wf_put i v m h)

theorem Memory.below_put (n i : Nat) (v : Byte) (m : Memory) (hi : i < n) (h : Memory.below n m = true) :
    Memory.below n (Memory.put i v m) = true := by
  induction m with
  | nil => simpa [Memory.put, Memory.below] using hi
  | cons c rest ih =>
    obtain ⟨k, x⟩ := c
    simp only [Memory.below, List.all_cons, Bool.and_eq_true, decide_eq_true_eq] at h ih ⊢
    simp only [Memory.put]
    split
    · simp [hi, h.1, h.2]
    · split
      · simp [hi, h.2]
      · simp [h.1, ih h.2]

theorem Memory.below_putAll (n : Nat) (vs : List Byte) (i : Nat) (m : Memory) (hi : i + vs.length ≤ n)
    (h : Memory.below n m = true) : Memory.below n (Memory.putAll i vs m) = true := by
  induction vs generalizing i m with
  | nil => exact h
  | cons v vs ih =>
    simp only [List.length_cons] at hi
    exact ih _ _ (by omega) (Memory.below_put n i v m (by omega) h)

/-! ### Equal memories are equal data -/

theorem Memory.get_of_above (n : Nat) (m : Memory) (hw : Memory.wf m = true) (h : Memory.above n m = true) (j : Nat)
    (hj : j ≤ n) : Memory.get m j = none := by
  induction m generalizing n with
  | nil => rfl
  | cons c rest ih =>
    obtain ⟨k, x⟩ := c
    rw [Memory.wf_cons, Bool.and_eq_true] at hw
    simp only [Memory.above, decide_eq_true_eq] at h
    rw [Memory.get_cons, if_neg (by omega)]
    exact ih k hw.2 hw.1 (by omega)

/-- Two memories in canonical form that read alike at every index are the same list. -/
theorem Memory.ext (m m' : Memory) (hw : Memory.wf m = true) (hw' : Memory.wf m' = true)
    (h : ∀ i, Memory.get m i = Memory.get m' i) : m = m' := by
  induction m generalizing m' with
  | nil =>
    cases m' with
    | nil => rfl
    | cons c rest =>
      obtain ⟨k, x⟩ := c
      have := h k
      simp [Memory.get_cons] at this
  | cons c rest ih =>
    obtain ⟨k, x⟩ := c
    cases m' with
    | nil =>
      have := h k
      simp [Memory.get_cons] at this
    | cons c' rest' =>
      obtain ⟨k', x'⟩ := c'
      rw [Memory.wf_cons, Bool.and_eq_true] at hw hw'
      have hk : k = k' := by
        have h1 := h k
        have h2 := h k'
        by_contra hne
        rw [Memory.get_cons, Memory.get_cons, if_pos rfl, if_neg hne] at h1
        rw [Memory.get_cons, Memory.get_cons, if_pos rfl, if_neg (Ne.symm hne)] at h2
        by_cases hlt : k < k'
        · rw [Memory.get_of_above k' rest' hw'.2 hw'.1 k (by omega)] at h1
          exact absurd h1 (by simp)
        · rw [Memory.get_of_above k rest hw.2 hw.1 k' (by omega)] at h2
          exact absurd h2 (by simp)
      subst hk
      have hx : x = x' := by
        have := h k
        simpa [Memory.get_cons] using this
      subst hx
      congr 1
      refine ih rest' hw.2 hw'.2 (fun i => ?_)
      by_cases hi : i = k
      · subst hi
        rw [Memory.get_of_above i rest hw.2 hw.1 i (Nat.le_refl i),
          Memory.get_of_above i rest' hw'.2 hw'.1 i (Nat.le_refl i)]
      · have := h i
        simpa [Memory.get_cons, hi] using this

/-! ### The bytes of the state -/

/-- What a read of a byte depends on: the buffer's memory and the reset counter. -/
theorem State.readByte_congr (s t : State) (b : Buf) (i : Nat) (hm : t.mem b = s.mem b) (hr : t.resets = s.resets) :
    t.readByte b i = s.readByte b i := by
  simp [State.readByte, hm, hr]

theorem State.readByte_writeObuf_ibuf (s : State) (i : Nat) (vs : List Byte) (j : Nat) :
    (s.writeObuf i vs).readByte .ibuf j = s.readByte .ibuf j := rfl

/-- Everything a run of bytes written to OBUF does to the bytes of OBUF. -/
theorem State.readByte_writeObuf (s : State) (i : Nat) (vs : List Byte) (j : Nat) :
    (s.writeObuf i vs).readByte .obuf j =
      if i ≤ j ∧ j < i + vs.length then vs.getD (j - i) 0 else s.readByte .obuf j := by
  simp only [State.readByte, State.mem_obuf, State.writeObuf_obuf, Memory.get_putAll, State.writeObuf_resets]
  split
  · next h =>
    have : j - i < vs.length := by omega
    simp [List.getD, this]
  · rfl

/-- Everything BufWrite does to the bytes of the buffers. -/
theorem State.readByte_writeByte (s : State) (b b' : Buf) (i j : Nat) (v : Byte) :
    (s.writeByte b i v).readByte b' j = if b' = b ∧ j = i then v else s.readByte b' j := by
  cases b <;> cases b' <;> simp [State.readByte, State.writeByte, State.mem, Memory.get_put] <;> split <;> simp_all

end Sys2Proof.Machine
end

