-- ==== Sys2Proof/Laws/Datapath.lean ====
section
/-! SUPPORT. The small laws of the ROMs, of the pack and unpack datapath and of the inspector's numbers: what each puts out
and how long it is. -/

namespace Sys2Proof.Machine

/-! ### ROMs -/

theorem rev_fwd : ∀ i : Symbol, rev (fwd i) = ⟨true, i⟩ := by decide

theorem rev_fwdu (i : Symbol) (u : Alphabet) : rev (fwdu i u) = ⟨true, i⟩ := by
  revert i
  cases u <;> decide

/-- `=` is in no alphabet. -/
theorem rev_padChar : (rev padChar).hit = false := by decide

theorem fwdu_ne_padChar (i : Symbol) (u : Alphabet) : fwdu i u ≠ padChar := fun h => by
  have := rev_fwdu i u
  rw [h] at this
  exact absurd ((congrArg RevEntry.hit this).symm.trans rev_padChar) (by simp)

/-- A character has a reverse entry exactly when its class is ALNUM, STD or URL (rule R23). -/
theorem hit_iff_cls (cfg : Config) (c : Byte) :
    (rev c).hit = true ↔ cls cfg c = .alnum ∨ cls cfg c = .std ∨ cls cfg c = .url := by
  unfold cls
  split
  · next h => rcases h with h | h <;> subst h <;> decide
  · split
    · next h => rcases h with h | h <;> subst h <;> decide
    · split
      · next h => simp [h]
      · next h => split <;> (try split) <;> simp [h]

/-- Codes 0x80..0xFF have class OTHER, whatever WS_SET is (00_scope.md rule R11). -/
theorem cls_high (cfg : Config) (c : Byte) (h : 0x80 ≤ c) : cls cfg c = .other := by
  have hr : ∀ b : Byte, 0x80 ≤ b → (rev b).hit = false ∧ b ≠ padChar ∧ ¬ (b = 0x2B ∨ b = 0x2F) ∧ ¬ (b = 0x2D ∨ b = 0x5F) := by
    decide +kernel
  obtain ⟨h1, h2, h3, h4⟩ := hr c h
  unfold cls
  rw [if_neg h3, if_neg h4, if_neg (by simp [h1]), if_neg h2, if_neg]
  rintro ⟨h5, -⟩
  bv_omega

theorem cls_padChar (cfg : Config) : cls cfg padChar = .pad := by
  unfold cls
  rw [if_neg (by decide), if_neg (by decide), if_neg (by decide), if_pos rfl]

theorem cls_eq_pad (cfg : Config) (c : Byte) : cls cfg c = .pad ↔ c = padChar := by
  constructor
  · intro h
    unfold cls at h
    split at h
    · cases h
    · split at h
      · cases h
      · split at h
        · cases h
        · split at h
          · assumption
          · split at h <;> cases h
  · rintro rfl
    exact cls_padChar cfg

/-! ### Lengths of the encoder's output -/

@[simp] theorem tailPad_length (u : Alphabet) (n : Nat) :
    (tailPad u n).length = match u with | .standard => n | .urlSafe => 0 := by
  cases u <;> simp [tailPad]

@[simp] theorem enc3Text_length (u : Alphabet) (b0 b1 b2 : Byte) : (enc3Text u b0 b1 b2).length = 4 := rfl

@[simp] theorem enc2Text_length (u : Alphabet) (b0 b1 : Byte) : (enc2Text u b0 b1).length = tailLen u 2 := by
  cases u <;> rfl

@[simp] theorem enc1Text_length (u : Alphabet) (b : Byte) : (enc1Text u b).length = tailLen u 1 := by
  cases u <;> rfl

/-- ENCODE puts out exactly as many characters as rule R146 says. -/
theorem encodeText_length (u : Alphabet) (bs : List Byte) : (encodeText u bs).length = encodeLen u bs.length := by
  match bs with
  | [] => rfl
  | [_] => simp [encodeText, encodeLen]
  | [_, _] => simp [encodeText, encodeLen]
  | b0 :: b1 :: b2 :: rest =>
    simp only [encodeText, List.length_append, enc3Text_length, encodeText_length u rest, List.length_cons, encodeLen]
    have h1 : (rest.length + 1 + 1 + 1) / 3 = rest.length / 3 + 1 := by omega
    have h2 : (rest.length + 1 + 1 + 1) % 3 = rest.length % 3 := by omega
    rw [h1, h2]
    omega

/-! ### The decoder -/

@[simp] theorem dec4Bytes_length (c0 c1 c2 c3 : Byte) : (dec4Bytes c0 c1 c2 c3).length = 3 := rfl
@[simp] theorem dec3Bytes_length (c0 c1 c2 : Byte) : (dec3Bytes c0 c1 c2).length = 2 := rfl
@[simp] theorem dec2Bytes_length (c0 c1 : Byte) : (dec2Bytes c0 c1).length = 1 := rfl

/-- What `firstMiss` finds: no miss, or the least index of one. -/
theorem firstMiss_eq_none (cs : List Byte) : firstMiss cs = none ↔ ∀ c ∈ cs, (rev c).hit = true := by
  simp [firstMiss]

theorem firstMiss_eq_some (cs : List Byte) (j : Nat) :
    firstMiss cs = some j ↔
      ∃ h : j < cs.length, (rev cs[j]).hit = false ∧ ∀ k (hk : k < j), (rev (cs[k]'(by omega))).hit = true := by
  simp [firstMiss, List.findIdx?_eq_some_iff_getElem]

/-- The full groups of `4 * n` characters give `3 * n` bytes. -/
theorem decodeFull_length (n base : Nat) (cs out : List Byte) (hn : cs.length = 4 * n)
    (h : decodeFull base cs = .ok out) : out.length = 3 * n := by
  induction n generalizing base cs out with
  | zero =>
    obtain rfl : cs = [] := List.length_eq_zero_iff.1 (by omega)
    simp only [decodeFull, Except.ok.injEq] at h
    simp [← h]
  | succ n ih =>
    match cs, hn with
    | c0 :: c1 :: c2 :: c3 :: rest, hn =>
      simp only [decodeFull] at h
      split at h
      · cases h
      · split at h
        · cases h
        · next out' hr =>
          cases h
          have := ih (base + 4) rest out' (by simp only [List.length_cons] at hn; omega) hr
          simp only [List.length_append, dec4Bytes_length, this]
          omega
    | [], hn => simp only [List.length_nil] at hn; omega
    | [_], hn => simp only [List.length_cons, List.length_nil] at hn; omega
    | [_, _], hn => simp only [List.length_cons, List.length_nil] at hn; omega
    | [_, _, _], hn => simp only [List.length_cons, List.length_nil] at hn; omega

/-- The tail of a group of four characters gives `3 - PLEN` bytes, or none when PLEN is 0 (rule R196). -/
theorem decodeTail_length (base plen : Nat) (cs out : List Byte) (hp : plen ≤ 2) (hl : plen ≠ 0 → cs.length = 4)
    (h : decodeTail base plen cs = .ok out) : out.length = if plen = 0 then 0 else 3 - plen := by
  match plen, hp with
  | 0, _ =>
    simp only [decodeTail, Except.ok.injEq] at h
    simp [← h]
  | 1, _ =>
    obtain ⟨c0, c1, c2, c3, rfl⟩ := List.length_eq_four.1 (hl (by omega))
    simp only [decodeTail] at h
    split at h
    · cases h
    · cases h; rfl
  | 2, _ =>
    obtain ⟨c0, c1, c2, c3, rfl⟩ := List.length_eq_four.1 (hl (by omega))
    simp only [decodeTail] at h
    split at h
    · cases h
    · cases h; rfl

/-! ### The inspector (rules R171 to R174) -/

theorem fillOf_lt (n : Nat) : fillOf n < 4 := by unfold fillOf; omega

theorem fillOf_whole (n : Nat) : (n + fillOf n) % 4 = 0 := by unfold fillOf; omega

@[simp] theorem padded_length (bs : List Byte) : (padded bs).length = bs.length + fillOf bs.length := by simp [padded]

theorem padded_length_mod (bs : List Byte) : (padded bs).length % 4 = 0 := by
  rw [padded_length]
  exact fillOf_whole _

theorem vlenOf_le (bs : List Byte) : vlenOf bs ≤ (padded bs).length := List.findIdx_le_length

/-- "`VLENv + PLENv = L`" (rule R173). -/
theorem vlenOf_add_plenOf (bs : List Byte) : vlenOf bs + plenOf bs = (padded bs).length := by
  have := vlenOf_le bs
  unfold plenOf
  omega

/-- The padded view is IN at every index below L (rule R73). -/
theorem padded_getElem (bs : List Byte) (i : Nat) (h : i < (padded bs).length) : (padded bs)[i] = viewAt bs i := by
  simp only [padded, viewAt, List.getElem_append, List.getD_eq_getElem?_getD]
  split
  · next h' => simp [h']
  · next h' => simp [h']

/-- No `=` stands below VLEN in the padded view. -/
theorem view_lt_vlenOf (bs : List Byte) (i : Nat) (h : i < vlenOf bs) : viewAt bs i ≠ padChar := by
  have hl : i < (padded bs).length := by have := vlenOf_le bs; omega
  have := List.not_of_lt_findIdx (p := fun c => c == padChar) h
  rw [padded_getElem bs i hl] at this
  simpa using this

/-- A `=` stands at VLEN in the padded view, if VLEN is not its end. -/
theorem view_vlenOf (bs : List Byte) (h : vlenOf bs < (padded bs).length) : viewAt bs (vlenOf bs) = padChar := by
  have : ((padded bs)[vlenOf bs] == padChar) = true := List.findIdx_getElem (p := fun c => c == padChar) (w := h)
  rw [padded_getElem bs _ h] at this
  simpa using this

/-- VLEN is at most the input's length: the fill `=` stand from there on (rule R172). -/
theorem vlenOf_le_length (bs : List Byte) : vlenOf bs ≤ bs.length := by
  by_contra hc
  refine view_lt_vlenOf bs bs.length (by omega) ?_
  simp [viewAt]

/-- With a padding length of at most 2 the decoded length is `3 * (L / 4) - PLEN` (rule R196). -/
theorem blenOf_eq (bs : List Byte) (h : plenOf bs ≤ 2) :
    blenOf bs + plenOf bs = 3 * ((padded bs).length / 4) ∧ blenOf bs ≤ (padded bs).length := by
  have h1 := vlenOf_add_plenOf bs
  have h2 := padded_length_mod bs
  unfold blenOf
  rw [if_pos h, h1]
  omega

/-- A successful decode puts out BLEN bytes: "len out = BLENv" (rule R191). -/
theorem decodeText_length (bs out : List Byte) (hp : plenOf bs ≤ 2)
    (h : decodeText (padded bs) (plenOf bs) = .ok out) : out.length = blenOf bs := by
  have hb := (blenOf_eq bs hp).1
  have hm := padded_length_mod bs
  have hv := vlenOf_add_plenOf bs
  simp only [decodeText] at h
  split at h
  · cases h
  · next full hfull =>
    split at h
    · cases h
    · next last hlast =>
      cases h
      have hlen : (List.take (4 * fullGroups (padded bs).length (plenOf bs)) (padded bs)).length =
          4 * fullGroups (padded bs).length (plenOf bs) := by
        rw [List.length_take]
        unfold fullGroups
        split <;> omega
      have hf := decodeFull_length _ _ _ _ hlen hfull
      have hd : plenOf bs ≠ 0 →
          (List.drop (4 * fullGroups (padded bs).length (plenOf bs)) (padded bs)).length = 4 := fun h0 => by
        rw [List.length_drop]
        unfold fullGroups
        rw [if_neg h0]
        omega
      have ht := decodeTail_length _ _ _ _ hp hd hlast
      rw [List.length_append, hf, ht]
      unfold fullGroups
      split <;> omega

end Sys2Proof.Machine
end

