-- ==== Sys2Proof/Laws/Bits.lean ====
section
/-! SUPPORT. The pack and unpack datapath in the bit-by-bit forms of Safety.lean (41_encode.md rules R140 to R142,
44_decode.md rules R185 to R187), and the text and bytes of one group in those forms. -/

namespace Sys2Proof.Machine

/-! ### Concatenation as a shift -/

theorem append_2_4 : ∀ (a : BitVec 2) (b : BitVec 4), a ++ b = (a.setWidth 6 <<< 4) ||| b.setWidth 6 := by decide

theorem append_4_2 : ∀ (a : BitVec 4) (b : BitVec 2), a ++ b = (a.setWidth 6 <<< 2) ||| b.setWidth 6 := by decide

theorem append_6_2 : ∀ (a : BitVec 6) (b : BitVec 2), a ++ b = (a.setWidth 8 <<< 2) ||| b.setWidth 8 := by decide

theorem append_2_6 : ∀ (a : BitVec 2) (b : BitVec 6), a ++ b = (a.setWidth 8 <<< 6) ||| b.setWidth 8 := by decide

theorem append_4_4 : ∀ (a : BitVec 4) (b : BitVec 4), a ++ b = (a.setWidth 8 <<< 4) ||| b.setWidth 8 := by decide

/-- Two symbols with the same six bits are equal. -/
theorem symbol_ext (a b : Symbol) (h0 : a.getLsbD 0 = b.getLsbD 0) (h1 : a.getLsbD 1 = b.getLsbD 1)
    (h2 : a.getLsbD 2 = b.getLsbD 2) (h3 : a.getLsbD 3 = b.getLsbD 3) (h4 : a.getLsbD 4 = b.getLsbD 4)
    (h5 : a.getLsbD 5 = b.getLsbD 5) : a = b := by
  refine BitVec.eq_of_getLsbD_eq fun i hi => ?_
  rcases (by omega : i = 0 ∨ i = 1 ∨ i = 2 ∨ i = 3 ∨ i = 4 ∨ i = 5) with rfl | rfl | rfl | rfl | rfl | rfl <;> assumption

/-- Two bytes with the same eight bits are equal. -/
theorem byte_ext (a b : Byte) (h0 : a.getLsbD 0 = b.getLsbD 0) (h1 : a.getLsbD 1 = b.getLsbD 1)
    (h2 : a.getLsbD 2 = b.getLsbD 2) (h3 : a.getLsbD 3 = b.getLsbD 3) (h4 : a.getLsbD 4 = b.getLsbD 4)
    (h5 : a.getLsbD 5 = b.getLsbD 5) (h6 : a.getLsbD 6 = b.getLsbD 6) (h7 : a.getLsbD 7 = b.getLsbD 7) : a = b := by
  refine BitVec.eq_of_getLsbD_eq fun i hi => ?_
  rcases (by omega : i = 0 ∨ i = 1 ∨ i = 2 ∨ i = 3 ∨ i = 4 ∨ i = 5 ∨ i = 6 ∨ i = 7) with
    rfl | rfl | rfl | rfl | rfl | rfl | rfl | rfl <;> assumption

/-! ### One group of characters -/

theorem enc3Text_eq_spell (u : Alphabet) (b0 b1 b2 : Byte) : enc3Text u b0 b1 b2 = spell u (slices3 b0 b1 b2) 0 := by
  have h : [(pack3 b0 b1 b2).1, (pack3 b0 b1 b2).2.1, (pack3 b0 b1 b2).2.2.1, (pack3 b0 b1 b2).2.2.2] =
      slices3 b0 b1 b2 := by
    simp only [pack3, packWord, slices3, List.cons.injEq, and_true, append_2_4, append_4_2]
    refine ⟨?_, ?_, ?_, ?_⟩ <;> apply symbol_ext <;> simp
  rw [← h]
  cases u <;> simp [spell, enc3Text]

theorem enc2Text_eq_spell (u : Alphabet) (b0 b1 : Byte) : enc2Text u b0 b1 = spell u (slices2 b0 b1) 1 := by
  have h : [(pack2 b0 b1).1, (pack2 b0 b1).2.1, (pack2 b0 b1).2.2] = slices2 b0 b1 := by
    simp only [pack2, slices2, List.cons.injEq, and_true, append_2_4, append_4_2]
    refine ⟨?_, ?_, ?_⟩ <;> apply symbol_ext <;> simp
  rw [← h]
  cases u <;> simp [spell, enc2Text, tailPad, padChar]

theorem enc1Text_eq_spell (u : Alphabet) (b : Byte) : enc1Text u b = spell u (slices1 b) 2 := by
  have h : [(pack1 b).1, (pack1 b).2] = slices1 b := by revert b; decide
  rw [← h]
  cases u <;> simp [spell, enc1Text, tailPad, padChar]

/-! ### One group of bytes -/

theorem dec4Bytes_eq_join4 (c0 c1 c2 c3 : Byte) :
    dec4Bytes c0 c1 c2 c3 = join4 (rev c0).val (rev c1).val (rev c2).val (rev c3).val := by
  simp only [dec4Bytes, symVal, unpack4, join4, List.cons.injEq, and_true, append_6_2, append_4_4, append_2_6]
  refine ⟨?_, ?_, ?_⟩ <;> apply byte_ext <;> simp

theorem dec3Bytes_eq_join3 (c0 c1 c2 : Byte) : dec3Bytes c0 c1 c2 = join3 (rev c0).val (rev c1).val (rev c2).val := by
  simp only [dec3Bytes, symVal, unpack3, join3, List.cons.injEq, and_true, append_6_2, append_4_4]
  refine ⟨?_, ?_⟩ <;> apply byte_ext <;> simp

theorem dec2Bytes_eq_join2 (c0 c1 : Byte) : dec2Bytes c0 c1 = join2 (rev c0).val (rev c1).val := by
  simp only [dec2Bytes, symVal, unpack2, join2, List.cons.injEq, and_true, append_6_2]
  apply byte_ext <;> simp

end Sys2Proof.Machine
end

