-- ==== Sys2Proof/Laws/Operands.lean ====
section
/-! SUPPORT. What the operands of a command are in terms of the state's registers and bytes, and that they depend on the
operands only. -/

namespace Sys2Proof.Machine

@[simp] theorem State.input_length (s : State) : s.input.length = s.ilen.toNat := by simp [State.input]

theorem State.input_getElem (s : State) (i : Nat) (h : i < s.input.length) : s.input[i] = s.readByte .ibuf i := by
  simp [State.input, State.readIbuf]

theorem State.input_eq_inputBytes (s : State) : s.input = s.inputBytes := rfl

theorem State.mem_input (s : State) (c : Byte) :
    c ∈ s.input ↔ ∃ i, i < s.ilen.toNat ∧ s.readByte .ibuf i = c := by
  simp [State.input, State.readIbuf]

/-- IN, over the input's bytes and over the state (rule R73). -/
theorem State.viewAt_input (s : State) (i : Nat) : viewAt s.input i = s.viewIn i := by
  unfold viewAt State.viewIn
  by_cases h : i < s.ilen.toNat
  · have : i < s.input.length := by simpa using h
    rw [List.getD_eq_getElem?_getD, List.getElem?_eq_getElem this, if_pos h, Option.getD_some, State.input_getElem]
  · have : s.input.length ≤ i := by simpa using h
    rw [List.getD_eq_getElem?_getD, List.getElem?_eq_none this, if_neg h]
    rfl

theorem State.padded_input_length (s : State) : (padded s.input).length = s.paddedLen := by
  simp [State.paddedLen, State.fillCount, fillOf]

/-- `vlenOf` computes the valid-character length of rule R172, and there is only one. -/
theorem State.isVlen_iff (s : State) (v : Nat) : IsVlen s v ↔ v = vlenOf s.input := by
  have hl := State.padded_input_length s
  have hle := vlenOf_le s.input
  have hlt := fun i h => State.viewAt_input s i ▸ view_lt_vlenOf s.input i h
  have hat := fun h => State.viewAt_input s (vlenOf s.input) ▸ view_vlenOf s.input h
  rw [hl] at hle hat
  constructor
  · rintro ⟨h1, h2, h3⟩
    rcases Nat.lt_trichotomy v (vlenOf s.input) with h | h | h
    · exact absurd (h3 (by omega)) (hlt v h)
    · exact h
    · exact absurd (hat (by omega)) (h2 _ h)
  · rintro rfl
    exact ⟨hle, hlt, hat⟩

theorem State.plenOf_input (s : State) : plenOf s.input = s.paddedLen - vlenOf s.input := by
  rw [← State.padded_input_length]
  rfl

theorem inputTooLong_iff (s : State) : s.inputTooLong = true ↔ s.cfg.nbuf < s.ilen.toNat := by
  simp [State.inputTooLong]

theorem inputShort_iff (s : State) (n : Nat) :
    s.inputShort n = true ↔ s.cfg.nbuf < s.ilen.toNat ∨ s.ilen.toNat < s.iptr.toNat + n := by
  simp [State.inputShort, State.inputTooLong]

theorem outputFull_iff (s : State) (m : Nat) : s.outputFull m = true ↔ s.cfg.nbuf < s.optr.toNat + m := by
  simp [State.outputFull]

/-- The legal range of NBUF (rule R4). -/
theorem configWf_nbuf (c : Config) (h : c.wf = true) : 12 ≤ c.nbuf ∧ c.nbuf ≤ 65532 := by
  simp only [Sys2Proof.Config.wf, Bool.and_eq_true, decide_eq_true_eq] at h
  exact h.1

/-- A number below 2^32 is the value of its register word. -/
theorem word32_toNat (n : Nat) (h : n < 4294967296) : (word32 n).toNat = n := by
  simp [word32, Nat.mod_eq_of_lt h]

/-! ### Operands depend on the operands only (90_conflicts.md C8) -/

theorem SameOperands.input (s s' : State) (h : SameOperands s s') : s'.input = s.input := by
  unfold State.input State.readIbuf
  rw [h.ilen]
  refine List.map_congr_left (fun i hi => h.ibuf i ?_)
  simpa using hi

theorem SameOperands.atCursor (s s' : State) (h : SameOperands s s') (k : Nat) (hk : s.iptr.toNat + k < s.ilen.toNat) :
    s'.atCursor k = s.atCursor k := by
  unfold State.atCursor State.readIbuf
  rw [h.iptr]
  exact h.ibuf _ hk

end Sys2Proof.Machine
end

