-- ==== Sys2Proof/Laws/Codec.lean ====
section
/-! SUPPORT. What the whole-buffer encoder and decoder put out, group by group (41_encode.md rule R146, 44_decode.md rule
R191). -/

namespace Sys2Proof.Machine

/-! ### The decoder -/

theorem firstMiss_append (xs ys : List Byte) :
    firstMiss (xs ++ ys) = (firstMiss xs).or ((firstMiss ys).map (· + xs.length)) := by
  simp [firstMiss, List.findIdx?_append]

/-- The full groups of `4 * n` characters: the least miss among them, or the three bytes of every group. -/
theorem decodeFull_spec (n base : Nat) (cs : List Byte) (hn : cs.length = 4 * n) :
    (∀ j, firstMiss cs = some j → decodeFull base cs = .error (base + j)) ∧
    (firstMiss cs = none → ∃ out, decodeFull base cs = .ok out ∧ out.length = 3 * n ∧
      ∀ g, g < n → ∀ k, k < 3 → out[3 * g + k]? =
        (dec4Bytes (cs.getD (4 * g) 0) (cs.getD (4 * g + 1) 0) (cs.getD (4 * g + 2) 0) (cs.getD (4 * g + 3) 0))[k]?) := by
  induction n generalizing base cs with
  | zero =>
    obtain rfl : cs = [] := List.length_eq_zero_iff.1 (by omega)
    exact ⟨fun j h => by simp [firstMiss] at h, fun _ => ⟨[], rfl, rfl, fun g hg => absurd hg (by omega)⟩⟩
  | succ n ih =>
    match cs, hn with
    | c0 :: c1 :: c2 :: c3 :: rest, hn =>
      have hr : rest.length = 4 * n := by simp only [List.length_cons] at hn; omega
      have happ : firstMiss (c0 :: c1 :: c2 :: c3 :: rest) =
          (firstMiss [c0, c1, c2, c3]).or ((firstMiss rest).map (· + 4)) := firstMiss_append [c0, c1, c2, c3] rest
      obtain ⟨ih1, ih2⟩ := ih (base + 4) rest hr
      rw [happ]
      simp only [decodeFull]
      cases hm : firstMiss [c0, c1, c2, c3] with
      | some j => exact ⟨fun k h => by cases h; rfl, fun h => by simp at h⟩
      | none =>
        refine ⟨fun j h => ?_, fun h => ?_⟩
        · obtain ⟨k, hk, rfl⟩ : ∃ k, firstMiss rest = some k ∧ k + 4 = j := by simpa using h
          simp only [ih1 k hk, Except.error.injEq]
          omega
        · obtain ⟨out, ho, hlen, hg⟩ := ih2 (by simpa using h)
          refine ⟨dec4Bytes c0 c1 c2 c3 ++ out, by simp only [ho], by simp [hlen]; omega, fun g hgn k hk => ?_⟩
          cases g with
          | zero =>
            rw [List.getElem?_append_left (by simp; omega)]
            simp
          | succ g =>
            rw [List.getElem?_append_right (by simp; omega)]
            have e : 3 * (g + 1) + k - (dec4Bytes c0 c1 c2 c3).length = 3 * g + k := by simp; omega
            rw [e, hg g (by omega) k hk]
            rfl
    | [], hn => simp only [List.length_nil] at hn; omega
    | [_], hn => simp only [List.length_cons, List.length_nil] at hn; omega
    | [_, _], hn => simp only [List.length_cons, List.length_nil] at hn; omega
    | [_, _, _], hn => simp only [List.length_cons, List.length_nil] at hn; omega

/-- The tail after the full groups, whose first `4 - plen` characters it reads (rules R189 to R191). -/
theorem decodeTail_spec (base plen : Nat) (cs : List Byte) (hp : plen ≤ 2) (hl : cs.length = if plen = 0 then 0 else 4) :
    (∀ j, firstMiss (cs.take (4 - plen)) = some j → decodeTail base plen cs = .error (base + j)) ∧
    (firstMiss (cs.take (4 - plen)) = none → decodeTail base plen cs = .ok (
      if plen = 0 then []
      else if plen = 1 then dec3Bytes (cs.getD 0 0) (cs.getD 1 0) (cs.getD 2 0)
      else dec2Bytes (cs.getD 0 0) (cs.getD 1 0))) := by
  match plen, hp with
  | 0, _ =>
    obtain rfl : cs = [] := List.length_eq_zero_iff.1 hl
    exact ⟨fun j h => by simp [firstMiss] at h, fun _ => rfl⟩
  | 1, _ =>
    obtain ⟨c0, c1, c2, c3, rfl⟩ := List.length_eq_four.1 hl
    simp only [decodeTail, show List.take (4 - 1) [c0, c1, c2, c3] = [c0, c1, c2] from rfl]
    exact ⟨fun j h => by simp only [h], fun h => by simp only [h]; rfl⟩
  | 2, _ =>
    obtain ⟨c0, c1, c2, c3, rfl⟩ := List.length_eq_four.1 hl
    simp only [decodeTail, show List.take (4 - 2) [c0, c1, c2, c3] = [c0, c1] from rfl]
    exact ⟨fun j h => by simp only [h], fun h => by simp only [h]; rfl⟩

/-- The decoder over a padded view of `4 * n` characters whose last `plen` are padding (rule R191): it stops at the least
miss below `4 * n - plen`, or puts out every group. -/
theorem decodeText_spec (n plen : Nat) (p : List Byte) (hn : p.length = 4 * n) (hp : plen ≤ 2) (hpn : plen ≠ 0 → 0 < n) :
    (∀ j, firstMiss (p.take (4 * n - plen)) = some j → decodeText p plen = .error j) ∧
    (firstMiss (p.take (4 * n - plen)) = none → ∃ out, decodeText p plen = .ok out ∧ out.length = 3 * n - plen ∧
      (∀ g, 4 * g + 4 + plen ≤ 4 * n → ∀ k, k < 3 → out[3 * g + k]? =
        (dec4Bytes (p.getD (4 * g) 0) (p.getD (4 * g + 1) 0) (p.getD (4 * g + 2) 0) (p.getD (4 * g + 3) 0))[k]?) ∧
      (plen = 1 → ∀ k, k < 2 → out[3 * (n - 1) + k]? =
        (dec3Bytes (p.getD (4 * n - 4) 0) (p.getD (4 * n - 3) 0) (p.getD (4 * n - 2) 0))[k]?) ∧
      (plen = 2 → out[3 * (n - 1)]? = (dec2Bytes (p.getD (4 * n - 4) 0) (p.getD (4 * n - 3) 0))[0]?)) := by
  obtain ⟨m, hm, hm4⟩ : ∃ m, fullGroups p.length plen = m ∧ (n = if plen = 0 then m else m + 1) := by
    refine ⟨_, rfl, ?_⟩
    unfold fullGroups
    by_cases h0 : plen = 0
    · simp only [h0, if_true]; omega
    · have := hpn h0
      simp only [h0, if_false]; omega
  have hlt : (p.take (4 * m)).length = 4 * m := by rw [List.length_take]; split at hm4 <;> omega
  have hld : (p.drop (4 * m)).length = if plen = 0 then 0 else 4 := by
    rw [List.length_drop]
    by_cases h0 : plen = 0
    · rw [if_pos h0] at hm4 ⊢; omega
    · rw [if_neg h0] at hm4 ⊢; omega
  obtain ⟨f1, f2⟩ := decodeFull_spec m 0 (p.take (4 * m)) hlt
  obtain ⟨t1, t2⟩ := decodeTail_spec (4 * m) plen (p.drop (4 * m)) hp hld
  have hsplit : p.take (4 * n - plen) = p.take (4 * m) ++ (p.drop (4 * m)).take (4 - plen) := by
    rw [show 4 * n - plen = 4 * m + (4 * n - plen - 4 * m) by split at hm4 <;> omega, List.take_add]
    congr 1
    by_cases h0 : plen = 0
    · rw [if_pos h0] at hld hm4
      rw [List.length_eq_zero_iff.1 hld]
      simp
    · rw [if_neg h0] at hm4
      rw [show 4 * n - plen - 4 * m = 4 - plen by omega]
  have happ := firstMiss_append (p.take (4 * m)) ((p.drop (4 * m)).take (4 - plen))
  rw [← hsplit, hlt] at happ
  rw [happ]
  unfold decodeText
  rw [hm]
  simp only []
  cases h1 : firstMiss (p.take (4 * m)) with
  | some j =>
    refine ⟨fun k h => ?_, fun h => by simp at h⟩
    obtain rfl : j = k := by simpa using h
    rw [f1 j h1]
    simp
  | none =>
    obtain ⟨full, hfull, hfl, hfg⟩ := f2 h1
    rw [hfull]
    have hgd : ∀ i, i < 4 * m → (p.take (4 * m)).getD i 0 = p.getD i 0 := fun i hi => by
      simp [List.getD_eq_getElem?_getD, List.getElem?_take_of_lt hi]
    have hdd : ∀ i, (p.drop (4 * m)).getD i 0 = p.getD (4 * m + i) 0 := fun i => by
      simp [List.getD_eq_getElem?_getD]
    cases h2 : firstMiss ((p.drop (4 * m)).take (4 - plen)) with
    | some j =>
      refine ⟨fun k h => ?_, fun h => by simp at h⟩
      obtain rfl : j + 4 * m = k := by simpa using h
      rw [t1 j h2]
      simp [Nat.add_comm]
    | none =>
      refine ⟨fun k h => by simp at h, fun _ => ?_⟩
      rw [t2 h2]
      refine ⟨_, rfl, ?_, ?_, ?_, ?_⟩
      · rw [List.length_append, hfl]
        rcases (by omega : plen = 0 ∨ plen = 1 ∨ plen = 2) with rfl | rfl | rfl
        · rw [if_pos rfl] at hm4 ⊢; simp only [List.length_nil]; omega
        · rw [if_neg (by omega)] at hm4 ⊢; rw [if_pos rfl, dec3Bytes_length]; omega
        · rw [if_neg (by omega)] at hm4 ⊢; rw [if_neg (by omega), dec2Bytes_length]; omega
      · intro g hg k hk
        have hgm : g < m := by split at hm4 <;> omega
        rw [List.getElem?_append_left (by omega), hfg g hgm k hk, hgd _ (by omega), hgd _ (by omega), hgd _ (by omega),
          hgd _ (by omega)]
      · rintro rfl k hk
        obtain rfl : n = m + 1 := by simpa using hm4
        rw [List.getElem?_append_right (by omega), if_neg (by omega), if_pos rfl]
        simp only [hdd]
        rw [show 3 * (m + 1 - 1) + k - full.length = k by omega, show 4 * (m + 1) - 4 = 4 * m + 0 by omega,
          show 4 * (m + 1) - 3 = 4 * m + 1 by omega, show 4 * (m + 1) - 2 = 4 * m + 2 by omega]
      · rintro rfl
        obtain rfl : n = m + 1 := by simpa using hm4
        rw [List.getElem?_append_right (by omega), if_neg (by omega), if_neg (by omega)]
        simp only [hdd]
        rw [show 3 * (m + 1 - 1) - full.length = 0 by omega, show 4 * (m + 1) - 4 = 4 * m + 0 by omega,
          show 4 * (m + 1) - 3 = 4 * m + 1 by omega]

/-! ### The encoder -/

/-- The encoder group by group (rule R146): four characters for each full triplet, then those of the tail. -/
theorem encodeText_spec (u : Alphabet) (bs : List Byte) :
    (∀ g, 3 * g + 3 ≤ bs.length → ∀ k, k < 4 → (encodeText u bs)[4 * g + k]? =
      (enc3Text u (bs.getD (3 * g) 0) (bs.getD (3 * g + 1) 0) (bs.getD (3 * g + 2) 0))[k]?) ∧
    (bs.length % 3 = 1 → ∀ k, (encodeText u bs)[4 * (bs.length / 3) + k]? =
      (enc1Text u (bs.getD (3 * (bs.length / 3)) 0))[k]?) ∧
    (bs.length % 3 = 2 → ∀ k, (encodeText u bs)[4 * (bs.length / 3) + k]? =
      (enc2Text u (bs.getD (3 * (bs.length / 3)) 0) (bs.getD (3 * (bs.length / 3) + 1) 0))[k]?) := by
  match bs with
  | [] => exact ⟨fun g h => absurd h (by simp), fun h => absurd h (by simp), fun h => absurd h (by simp)⟩
  | [b0] => exact ⟨fun g h => absurd h (by simp), fun _ k => by simp [encodeText], fun h => absurd h (by simp)⟩
  | [b0, b1] => exact ⟨fun g h => absurd h (by simp), fun h => absurd h (by simp), fun _ k => by simp [encodeText]⟩
  | b0 :: b1 :: b2 :: rest =>
    obtain ⟨i1, i2, i3⟩ := encodeText_spec u rest
    have hlen : (b0 :: b1 :: b2 :: rest).length = rest.length + 3 := rfl
    have hq : (rest.length + 3) / 3 = rest.length / 3 + 1 := by omega
    have hm : (rest.length + 3) % 3 = rest.length % 3 := by omega
    have hskip : ∀ g k, (encodeText u (b0 :: b1 :: b2 :: rest))[4 * (g + 1) + k]? = (encodeText u rest)[4 * g + k]? :=
      fun g k => by
        show (enc3Text u b0 b1 b2 ++ encodeText u rest)[4 * (g + 1) + k]? = _
        rw [List.getElem?_append_right (by rw [enc3Text_length]; omega), enc3Text_length]
        congr 1
        omega
    have hget : ∀ i, (b0 :: b1 :: b2 :: rest).getD (3 + i) 0 = rest.getD i 0 := fun i => by
      rw [Nat.add_comm]
      rfl
    rw [hlen, hq, hm]
    refine ⟨fun g hg k hk => ?_, fun hr k => ?_, fun hr k => ?_⟩
    · cases g with
      | zero =>
        show (enc3Text u b0 b1 b2 ++ encodeText u rest)[4 * 0 + k]? = _
        rw [List.getElem?_append_left (by rw [enc3Text_length]; omega)]
        simp
      | succ g =>
        rw [hskip, i1 g (by omega) k hk, show 3 * (g + 1) = 3 + 3 * g by omega, Nat.add_assoc, Nat.add_assoc, hget, hget,
          hget]
    · rw [hskip, i2 hr k, show 3 * (rest.length / 3 + 1) = 3 + 3 * (rest.length / 3) by omega, hget]
    · rw [hskip, i3 hr k, show 3 * (rest.length / 3 + 1) = 3 + 3 * (rest.length / 3) by omega, Nat.add_assoc, hget, hget]

end Sys2Proof.Machine
end

