-- ==== Sys2Proof/Laws/Exec.lean ====
section
/-! SUPPORT. Everything a command can do, one inversion lemma for each meaning and each shared operation: if it answers
`next t`, then one of these cases holds. Later proofs cite them instead of unfolding a meaning. -/

namespace Sys2Proof.Machine

/-! ### The shared operations -/

theorem takeFault_next (s t : State) (f : FaultCode) (info : Word) :
    s.takeFault f info = .next t ↔ t = s.raise f info := by
  simp [State.takeFault, eq_comm]

/-- A group command: BOUNDS on the input side, BOUNDS on the output side, or its own end. -/
theorem boundedGroup_cases (s t : State) (n m : Nat) (run : Host.Outcome State Fault Refusal)
    (h : s.boundedGroup n m run = .next t) :
    (s.inputShort n = true ∧ t = s.raise .bounds 0) ∨
    (s.inputShort n = false ∧ s.outputFull m = true ∧ t = s.raise .bounds 1) ∨
    (s.inputShort n = false ∧ s.outputFull m = false ∧ run = .next t) := by
  unfold State.boundedGroup at h
  split at h
  · next h1 => exact .inl ⟨h1, (takeFault_next ..).1 h⟩
  · next h1 =>
    split at h
    · next h2 => exact .inr (.inl ⟨by simpa using h1, h2, (takeFault_next ..).1 h⟩)
    · next h2 => exact .inr (.inr ⟨by simpa using h1, by simpa using h2, h⟩)

/-- Within the bounds a group command is its own end. -/
theorem boundedGroup_inside (s : State) (n m : Nat) (run : Host.Outcome State Fault Refusal)
    (h1 : s.inputShort n = false) (h2 : s.outputFull m = false) : s.boundedGroup n m run = run := by
  simp [State.boundedGroup, h1, h2]

theorem inputShort_false (s : State) (n : Nat) (h1 : s.ilen.toNat ≤ s.cfg.nbuf) (h2 : s.iptr.toNat + n ≤ s.ilen.toNat) :
    s.inputShort n = false := by
  rw [Bool.eq_false_iff]
  intro hc
  rw [inputShort_iff] at hc
  omega

theorem outputFull_false (s : State) (m : Nat) (h : s.optr.toNat + m ≤ s.cfg.nbuf) : s.outputFull m = false := by
  rw [Bool.eq_false_iff]
  intro hc
  rw [outputFull_iff] at hc
  omega

/-- Beyond the input side of its bounds a group command is BOUNDS(0), whatever its output side. -/
theorem boundedGroup_short (s : State) (n m : Nat) (run : Host.Outcome State Fault Refusal)
    (h : s.cfg.nbuf < s.ilen.toNat ∨ s.ilen.toNat < s.iptr.toNat + n) :
    s.boundedGroup n m run = .next (s.afterFault 2 0) := by
  unfold State.boundedGroup
  rw [if_pos ((inputShort_iff s n).2 h)]
  rfl

/-- Beyond the output side alone it is BOUNDS(1). -/
theorem boundedGroup_full (s : State) (n m : Nat) (run : Host.Outcome State Fault Refusal) (h : s.inputShort n = false)
    (h2 : s.cfg.nbuf < s.optr.toNat + m) : s.boundedGroup n m run = .next (s.afterFault 2 1) := by
  unfold State.boundedGroup
  rw [h, if_neg (by simp), if_pos ((outputFull_iff s m).2 h2)]
  rfl

/-- A decoding group command within its bounds: BADCHAR at the least miss, or the end. -/
theorem decodeGroup_cases (s t : State) (cs out : List Byte) (h : s.decodeGroup cs out = .next t) :
    (∃ j, firstMiss cs = some j ∧ t = s.raise .badchar (word32 (s.iptr.toNat + j))) ∨
    (firstMiss cs = none ∧ t = s.groupDone cs.length out) := by
  unfold State.decodeGroup at h
  split at h
  · next j hj => exact .inl ⟨j, hj, (takeFault_next ..).1 h⟩
  · next hj => exact .inr ⟨hj, by simpa [eq_comm] using h⟩

/-- DECODE of a valid input: PADLEN, BADCHAR, or the output with what INFO would have left. -/
theorem decodeValid_cases (s t : State) (bs : List Byte) (h : s.decodeValid bs = .next t) :
    (2 < plenOf bs ∧ t = s.raise .padlen (word32 (plenOf bs))) ∨
    (plenOf bs ≤ 2 ∧ ∃ j, decodeText (padded bs) (plenOf bs) = .error j ∧ t = s.raise .badchar (word32 j)) ∨
    (plenOf bs ≤ 2 ∧ ∃ out, decodeText (padded bs) (plenOf bs) = .ok out ∧
      t = ((s.writeObuf 0 out).setCursors bs.length (blenOf bs)).writeInfo bs) := by
  unfold State.decodeValid at h
  split at h
  · next h1 => exact .inl ⟨h1, (takeFault_next ..).1 h⟩
  · next h1 =>
    split at h
    · next j hj => exact .inr (.inl ⟨by omega, j, hj, (takeFault_next ..).1 h⟩)
    · next out ho => exact .inr (.inr ⟨by omega, out, ho, by simpa [eq_comm] using h⟩)

/-! ### The fields after a group command -/

@[simp] theorem State.groupDone_obuf (s : State) (n : Nat) (out : List Byte) :
    (s.groupDone n out).obuf = Memory.putAll s.optr.toNat out s.obuf := rfl
@[simp] theorem State.groupDone_iptr (s : State) (n : Nat) (out : List Byte) :
    (s.groupDone n out).iptr = word32 (s.iptr.toNat + n) := rfl
@[simp] theorem State.groupDone_optr (s : State) (n : Nat) (out : List Byte) :
    (s.groupDone n out).optr = word32 (s.optr.toNat + out.length) := rfl

/-- A group command that ends without a fault writes OBUF and the cursors, and nothing else. -/
theorem State.groupDone_frame (s : State) (n : Nat) (out : List Byte) :
    s.groupDone n out =
      { s with obuf := (s.groupDone n out).obuf, iptr := (s.groupDone n out).iptr, optr := (s.groupDone n out).optr } := rfl

/-- The bytes a run of writes to OBUF leaves are the bytes written. -/
theorem holds_of_obuf (s t : State) (i : Nat) (vs : List Byte) (hm : t.obuf = Memory.putAll i vs s.obuf) :
    Holds t .obuf i vs := by
  intro k v hk
  have hlt : k < vs.length := (List.getElem?_eq_some_iff.1 hk).1
  simp only [State.readByte, State.mem_obuf, hm, Memory.get_putAll]
  rw [if_pos (by omega), Nat.add_sub_cancel_left, hk]
  rfl

/-- Outside the bytes written OBUF reads as before. -/
theorem sameOutside_of_obuf (s t : State) (i n : Nat) (vs : List Byte) (hn : vs.length = n)
    (hm : t.obuf = Memory.putAll i vs s.obuf) (hr : t.resets = s.resets) : SameOutside s t .obuf i n := by
  intro a ha
  simp only [State.readByte, State.mem_obuf, hm, hr, Memory.get_putAll]
  rw [if_neg (by omega)]

theorem groupDone_onlyOutput (s : State) (n : Nat) (out : List Byte) : OnlyOutput s (s.groupDone n out) :=
  ⟨rfl, rfl, rfl, rfl, rfl, rfl, rfl, rfl, fun _ => rfl, rfl, rfl, rfl, rfl⟩

/-- Everything the end of a group command does, in an instance with legal parameters: the bytes at OPTR, the rest of OBUF,
the cursors and the frame. -/
theorem groupDone_spec (s : State) (n : Nat) (out : List Byte) (hw : s.cfg.wf = true) (h1 : s.inputShort n = false)
    (h2 : s.optr.toNat + out.length ≤ s.cfg.nbuf) :
    Holds (s.groupDone n out) .obuf s.optr.toNat out ∧ SameOutside s (s.groupDone n out) .obuf s.optr.toNat out.length ∧
    (s.groupDone n out).iptr.toNat = s.iptr.toNat + n ∧ (s.groupDone n out).optr.toNat = s.optr.toNat + out.length ∧
    OnlyOutput s (s.groupDone n out) := by
  have hb := configWf_nbuf s.cfg hw
  have hi : ¬ (s.cfg.nbuf < s.ilen.toNat ∨ s.ilen.toNat < s.iptr.toNat + n) := by
    rw [← inputShort_iff, h1]
    simp
  refine ⟨holds_of_obuf s _ _ _ rfl, sameOutside_of_obuf s _ _ _ _ rfl rfl rfl, ?_, ?_, groupDone_onlyOutput s n out⟩
  · rw [State.groupDone_iptr, word32_toNat _ (by omega)]
  · rw [State.groupDone_optr, word32_toNat _ (by omega)]

/-! ### The commands -/

theorem exec_nop_cases (s t : State) (h : exec .nop s = .next t) : t = s := by
  simpa [exec, execNop, eq_comm] using h

theorem exec_clrerr_cases (s t : State) (h : exec .clrerr s = .next t) : t = s.clearFault := by
  simpa [exec, execClrerr, eq_comm] using h

theorem exec_lutf_cases (s t : State) (u : Alphabet) (imm : Byte) (h : exec (.lutf u imm) s = .next t) :
    t = s.setRes ((fwdu (imm.extractLsb' 0 6) u).setWidth 32) := by
  simpa [exec, execLutf, eq_comm] using h

theorem exec_lutr_cases (s t : State) (imm : Byte) (h : exec (.lutr imm) s = .next t) :
    t = s.setRes (lutrResult imm) := by
  simpa [exec, execLutr, eq_comm] using h

theorem exec_cls_cases (s t : State) (imm : Byte) (h : exec (.cls imm) s = .next t) :
    t = s.setRes ((cls s.cfg imm).code.setWidth 32) := by
  simpa [exec, execCls, eq_comm] using h

theorem exec_enc3_cases (s t : State) (u : Alphabet) (h : exec (.enc3 u) s = .next t) :
    (s.inputShort 3 = true ∧ t = s.raise .bounds 0) ∨
    (s.inputShort 3 = false ∧ s.outputFull 4 = true ∧ t = s.raise .bounds 1) ∨
    (s.inputShort 3 = false ∧ s.outputFull 4 = false ∧
      t = s.groupDone 3 (enc3Text u (s.atCursor 0) (s.atCursor 1) (s.atCursor 2))) := by
  rcases boundedGroup_cases s t _ _ _ h with h | h | ⟨h1, h2, h⟩
  · exact .inl h
  · exact .inr (.inl h)
  · exact .inr (.inr ⟨h1, h2, (Host.Outcome.next.inj h).symm⟩)

theorem exec_enc2_cases (s t : State) (u : Alphabet) (h : exec (.enc2 u) s = .next t) :
    (s.inputShort 2 = true ∧ t = s.raise .bounds 0) ∨
    (s.inputShort 2 = false ∧ s.outputFull (tailLen u 2) = true ∧ t = s.raise .bounds 1) ∨
    (s.inputShort 2 = false ∧ s.outputFull (tailLen u 2) = false ∧
      t = s.groupDone 2 (enc2Text u (s.atCursor 0) (s.atCursor 1))) := by
  rcases boundedGroup_cases s t _ _ _ h with h | h | ⟨h1, h2, h⟩
  · exact .inl h
  · exact .inr (.inl h)
  · exact .inr (.inr ⟨h1, h2, (Host.Outcome.next.inj h).symm⟩)

theorem exec_enc1_cases (s t : State) (u : Alphabet) (h : exec (.enc1 u) s = .next t) :
    (s.inputShort 1 = true ∧ t = s.raise .bounds 0) ∨
    (s.inputShort 1 = false ∧ s.outputFull (tailLen u 1) = true ∧ t = s.raise .bounds 1) ∨
    (s.inputShort 1 = false ∧ s.outputFull (tailLen u 1) = false ∧
      t = s.groupDone 1 (enc1Text u (s.atCursor 0))) := by
  rcases boundedGroup_cases s t _ _ _ h with h | h | ⟨h1, h2, h⟩
  · exact .inl h
  · exact .inr (.inl h)
  · exact .inr (.inr ⟨h1, h2, (Host.Outcome.next.inj h).symm⟩)

theorem exec_encode_cases (s t : State) (u : Alphabet) (h : exec (.encode u) s = .next t) :
    (s.cfg.nbuf < s.ilen.toNat ∧ t = s.raise .bounds 0) ∨
    (s.ilen.toNat ≤ s.cfg.nbuf ∧ s.cfg.nbuf < encodeLen u s.ilen.toNat ∧ t = s.raise .bounds 1) ∨
    (s.ilen.toNat ≤ s.cfg.nbuf ∧ encodeLen u s.ilen.toNat ≤ s.cfg.nbuf ∧
      t = (s.writeObuf 0 (encodeText u s.input)).setCursors s.ilen.toNat (encodeLen u s.ilen.toNat)) := by
  simp only [exec, execEncode, inputTooLong_iff] at h
  split at h
  · next h1 => exact .inl ⟨h1, (takeFault_next ..).1 h⟩
  · next h1 =>
    split at h
    · next h2 => exact .inr (.inl ⟨by omega, h2, (takeFault_next ..).1 h⟩)
    · next h2 => exact .inr (.inr ⟨by omega, by omega, by simpa [eq_comm] using h⟩)

theorem exec_valid_cases (s t : State) (h : exec .valid s = .next t) :
    (s.cfg.nbuf < s.ilen.toNat ∧ t = s.raise .bounds 0) ∨
    (s.ilen.toNat ≤ s.cfg.nbuf ∧ t = s.setV (validText s.cfg s.input)) := by
  simp only [exec, execValid, inputTooLong_iff] at h
  split at h
  · next h1 => exact .inl ⟨h1, (takeFault_next ..).1 h⟩
  · next h1 => exact .inr ⟨by omega, by simpa [eq_comm] using h⟩

theorem exec_info_cases (s t : State) (h : exec .info s = .next t) :
    (s.cfg.nbuf < s.ilen.toNat ∧ t = s.raise .bounds 0) ∨
    (s.ilen.toNat ≤ s.cfg.nbuf ∧ validText s.cfg s.input = false ∧ t = s.raise .invalidInput 0) ∨
    (s.ilen.toNat ≤ s.cfg.nbuf ∧ validText s.cfg s.input = true ∧ t = s.writeInfo s.input) := by
  simp only [exec, execInfo, inputTooLong_iff] at h
  split at h
  · next h1 => exact .inl ⟨h1, (takeFault_next ..).1 h⟩
  · next h1 =>
    split at h
    · next h2 => exact .inr (.inl ⟨by omega, by simpa using h2, (takeFault_next ..).1 h⟩)
    · next h2 => exact .inr (.inr ⟨by omega, by simpa using h2, by simpa [eq_comm] using h⟩)

theorem exec_dec4_cases (s t : State) (h : exec .dec4 s = .next t) :
    (s.inputShort 4 = true ∧ t = s.raise .bounds 0) ∨
    (s.inputShort 4 = false ∧ s.outputFull 3 = true ∧ t = s.raise .bounds 1) ∨
    (s.inputShort 4 = false ∧ s.outputFull 3 = false ∧
      ((∃ j, firstMiss [s.atCursor 0, s.atCursor 1, s.atCursor 2, s.atCursor 3] = some j ∧
          t = s.raise .badchar (word32 (s.iptr.toNat + j))) ∨
       (firstMiss [s.atCursor 0, s.atCursor 1, s.atCursor 2, s.atCursor 3] = none ∧
          t = s.groupDone 4 (dec4Bytes (s.atCursor 0) (s.atCursor 1) (s.atCursor 2) (s.atCursor 3))))) := by
  rcases boundedGroup_cases s t _ _ _ h with h | h | ⟨h1, h2, h⟩
  · exact .inl h
  · exact .inr (.inl h)
  · exact .inr (.inr ⟨h1, h2, decodeGroup_cases _ _ _ _ h⟩)

theorem exec_dec3_cases (s t : State) (h : exec .dec3 s = .next t) :
    (s.inputShort 3 = true ∧ t = s.raise .bounds 0) ∨
    (s.inputShort 3 = false ∧ s.outputFull 2 = true ∧ t = s.raise .bounds 1) ∨
    (s.inputShort 3 = false ∧ s.outputFull 2 = false ∧
      ((∃ j, firstMiss [s.atCursor 0, s.atCursor 1, s.atCursor 2] = some j ∧
          t = s.raise .badchar (word32 (s.iptr.toNat + j))) ∨
       (firstMiss [s.atCursor 0, s.atCursor 1, s.atCursor 2] = none ∧
          t = s.groupDone 3 (dec3Bytes (s.atCursor 0) (s.atCursor 1) (s.atCursor 2))))) := by
  rcases boundedGroup_cases s t _ _ _ h with h | h | ⟨h1, h2, h⟩
  · exact .inl h
  · exact .inr (.inl h)
  · exact .inr (.inr ⟨h1, h2, decodeGroup_cases _ _ _ _ h⟩)

theorem exec_dec2_cases (s t : State) (h : exec .dec2 s = .next t) :
    (s.inputShort 2 = true ∧ t = s.raise .bounds 0) ∨
    (s.inputShort 2 = false ∧ s.outputFull 1 = true ∧ t = s.raise .bounds 1) ∨
    (s.inputShort 2 = false ∧ s.outputFull 1 = false ∧
      ((∃ j, firstMiss [s.atCursor 0, s.atCursor 1] = some j ∧
          t = s.raise .badchar (word32 (s.iptr.toNat + j))) ∨
       (firstMiss [s.atCursor 0, s.atCursor 1] = none ∧
          t = s.groupDone 2 (dec2Bytes (s.atCursor 0) (s.atCursor 1))))) := by
  rcases boundedGroup_cases s t _ _ _ h with h | h | ⟨h1, h2, h⟩
  · exact .inl h
  · exact .inr (.inl h)
  · exact .inr (.inr ⟨h1, h2, decodeGroup_cases _ _ _ _ h⟩)

theorem exec_decode_cases (s t : State) (u : Alphabet) (h : exec (.decode u) s = .next t) :
    (s.cfg.nbuf < s.ilen.toNat ∧ t = s.raise .bounds 0) ∨
    (s.ilen.toNat ≤ s.cfg.nbuf ∧ validText s.cfg s.input = false ∧ t = s.raise .invalidInput 0) ∨
    (s.ilen.toNat ≤ s.cfg.nbuf ∧ validText s.cfg s.input = true ∧ s.decodeValid s.input = .next t) := by
  simp only [exec, execDecode, inputTooLong_iff] at h
  split at h
  · next h1 => exact .inl ⟨h1, (takeFault_next ..).1 h⟩
  · next h1 =>
    split at h
    · next h2 => exact .inr (.inl ⟨by omega, by simpa using h2, (takeFault_next ..).1 h⟩)
    · next h2 => exact .inr (.inr ⟨by omega, by simpa using h2, h⟩)

end Sys2Proof.Machine
end

