-- ==== Sys2Proof/Laws/PerInstr.lean ====
section
/-! SUPPORT. Statements made for every command, one lemma for each constructor of Instr (LAWS.json). -/

namespace Sys2Proof.Laws.SpellsItsRow

/-- The word of a well-formed command matches the command's own row of the opcode map (30_encoding.md rule R92). -/
def Statement (i : Instr) : Prop := i.wellFormed = true → i.row.spells (encode i) = true

theorem nop : Statement .nop := fun _ => by decide

theorem lutf (u : Alphabet) (imm : Byte) : Statement (.lutf u imm) := by
  revert imm
  cases u <;> unfold Statement <;> decide

theorem lutr (imm : Byte) : Statement (.lutr imm) := by
  revert imm
  unfold Statement
  decide

theorem cls (imm : Byte) : Statement (.cls imm) := by
  revert imm
  unfold Statement
  decide

theorem enc3 (u : Alphabet) : Statement (.enc3 u) := fun _ => by cases u <;> decide
theorem enc2 (u : Alphabet) : Statement (.enc2 u) := fun _ => by cases u <;> decide
theorem enc1 (u : Alphabet) : Statement (.enc1 u) := fun _ => by cases u <;> decide
theorem dec4 : Statement .dec4 := fun _ => by decide
theorem dec3 : Statement .dec3 := fun _ => by decide
theorem dec2 : Statement .dec2 := fun _ => by decide
theorem valid : Statement .valid := fun _ => by decide
theorem info : Statement .info := fun _ => by decide
theorem encode (u : Alphabet) : Statement (.encode u) := fun _ => by cases u <;> decide
theorem decode (u : Alphabet) : Statement (.decode u) := fun _ => by cases u <;> decide
theorem clrerr : Statement .clrerr := fun _ => by decide

end Sys2Proof.Laws.SpellsItsRow
end

