-- ==== Sys2Proof/Laws/Step.lean ====
section
/-! SUPPORT. Everything one step can do: one equation for each kind of transaction at the head of the port, and the three
outcomes of a CMD write (30_encoding.md rule R95). -/

namespace Sys2Proof.Machine

theorem step_idle (s : State) (h : s.pending = []) : step s = .next s := by
  simp [step, State.serveNext, h]

theorem step_serve (s : State) (x : Txn) (rest : List Txn) (h : s.pending = x :: rest) :
    step s = (s.waiting rest).serve x := by
  simp [step, State.serveNext, h]

/-- The three outcomes of a CMD write with no fault pending or with one: ignored (or CLRERR), ILLEGAL_CMD, a command. -/
theorem runCommand_cases (s : State) (w : Word) :
    (s.status.err ≠ 0 ∧ w = 0x0000000F ∧ s.runCommand w = exec .clrerr s) ∨
    (s.status.err ≠ 0 ∧ w ≠ 0x0000000F ∧ s.runCommand w = .next s) ∨
    (s.status.err = 0 ∧ (∃ e, decode w = .error e) ∧ s.runCommand w = .next (s.raise .illegalCmd w)) ∨
    (s.status.err = 0 ∧ ∃ i, decode w = .ok i ∧ s.runCommand w = exec i s) := by
  unfold State.runCommand State.faultPending
  by_cases he : s.status.err = 0
  · have hb : (s.status.err != 0) = false := by simp [he]
    rw [hb]
    cases hd : decode w with
    | error e => exact .inr (.inr (.inl ⟨he, ⟨e, rfl⟩, rfl⟩))
    | ok i => exact .inr (.inr (.inr ⟨he, i, rfl, rfl⟩))
  · have hb : (s.status.err != 0) = true := by simpa using he
    rw [hb]
    by_cases hw : w = 0x0000000F
    · exact .inl ⟨he, hw, by rw [if_pos rfl, if_pos hw]⟩
    · exact .inr (.inl ⟨he, hw, by rw [if_pos rfl, if_neg hw]⟩)

theorem step_regRead (s : State) (n : Fin 16) (rest : List Txn) (h : s.pending = .regRead n :: rest) :
    step s = .next (s.served rest (.word (s.regRead n))) := by
  rw [step_serve s _ rest h]
  rfl

theorem step_cmdWrite (s : State) (w : Word) (rest : List Txn) (h : s.pending = .regWrite 0 w :: rest) :
    step s = (s.served rest .done).runCommand w := by
  rw [step_serve s _ rest h]
  rfl

theorem step_regWrite (s : State) (n : Fin 16) (v : Word) (rest : List Txn) (hn : n ≠ 0)
    (h : s.pending = .regWrite n v :: rest) : step s = .next ((s.served rest .done).regStore n v) := by
  rw [step_serve s _ rest h]
  have : n.val ≠ 0 := fun hc => hn (Fin.ext hc)
  simp [State.serve, State.regWrite, this, State.served, State.answer, State.waiting]

theorem step_bufRead (s : State) (b : Buf) (i : Nat) (rest : List Txn) (h : s.pending = .bufRead b i :: rest) :
    step s = .next (s.served rest (if i < s.cfg.nbuf then .byte (s.readByte b i) else .error)) := by
  rw [step_serve s _ rest h]
  show Host.Outcome.next ((s.waiting rest).bufRead b i) = _
  unfold State.bufRead
  by_cases hi : i < s.cfg.nbuf
  · rw [if_pos hi, if_pos (show i < (s.waiting rest).cfg.nbuf from hi)]
    cases b <;> rfl
  · rw [if_neg hi, if_neg (show ¬ i < (s.waiting rest).cfg.nbuf from hi)]
    rfl

theorem step_bufWrite_inside (s : State) (b : Buf) (i : Nat) (v : Byte) (rest : List Txn)
    (h : s.pending = .bufWrite b i v :: rest) (hi : i < s.cfg.nbuf) :
    step s = .next ((s.served rest .done).writeByte b i v) := by
  rw [step_serve s _ rest h]
  show Host.Outcome.next ((s.waiting rest).bufWrite b i v) = _
  unfold State.bufWrite
  rw [if_pos (show i < (s.waiting rest).cfg.nbuf from hi)]
  cases b <;> rfl

theorem step_bufWrite_outside (s : State) (b : Buf) (i : Nat) (v : Byte) (rest : List Txn)
    (h : s.pending = .bufWrite b i v :: rest) (hi : s.cfg.nbuf ≤ i) : step s = .next (s.served rest .error) := by
  rw [step_serve s _ rest h]
  show Host.Outcome.next ((s.waiting rest).bufWrite b i v) = _
  unfold State.bufWrite
  rw [if_neg (show ¬ i < (s.waiting rest).cfg.nbuf from Nat.not_lt.2 hi)]
  rfl

theorem step_reset (s : State) (rest : List Txn) (h : s.pending = .reset :: rest) :
    step s = .next (s.waiting rest).resetEvent := by
  rw [step_serve s _ rest h]
  rfl

/-- Every command ends: `exec` answers a next state (60_exceptions.md rule R229). -/
theorem exec_next (i : Instr) (s : State) : ∃ t, exec i s = .next t := by
  cases i with
  | nop => exact ⟨_, rfl⟩
  | lutf u imm => exact ⟨_, rfl⟩
  | lutr imm => exact ⟨_, rfl⟩
  | cls imm => exact ⟨_, rfl⟩
  | clrerr => exact ⟨_, rfl⟩
  | enc3 u => simp only [exec, execEnc3, State.boundedGroup, State.takeFault]; repeat' split
              all_goals exact ⟨_, rfl⟩
  | enc2 u => simp only [exec, execEnc2, State.boundedGroup, State.takeFault]; repeat' split
              all_goals exact ⟨_, rfl⟩
  | enc1 u => simp only [exec, execEnc1, State.boundedGroup, State.takeFault]; repeat' split
              all_goals exact ⟨_, rfl⟩
  | dec4 => simp only [exec, execDec4, State.boundedGroup, State.decodeGroup, State.takeFault]; repeat' split
            all_goals exact ⟨_, rfl⟩
  | dec3 => simp only [exec, execDec3, State.boundedGroup, State.decodeGroup, State.takeFault]; repeat' split
            all_goals exact ⟨_, rfl⟩
  | dec2 => simp only [exec, execDec2, State.boundedGroup, State.decodeGroup, State.takeFault]; repeat' split
            all_goals exact ⟨_, rfl⟩
  | valid => simp only [exec, execValid, State.takeFault]; repeat' split
             all_goals exact ⟨_, rfl⟩
  | info => simp only [exec, execInfo, State.takeFault]; repeat' split
            all_goals exact ⟨_, rfl⟩
  | encode u => simp only [exec, execEncode, State.takeFault]; repeat' split
                all_goals exact ⟨_, rfl⟩
  | decode u => simp only [exec, execDecode, State.decodeValid, State.takeFault]; repeat' split
                all_goals exact ⟨_, rfl⟩

/-- The command the host asks for is the one the next step decodes. -/
theorem withFetchWord_pending (s : State) (nbits w : Nat) :
    (s.withFetchWord nbits w).pending = .regWrite 0 (BitVec.ofNat 32 (w % 2 ^ nbits)) :: s.pending := rfl

end Sys2Proof.Machine
end

