-- ==== Sys2Proof/Laws/Validity.lean ====
section
/-! SUPPORT. The validity predicate as computed (42_validate.md rule R160, Flags.lean) is the property `ValidInput`. -/

namespace Sys2Proof.Machine

/-- The characters taken off the end are `=`, at most two. -/
theorem trailingPads_spec (t : List Byte) :
    trailingPads t ≤ 2 ∧ t = t.take (t.length - trailingPads t) ++ List.replicate (trailingPads t) padChar := by
  unfold trailingPads
  split
  · next h =>
    refine ⟨Nat.le_refl _, List.ext_getElem? fun i => ?_⟩
    have h1 := h.2.1
    have h2 := h.2.2
    rw [List.getD_eq_getElem _ _ (by omega)] at h1 h2
    by_cases hi : i < t.length - 2
    · rw [List.getElem?_append_left (by simp; omega), List.getElem?_take_of_lt hi]
    · rw [List.getElem?_append_right (by simp; omega)]
      simp only [List.length_take, List.getElem?_replicate]
      by_cases hl : i < t.length
      · rw [if_pos (by omega), List.getElem?_eq_getElem hl]
        rcases (by omega : i = t.length - 1 ∨ i = t.length - 2) with rfl | rfl
        · rw [h1]
        · rw [h2]
      · rw [if_neg (by omega), List.getElem?_eq_none (by omega)]
  · split
    · next h =>
      refine ⟨by omega, List.ext_getElem? fun i => ?_⟩
      have h1 := h.2
      rw [List.getD_eq_getElem _ _ (by omega)] at h1
      by_cases hi : i < t.length - 1
      · rw [List.getElem?_append_left (by simp; omega), List.getElem?_take_of_lt hi]
      · rw [List.getElem?_append_right (by simp; omega)]
        simp only [List.length_take, List.getElem?_replicate]
        by_cases hl : i < t.length
        · rw [if_pos (by omega), List.getElem?_eq_getElem hl]
          obtain rfl : i = t.length - 1 := by omega
          rw [h1]
        · rw [if_neg (by omega), List.getElem?_eq_none (by omega)]
    · simp

/-- A run without `=` at its end, followed by at most two `=`, loses exactly those. -/
theorem trailingPads_append (r : List Byte) (k : Nat) (hk : k ≤ 2) (hr : ∀ c ∈ r, c ≠ padChar) :
    trailingPads (r ++ List.replicate k padChar) = k := by
  have hl : (r ++ List.replicate k padChar).length = r.length + k := by simp
  have hlast : ∀ i, i < r.length → (r ++ List.replicate k padChar).getD i 0 ≠ padChar := fun i hi => by
    rw [List.getD_eq_getElem _ _ (by omega), List.getElem_append_left hi]
    exact hr _ (List.getElem_mem hi)
  have hpad : ∀ i, r.length ≤ i → i < r.length + k → (r ++ List.replicate k padChar).getD i 0 = padChar :=
    fun i h1 h2 => by
      rw [List.getD_eq_getElem _ _ (by omega), List.getElem_append_right h1, List.getElem_replicate]
  have h0 : (0 : Byte) ≠ padChar := by decide
  unfold trailingPads
  rw [hl]
  match k, hk with
  | 0, _ =>
    rw [if_neg, if_neg]
    · rintro ⟨h1, h2⟩; exact hlast _ (by omega) h2
    · rintro ⟨h1, h2, -⟩; exact hlast _ (by omega) h2
  | 1, _ =>
    rw [if_neg, if_pos ⟨by omega, hpad _ (by omega) (by omega)⟩]
    rintro ⟨h1, -, h2⟩; exact hlast _ (by omega) h2
  | 2, _ => rw [if_pos ⟨by omega, hpad _ (by omega) (by omega), hpad _ (by omega) (by omega)⟩]

/-- `Valid(s)` as computed is `Valid(s)` as a property of the input (rule R160). -/
theorem validText_iff (cfg : Config) (bs : List Byte) : validText cfg bs = true ↔ ValidInput cfg bs := by
  have hf : bs.filter (fun c => decide (cls cfg c ≠ .ws)) = stripWs cfg bs := by
    unfold stripWs
    congr 1
    funext c
    cases cls cfg c <;> rfl
  have key : validText cfg bs = true ↔
      if cfg.mixedOk = true then ∀ c ∈ validCore cfg bs, cls cfg c = .alnum ∨ cls cfg c = .std ∨ cls cfg c = .url
      else (∀ c ∈ validCore cfg bs, cls cfg c = .alnum ∨ cls cfg c = .std) ∨
        (∀ c ∈ validCore cfg bs, cls cfg c = .alnum ∨ cls cfg c = .url) := by
    unfold validText allAny allStd allUrl
    cases cfg.mixedOk <;> simp [or_assoc]
  rw [key]
  unfold ValidInput
  rw [hf]
  have hs := trailingPads_spec (stripWs cfg bs)
  constructor
  · exact fun h => ⟨validCore cfg bs, _, hs.1, hs.2, h⟩
  · rintro ⟨r, k, hk, ht, h⟩
    have hne : ∀ c ∈ r, c ≠ padChar := by
      rintro c hc rfl
      have hp := cls_padChar cfg
      split at h
      · have := h _ hc
        rw [hp] at this
        simp at this
      · rcases h with h | h <;> (have := h _ hc; rw [hp] at this; simp at this)
    have hcore : validCore cfg bs = r := by
      unfold validCore
      show List.take ((stripWs cfg bs).length - trailingPads (stripWs cfg bs)) (stripWs cfg bs) = r
      rw [ht, show (0x3D : Byte) = padChar from rfl, trailingPads_append r k hk hne]
      simp
    rw [hcore]
    exact h

end Sys2Proof.Machine
end

