-- ==== Sys2Proof/Laws/Whole.lean ====
section
/-! SUPPORT. What the decoding and whole-buffer commands compute, over the registers and the single bytes of the state. -/

namespace Sys2Proof.Machine

theorem State.getD_input (s : State) (i : Nat) (h : i < s.ilen.toNat) : s.input.getD i 0 = s.readByte .ibuf i := by
  rw [List.getD_eq_getElem _ _ (by simpa using h), State.input_getElem]

/-- A part of the bytes written to OBUF from index 0 up stands where it was written. -/
theorem holds_of_part (s t : State) (b : Nat) (ws vs : List Byte) (hm : t.obuf = Memory.putAll 0 ws s.obuf)
    (h : ∀ k, k < vs.length → ws[b + k]? = vs[k]?) : Holds t .obuf b vs := by
  intro k v hk
  have hlt : k < vs.length := (List.getElem?_eq_some_iff.1 hk).1
  have := holds_of_obuf s t 0 ws hm (b + k) v (by rw [h k hlt, hk])
  simpa using this

/-- ENCODE's output length in the words of rule R146. -/
theorem encodeLen_eq (u : Alphabet) (n : Nat) :
    4 * (n / 3) + (if n % 3 = 0 then 0 else if u = .standard then 4 else n % 3 + 1) = encodeLen u n := by
  unfold encodeLen tailLen
  cases u <;> simp

/-! ### The characters at the cursor -/

theorem atCursor4_getElem (s : State) (k : Nat)
    (h : k < [s.atCursor 0, s.atCursor 1, s.atCursor 2, s.atCursor 3].length) :
    [s.atCursor 0, s.atCursor 1, s.atCursor 2, s.atCursor 3][k] = s.readByte .ibuf (s.iptr.toNat + k) := by
  match k, h with
  | 0, _ => rfl
  | 1, _ => rfl
  | 2, _ => rfl
  | 3, _ => rfl

theorem atCursor3_getElem (s : State) (k : Nat) (h : k < [s.atCursor 0, s.atCursor 1, s.atCursor 2].length) :
    [s.atCursor 0, s.atCursor 1, s.atCursor 2][k] = s.readByte .ibuf (s.iptr.toNat + k) := by
  match k, h with
  | 0, _ => rfl
  | 1, _ => rfl
  | 2, _ => rfl

theorem atCursor2_getElem (s : State) (k : Nat) (h : k < [s.atCursor 0, s.atCursor 1].length) :
    [s.atCursor 0, s.atCursor 1][k] = s.readByte .ibuf (s.iptr.toNat + k) := by
  match k, h with
  | 0, _ => rfl
  | 1, _ => rfl

/-- The first bad character at the cursor is the one `firstMiss` finds. -/
theorem firstMiss_of_firstBadAt (s : State) (j : Nat) (cs : List Byte) (hj : j < cs.length)
    (hc : ∀ k (h : k < cs.length), cs[k] = s.readByte .ibuf (s.iptr.toNat + k)) (h : s.firstBadAt s.iptr.toNat j) :
    firstMiss cs = some j := by
  rw [firstMiss_eq_some]
  refine ⟨hj, ?_, fun k hk => ?_⟩
  · rw [hc]
    simpa [State.hitAt] using h.2
  · rw [hc]
    exact h.1 k hk

/-- With a reverse entry for every character at the cursor there is no miss. -/
theorem firstMiss_of_hits (s : State) (cs : List Byte)
    (hc : ∀ k (h : k < cs.length), cs[k] = s.readByte .ibuf (s.iptr.toNat + k))
    (h : ∀ k, k < cs.length → s.hitAt (s.iptr.toNat + k)) : firstMiss cs = none := by
  rw [firstMiss_eq_none]
  intro c hm
  obtain ⟨k, hk, rfl⟩ := List.getElem_of_mem hm
  rw [hc]
  exact h k hk

/-- A miss within the bounds of a group command is a character of the input without a reverse entry. -/
theorem firstMiss_inside (s : State) (j : Nat) (cs : List Byte)
    (hc : ∀ k (h : k < cs.length), cs[k] = s.readByte .ibuf (s.iptr.toNat + k)) (hs : s.inputShort cs.length = false)
    (h : firstMiss cs = some j) :
    s.iptr.toNat + j < s.ilen.toNat ∧ s.ilen.toNat ≤ s.cfg.nbuf ∧ ¬ s.hitAt (s.iptr.toNat + j) := by
  have hi : ¬ (s.cfg.nbuf < s.ilen.toNat ∨ s.ilen.toNat < s.iptr.toNat + cs.length) := by
    rw [← inputShort_iff, hs]
    simp
  obtain ⟨h1, h2, -⟩ := (firstMiss_eq_some cs j).1 h
  rw [hc] at h2
  exact ⟨by omega, by omega, by simp [State.hitAt, h2]⟩

/-! ### INFO and DECODE -/

/-- What INFO and DECODE write are the four numbers and the flags of the input (rules R171 to R176). -/
theorem writeInfo_infoOf (s s' : State) (hw : s.cfg.wf = true) (hl : s.ilen.toNat ≤ s.cfg.nbuf) (hc : s'.cfg = s.cfg) :
    InfoOf s (s'.writeInfo s.input) (vlenOf s.input) := by
  have hb := configWf_nbuf s.cfg hw
  have h1 := State.padded_input_length s
  have h2 := vlenOf_le s.input
  have h3 := State.plenOf_input s
  have hf := fillOf_lt s.input.length
  rw [padded_length] at h1 h2
  rw [State.input_length] at h1 h2 hf
  have hpl : s.paddedLen < 4294967296 := by omega
  refine ⟨?_, ?_, ?_, ?_, rfl, ?_, ?_, ?_⟩
  · show (word32 (fillOf s.input.length)).toNat = _
    rw [State.input_length, word32_toNat _ (by omega)]
    rfl
  · exact word32_toNat _ (by omega)
  · show (word32 (plenOf s.input)).toNat = _
    rw [word32_toNat _ (by omega), h3]
  · show (word32 (blenOf s.input)).toNat = _
    have : blenOf s.input = if s.paddedLen - vlenOf s.input ≤ 2 then
        s.paddedLen * 3 / 4 - (s.paddedLen - vlenOf s.input) else 0 := by
      unfold blenOf
      rw [h3, show vlenOf s.input + (s.paddedLen - vlenOf s.input) = s.paddedLen by omega]
    rw [word32_toNat, this]
    rw [this]
    split <;> omega
  · show plokOf (plenOf s.input) = true ↔ _
    rw [h3]
    simp [plokOf]
  · show hstdOf s'.cfg s.input = true ↔ _
    rw [hc]
    simp only [hstdOf, List.any_eq_true, State.mem_input, beq_iff_eq]
    constructor
    · rintro ⟨c, ⟨i, hi, rfl⟩, h⟩
      exact ⟨i, hi, h⟩
    · rintro ⟨i, hi, h⟩
      exact ⟨_, ⟨i, hi, rfl⟩, h⟩
  · show hurlOf s'.cfg s.input = true ↔ _
    rw [hc]
    simp only [hurlOf, List.any_eq_true, State.mem_input, beq_iff_eq]
    constructor
    · rintro ⟨c, ⟨i, hi, rfl⟩, h⟩
      exact ⟨i, hi, h⟩
    · rintro ⟨i, hi, h⟩
      exact ⟨_, ⟨i, hi, rfl⟩, h⟩

/-- The decoder's outcomes over the bytes of IBUF, for a padding length of at most 2 (rule R191): BADCHAR at the least miss
below VLEN, or every group's bytes and the tail's. -/
theorem decodeText_input (s : State) (hp : s.paddedLen - vlenOf s.input ≤ 2) :
    let v := vlenOf s.input
    let p := s.paddedLen - v
    let m := s.paddedLen * 3 / 4 - p
    (∀ j, j < v → s.firstBadAt 0 j → decodeText (padded s.input) (plenOf s.input) = .error j) ∧
    ((∀ i, i < v → s.hitAt i) → ∃ out, decodeText (padded s.input) (plenOf s.input) = .ok out ∧ out.length = m ∧
      (∀ g, 4 * g + 4 ≤ v → ∀ k, k < 3 → out[3 * g + k]? =
        (join4 (s.symAt (4 * g)) (s.symAt (4 * g + 1)) (s.symAt (4 * g + 2)) (s.symAt (4 * g + 3)))[k]?) ∧
      (p = 1 → ∀ k, k < 2 → out[m - 2 + k]? =
        (join3 (s.symAt (v - 3)) (s.symAt (v - 2)) (s.symAt (v - 1)))[k]?) ∧
      (p = 2 → out[m - 1]? = (join2 (s.symAt (v - 2)) (s.symAt (v - 1)))[0]?)) := by
  intro v p m
  have hlen := State.padded_input_length s
  have hmod := padded_length_mod s.input
  have hvle : v ≤ s.input.length := vlenOf_le_length s.input
  rw [State.input_length] at hvle
  have hv2 : v ≤ s.paddedLen := hlen ▸ vlenOf_le s.input
  have hpe := State.plenOf_input s
  obtain ⟨n, hn⟩ : ∃ n, s.paddedLen = 4 * n := ⟨s.paddedLen / 4, by omega⟩
  have hview : ∀ i, i < v → (padded s.input).getD i 0 = s.readByte .ibuf i := fun i hi => by
    rw [List.getD_eq_getElem _ _ (by omega), padded_getElem, State.viewAt_input]
    unfold State.viewIn
    rw [if_pos (by omega)]
  obtain ⟨d1, d2⟩ := decodeText_spec n (plenOf s.input) (padded s.input) (by omega) (by omega) (by omega)
  rw [show 4 * n - plenOf s.input = v by omega] at d1 d2
  have htl : ((padded s.input).take v).length = v := by rw [List.length_take]; omega
  have htg : ∀ k (h : k < ((padded s.input).take v).length), ((padded s.input).take v)[k] = s.readByte .ibuf k :=
    fun k h => by rw [← hview k (by omega), List.getD_eq_getElem _ _ (by omega), List.getElem_take]
  refine ⟨fun j hj hb => d1 j ?_, fun hh => ?_⟩
  · rw [firstMiss_eq_some]
    refine ⟨by omega, ?_, fun k hk => ?_⟩
    · rw [htg]
      have := hb.2
      rw [Nat.zero_add] at this
      simpa [State.hitAt] using this
    · rw [htg]
      have := hb.1 k hk
      rwa [Nat.zero_add] at this
  · have hnone : firstMiss ((padded s.input).take v) = none := by
      rw [firstMiss_eq_none]
      intro c hc
      obtain ⟨k, hk, rfl⟩ := List.getElem_of_mem hc
      rw [htg]
      exact hh k (by omega)
    obtain ⟨out, ho, hl, hg, h1, h2⟩ := d2 hnone
    refine ⟨out, ho, by omega, fun g hgv k hk => ?_, fun hp1 k hk => ?_, fun hp1 => ?_⟩
    · rw [hg g (by omega) k hk, dec4Bytes_eq_join4, hview _ (by omega), hview _ (by omega), hview _ (by omega),
        hview _ (by omega)]
      rfl
    · rw [show m - 2 + k = 3 * (n - 1) + k by omega, h1 (by omega) k hk, dec3Bytes_eq_join3, hview _ (by omega),
        hview _ (by omega), hview _ (by omega), show 4 * n - 4 = v - 3 by omega, show 4 * n - 3 = v - 2 by omega,
        show 4 * n - 2 = v - 1 by omega]
      rfl
    · rw [show m - 1 = 3 * (n - 1) by omega, h2 (by omega), dec2Bytes_eq_join2, hview _ (by omega), hview _ (by omega),
        show 4 * n - 4 = v - 2 by omega, show 4 * n - 3 = v - 1 by omega]
      rfl

/-- The index a failing decode names is the least one below VLEN without a reverse entry. -/
theorem decodeText_error (s : State) (j : Nat) (hp : plenOf s.input ≤ 2)
    (h : decodeText (padded s.input) (plenOf s.input) = .error j) : j < vlenOf s.input ∧ s.firstBadAt 0 j := by
  have hpe := State.plenOf_input s
  obtain ⟨h1, h2⟩ := decodeText_input s (by omega)
  by_cases hh : ∀ i, i < vlenOf s.input → s.hitAt i
  · obtain ⟨out, ho, -⟩ := h2 hh
    rw [ho] at h
    cases h
  · push Not at hh
    have hex : ∃ i, i < vlenOf s.input ∧ ¬ s.hitAt i := hh
    classical
    have hs := Nat.find_spec hex
    have hb : s.firstBadAt 0 (Nat.find hex) := by
      refine ⟨fun k hk => ?_, by rw [Nat.zero_add]; exact hs.2⟩
      rw [Nat.zero_add]
      by_contra hc
      exact Nat.find_min hex hk ⟨by omega, hc⟩
    have := h1 _ hs.1 hb
    rw [this] at h
    cases h
    exact ⟨hs.1, hb⟩

end Sys2Proof.Machine
end

