-- ==== Sys2Proof/Tests/Slice0.lean ====
section
/-! SUPPORT. Tests of the model, each on one step of a small state, with expected results from the spec
(95_test_vectors.md, the section named at each test), and the witnesses of the statements' hypotheses. -/

namespace Sys2Proof.Tests

open Sys2Proof Sys2Proof.Machine

/-! ### Helpers -/

/-- `RESET; LOAD bs` of 95_test_vectors.md S1 in an instance with parameters `c`. -/
def loadedIn (c : Config) (bs : List Byte) : State :=
  { State.resetOf c with ibuf := Memory.putAll 0 bs [], ilen := BitVec.ofNat 32 bs.length }

/-- `RESET; LOAD bs` with the spec's parameters. -/
def loaded (bs : List Byte) : State := loadedIn Config.spec bs

/-- The smallest instance, NBUF = 12 (rule R4). -/
def small : Config := { Config.spec with nbuf := 12 }

/-- The cursors set by the host. -/
def atCursors (s : State) (i o : Nat) : State := { s with iptr := BitVec.ofNat 32 i, optr := BitVec.ofNat 32 o }

/-- A state with a pending fault of code `e`. -/
def faulty (e : BitVec 4) (info : Word) : State := State.reset.afterFault e info

/-- The next state, if there is one. -/
def next? (o : Host.Outcome State Fault Refusal) : Option State :=
  match o with
  | .next t    => some t
  | .fault _   => none
  | .refused _ => none

/-- STATUS, EINFO, IPTR, OPTR of the next state, as numbers. -/
def ends (o : Host.Outcome State Fault Refusal) : Option (List Nat) :=
  (next? o).map (fun t => [t.status.word.toNat, t.einfo.toNat, t.iptr.toNat, t.optr.toNat])

/-- FILL, VLEN, PLEN, BLEN and STATUS of the next state, as numbers. -/
def numbers (o : Host.Outcome State Fault Refusal) : Option (List Nat) :=
  (next? o).map (fun t => [t.fill.toNat, t.vlen.toNat, t.plen.toNat, t.blen.toNat, t.status.word.toNat])

/-- The bytes of OBUF the next state lists, in order of their indices, as numbers. -/
def out (o : Host.Outcome State Fault Refusal) : Option (List (Nat × Nat)) :=
  (next? o).map (fun t => t.obuf.map (fun c => (c.1, c.2.toNat)))

/-- RES and STATUS of the next state, as numbers. -/
def result (o : Host.Outcome State Fault Refusal) : Option (Nat × Nat) :=
  (next? o).map (fun t => (t.res.toNat, t.status.word.toNat))

/-- The bytes of a short text: `"TWFu"`, `"TQ=="`, `"Man"` and so on, by their codes (rule R11). -/
def man : List Byte := [0x4D, 0x61, 0x6E]
def lo : List Byte := [0x6C, 0x6F]
def letterM : List Byte := [0x4D]
def hello : List Byte := [0x68, 0x65, 0x6C, 0x6C, 0x6F]
def twfu : List Byte := [0x54, 0x57, 0x46, 0x75]
def bg8 : List Byte := [0x62, 0x47, 0x38]
def tq : List Byte := [0x54, 0x51]
def tqPadded : List Byte := [0x54, 0x51, 0x3D, 0x3D]
def helloText : List Byte := [0x61, 0x47, 0x56, 0x73, 0x62, 0x47, 0x38, 0x3D]
def abcPadded : List Byte := [0x41, 0x42, 0x43, 0x3D, 0x3D]
def twSpaceF : List Byte := [0x54, 0x57, 0x20, 0x46]
def plusMinus : List Byte := [0x2B, 0x2D]
def threePads : List Byte := [0x3D, 0x3D, 0x3D]

/-! ### WellFormed: an ill-formed term for its one check -/

/-- Rule R93: LUTF requires IMM[7:6] = 0. -/
theorem test_wellFormed_lutf_refuses : (Instr.lutf .standard 64).wellFormed = false := by decide
theorem test_wellFormed_lutf_refuses_high_bit : (Instr.lutf .urlSafe 0x80).wellFormed = false := by decide
theorem test_wellFormed_lutf_accepts : (Instr.lutf .urlSafe 63).wellFormed = true := by decide
/-- An ill-formed LUTF has a word, which the decoder refuses by name (S8: `.word 0x00004001`). -/
theorem test_lutf_64_is_no_command : decode (encode (.lutf .standard 64)) = .error .immHighNotZero := by decide

/-! ### Decoding: every constructor's word, from rules R90 to R92 and the words of S4 to S13 -/

theorem test_decode_nop : decode 0x00000000 = .ok .nop := by decide
theorem test_decode_lutf : decode 0x00001301 = .ok (.lutf .standard 19) ∧ decode 0x00003F11 = .ok (.lutf .urlSafe 63) := by
  decide
theorem test_decode_lutr : decode 0x00005402 = .ok (.lutr 0x54) ∧ decode 0x0000FF02 = .ok (.lutr 0xFF) := by decide
theorem test_decode_cls : decode 0x00002103 = .ok (.cls 0x21) ∧ decode 0x0000A003 = .ok (.cls 0xA0) := by decide
theorem test_decode_enc3 : decode 0x00000004 = .ok (.enc3 .standard) ∧ decode 0x00000014 = .ok (.enc3 .urlSafe) := by decide
theorem test_decode_enc2 : decode 0x00000005 = .ok (.enc2 .standard) ∧ decode 0x00000015 = .ok (.enc2 .urlSafe) := by decide
theorem test_decode_enc1 : decode 0x00000006 = .ok (.enc1 .standard) ∧ decode 0x00000016 = .ok (.enc1 .urlSafe) := by decide
theorem test_decode_dec : decode 0x00000007 = .ok .dec4 ∧ decode 0x00000008 = .ok .dec3 ∧ decode 0x00000009 = .ok .dec2 := by
  decide
theorem test_decode_valid : decode 0x0000000A = .ok .valid := by decide
theorem test_decode_info : decode 0x0000000B = .ok .info := by decide
theorem test_decode_encode : decode 0x0000000C = .ok (.encode .standard) ∧ decode 0x0000001C = .ok (.encode .urlSafe) := by
  decide
theorem test_decode_decode : decode 0x0000000D = .ok (.decode .standard) ∧ decode 0x0000001D = .ok (.decode .urlSafe) := by
  decide
theorem test_decode_clrerr : decode 0x0000000F = .ok .clrerr := by decide
/-- The illegal words of S13, each with the condition of rule R94 it meets. -/
theorem test_decode_rejects :
    decode 0x0000000E = .error .reservedOpcode ∧ decode 0x00000010 = .error .uNotZero ∧
    decode 0x00000020 = .error .z0NotZero ∧ decode 0x00000100 = .error .immNotZero ∧
    decode 0x00010000 = .error .z1NotZero ∧ decode 0x80000000 = .error .z1NotZero ∧
    decode 0x00000017 = .error .uNotZero ∧ decode 0x00000012 = .error .uNotZero ∧
    decode 0x00000104 = .error .immNotZero ∧ decode 0x00008001 = .error .immHighNotZero := by decide
theorem test_decodeTableWord : decodeTableWord 32 0x0000001D = some (.decode .urlSafe) ∧ decodeTableWord 32 0xE = none := by
  decide

/-! ### The ROM counts of S8 -/

theorem test_rom_counts :
    (List.range 256).countP (fun n => (rev (BitVec.ofNat 8 n)).hit) = 66 ∧
    (List.range 256).countP (fun n => cls Config.spec (BitVec.ofNat 8 n) == .alnum) = 62 ∧
    (List.range 256).countP (fun n => cls Config.spec (BitVec.ofNat 8 n) == .ws) = 6 ∧
    (List.range 256).countP (fun n => cls Config.spec (BitVec.ofNat 8 n) == .other) = 183 := by decide +kernel

/-! ### One step of each command -/

/-- S13: "reset | NOP | every register 0". -/
theorem test_nop : ends (exec .nop State.reset) = some [0, 0, 0, 0] := by decide
/-- S8: LUTF 19 is `T`, LUTF.U 62 is `-`. -/
theorem test_lutf : result (exec (.lutf .standard 19) State.reset) = some (0x54, 0) := by decide
theorem test_lutf_urlSafe : result (exec (.lutf .urlSafe 62) State.reset) = some (0x2D, 0) := by decide
/-- S8: LUTR `_` is 0x13F, LUTR `=` is 0. -/
theorem test_lutr_alias : result (exec (.lutr 0x5F) State.reset) = some (0x13F, 0) := by decide
theorem test_lutr_miss : result (exec (.lutr 0x3D) State.reset) = some (0, 0) := by decide
/-- S8: CLS 0x0A is 5, CLS `-` is 3. -/
theorem test_cls_ws : result (exec (.cls 0x0A) State.reset) = some (5, 0) := by decide
/-- R124 and R11: 0xA0 gives 0 whatever WS_SET is; a set that holds it is not legal (log entry 17). -/
theorem test_cls_high :
    result (exec (.cls 0xA0) State.reset) = some (0, 0) ∧ cls { Config.spec with wsSet := [0xA0, 0x20] } 0xA0 = .other ∧
    ({ Config.spec with wsSet := [0xA0, 0x20] } : Config).wf = false := by decide
theorem test_cls_url : result (exec (.cls 0x2D) State.reset) = some (3, 0) := by decide
/-- S9: NBUF = 12, "Man", OPTR 8; and OPTR 9. -/
theorem test_enc3 :
    out (exec (.enc3 .standard) (atCursors (loadedIn small man) 0 8)) = some [(8, 0x54), (9, 0x57), (10, 0x46), (11, 0x75)] := by
  decide
theorem test_enc3_full : ends (exec (.enc3 .standard) (atCursors (loadedIn small man) 0 9)) = some [0x02, 1, 0, 9] := by decide
/-- S9: "lo"; ENC2.U fits where ENC2 does not. -/
theorem test_enc2 : out (exec (.enc2 .standard) (loaded lo)) = some [(0, 0x62), (1, 0x47), (2, 0x38), (3, 0x3D)] := by decide
theorem test_enc2_urlSafe :
    out (exec (.enc2 .urlSafe) (atCursors (loadedIn small lo) 0 9)) = some [(9, 0x62), (10, 0x47), (11, 0x38)] := by decide
/-- S9: "M". -/
theorem test_enc1 : out (exec (.enc1 .standard) (loaded letterM)) = some [(0, 0x54), (1, 0x51), (2, 0x3D), (3, 0x3D)] := by decide
theorem test_enc1_urlSafe :
    ends (exec (.enc1 .urlSafe) (atCursors (loadedIn small letterM) 0 10)) = some [0, 0, 1, 12] := by decide
/-- S12: "TWFu"; "TQ==" is BADCHAR with EINFO 2. -/
theorem test_dec4 : out (exec .dec4 (loaded twfu)) = some [(0, 0x4D), (1, 0x61), (2, 0x6E)] := by decide
theorem test_dec4_badchar : ends (exec .dec4 (loaded tqPadded)) = some [0x05, 2, 0, 0] := by decide
/-- S12: "bG8"; "TWFu" from index 1 decodes "WFu". -/
theorem test_dec3 : out (exec .dec3 (loaded bg8)) = some [(0, 0x6C), (1, 0x6F)] := by decide
theorem test_dec3_any_index : out (exec .dec3 (atCursors (loaded twfu) 1 0)) = some [(0, 0x58), (1, 0x5B)] := by decide
/-- S12: "TQ==", the `==` is not looked at; "T Q=" is BADCHAR with EINFO 1. -/
theorem test_dec2 : out (exec .dec2 (loaded tqPadded)) = some [(0, 0x4D)] := by decide
theorem test_dec2_badchar : ends (exec .dec2 (loaded [0x54, 0x20, 0x51, 0x3D])) = some [0x05, 1, 0, 0] := by decide
/-- S10: "+-" is valid exactly when MIXED_OK; "===" is not valid. -/
theorem test_valid_mixed :
    ends (exec .valid (loaded plusMinus)) = some [0x10, 0, 0, 0] ∧
    ends (exec .valid (loadedIn { Config.spec with mixedOk := false } plusMinus)) = some [0, 0, 0, 0] := by decide
theorem test_valid_three_pads : ends (exec .valid (loaded threePads)) = some [0, 0, 0, 0] := by decide
/-- S11: "ABC==" and "+-". -/
theorem test_info_long_padding : numbers (exec .info (loaded abcPadded)) = some [3, 3, 5, 0, 0x10] := by decide
theorem test_info_flags : numbers (exec .info (loaded plusMinus)) = some [2, 2, 2, 1, 0xF0] := by decide
/-- S6: "hello" in both alphabets. -/
theorem test_encode : out (exec (.encode .standard) (loaded hello)) = some [(0, 0x61), (1, 0x47), (2, 0x56), (3, 0x73),
    (4, 0x62), (5, 0x47), (6, 0x38), (7, 0x3D)] := by decide
theorem test_encode_urlSafe : ends (exec (.encode .urlSafe) (loaded hello)) = some [0, 0, 5, 7] := by decide
/-- S6: "aGVsbG8="; S12: "ABC==" is PADLEN with EINFO 5. -/
theorem test_decode : out (exec (.decode .standard) (loaded helloText)) =
    some [(0, 0x68), (1, 0x65), (2, 0x6C), (3, 0x6C), (4, 0x6F)] := by decide
theorem test_decode_padlen : ends (exec (.decode .urlSafe) (loaded abcPadded)) = some [0x04, 5, 0, 0] := by decide
/-- S13: CLRERR with a fault pending, and P5: the flags stay. -/
theorem test_clrerr : ends (exec .clrerr (faulty 3 0)) = some [0, 0, 0, 0] := by decide
theorem test_clrerr_keeps_flags :
    ends (exec .clrerr { faulty 5 2 with status := ⟨5, true, true, false, false⟩ }) = some [0x30, 0, 0, 0] := by decide

/-! ### One step of the machine -/

/-- S12, P3: "TWFu", the word 0x0000000D. -/
theorem test_step_decode : ends (step ((loaded twfu).withFetchWord 32 0x0000000D)) = some [0x30, 0, 4, 3] := by decide
/-- Right after reset, with nothing placed: S7, `RESET; VALID`. -/
theorem test_step_valid_at_reset : ends (step (State.reset.withFetchWord 32 0x0000000A)) = some [0x10, 0, 0, 0] := by decide
/-- S13: an illegal word, and the same word while a fault is pending. -/
theorem test_step_illegal : ends (step (State.reset.withFetchWord 32 0x0000000E)) = some [0x01, 0xE, 0, 0] := by decide
theorem test_step_pending_fault : ends (step ((faulty 3 0).withFetchWord 32 0x0000000E)) = some [0x03, 0, 0, 0] := by decide
/-- S13: writes to STATUS are ignored, RegRead of CMD returns 0, buffer accesses at NBUF are refused. -/
theorem test_step_status_write :
    ends (step { State.reset with pending := [.regWrite 1 0xFFFFFFFF] }) = some [0, 0, 0, 0] := by decide
theorem test_step_cmd_read :
    (next? (step { State.reset with pending := [.regRead 0] })).map State.reply = some (.word 0) := by decide
theorem test_step_buffer_edge :
    (next? (step { State.resetOf small with pending := [.bufWrite .obuf 12 0] })).map State.reply = some .error ∧
    (next? (step { State.resetOf small with pending := [.bufWrite .obuf 11 0] })).map State.reply = some .done := by decide

/-! ### Witnesses: concrete states and operands that meet the hypotheses of the statements together, clause by clause -/

/-- A next state that meets a condition. -/
theorem exists_next (o : Host.Outcome State Fault Refusal) (p : State → Bool) (h : ((next? o).map p) = some true) :
    ∃ t, o = .next t ∧ p t = true := by
  cases o with
  | next t => exact ⟨t, rfl, by simpa [next?] using h⟩
  | fault f => cases h
  | refused r => cases h

/-- No fault is pending. -/
def fine (t : State) : Bool := t.status.err == 0

/-- A host that has issued the transactions `ts`. -/
def issued (s : State) (ts : List Txn) : State := { s with pending := ts }

/-! #### Encoding and the port -/

theorem witness_DecodeOfEncode : (Instr.lutf .urlSafe 63).wellFormed = true ∧ (Instr.lutr 0xFF).wellFormed = true := by decide

theorem witness_EncodeOfDecode : decode 0x00003F11 = .ok (.lutf .urlSafe 63) ∧ decode 0x0000FF03 = .ok (.cls 0xFF) := by decide

theorem witness_OpcodeMapMatchesDecoder :
    decode 0x0000FF02 = .ok (.lutr 0xFF) ∧ decode 0xFFFFFFFF = .error .z0NotZero := by decide

/-- A word for each of the six conditions of rule R94. -/
theorem witness_IllegalWordsFault :
    IllegalWord 0x0000000E ∧ IllegalWord 0x00000020 ∧ IllegalWord 0x80000000 ∧ IllegalWord 0x00000010 ∧
    IllegalWord 0x00000104 ∧ IllegalWord 0x00004001 ∧ ¬ IllegalWord 0x00003F11 ∧
    (issued State.reset [.regWrite 0 0x0000000E]).pending = .regWrite 0 0x0000000E :: [] ∧
    (issued State.reset [.regWrite 0 0x0000000E]).status.err = 0 := by
  simp only [IllegalWord]
  refine ⟨?_, ?_, ?_, ?_, ?_, ?_, ?_, rfl, rfl⟩ <;> decide

theorem witness_StepRunsDecodedCommand :
    (issued (loaded twfu) [.regWrite 0 0x00000007]).pending = .regWrite 0 0x00000007 :: [] ∧
    (issued (loaded twfu) [.regWrite 0 0x00000007]).status.err = 0 ∧ decode 0x00000007 = .ok .dec4 := by decide

theorem witness_PendingFaultIgnoresCommands :
    (faulty 5 2).status.err ≠ 0 ∧ (issued (faulty 5 2) [.regWrite 0 0x0000001F]).pending = .regWrite 0 0x0000001F :: [] ∧
    (0x0000001F : Word) ≠ 0x0000000F ∧
    (issued (faulty 1 0xE) [.regWrite 0 0x0000000F]).pending = .regWrite 0 0x0000000F :: [] := by decide

/-- One transaction of each kind that a pending fault does not touch. -/
theorem witness_PendingFaultIgnoresCommands_others :
    (∃ t, step (issued (faulty 3 0) [.regRead 15]) = .next t ∧ (t.reply == .word 0) = true) ∧
    (∃ t, step (issued (faulty 3 0) [.regWrite 3 7]) = .next t ∧ (t.ilen == 7) = true) ∧
    (∃ t, step (issued (faulty 3 0) [.bufRead .ibuf 64]) = .next t ∧ (t.reply == .error) = true) ∧
    (∃ t, step (issued (faulty 3 0) [.bufWrite .obuf 63 1]) = .next t ∧ (t.reply == .done) = true) :=
  ⟨exists_next _ _ (by decide), exists_next _ _ (by decide), exists_next _ _ (by decide), exists_next _ _ (by decide)⟩

theorem witness_RegisterTransactions :
    (issued State.reset [.regRead 10]).pending = .regRead 10 :: [] ∧
    (issued State.reset [.regRead 11]).pending = .regRead 11 :: [] ∧
    (issued State.reset [.regWrite 0 3]).pending = .regWrite 0 3 :: [] ∧
    (issued State.reset [.regWrite 5 9]).pending = .regWrite 5 9 :: [] ∧
    (issued State.reset [.regWrite 6 9]).pending = .regWrite 6 9 :: [] ∧
    (issued State.reset [.regWrite 15 9]).pending = .regWrite 15 9 :: [] := by decide

theorem witness_BufferTransactions :
    (issued (State.resetOf small) [.bufRead .ibuf 11]).pending = .bufRead .ibuf 11 :: [] ∧ 11 < (State.resetOf small).cfg.nbuf ∧
    (issued (State.resetOf small) [.bufWrite .obuf 12 7]).pending = .bufWrite .obuf 12 7 :: [] ∧
    (State.resetOf small).cfg.nbuf ≤ 12 := by decide

theorem witness_IdleBlockDoesNotAct : (loaded twfu).pending = [] := by decide

theorem witness_ResetEventClearsRegisters :
    (issued (faulty 3 0) [.reset, .regRead 1]).pending = .reset :: [.regRead 1] := by decide

/-- `fault_o` rises, falls by CLRERR, falls by the reset event, and stays. -/
theorem witness_FaultLineFollowsErr :
    (∃ t, step (issued State.reset [.regWrite 0 0xE]) = .next t ∧ t.faultLine = true) ∧
    (∃ t, step (issued (faulty 1 0xE) [.regWrite 0 0xF]) = .next t ∧ (!t.faultLine) = true) ∧
    (∃ t, step (issued (faulty 1 0xE) [.reset]) = .next t ∧ (!t.faultLine) = true) ∧
    (∃ t, step (issued (faulty 1 0xE) [.regWrite 0 0xD]) = .next t ∧ t.faultLine = true) :=
  ⟨exists_next _ _ (by decide), exists_next _ _ (by decide), exists_next _ _ (by decide), exists_next _ _ (by decide)⟩

/-! #### The ROMs and the table family -/

theorem witness_ReverseTableEntries : (rev 0x2D).hit = true ∧ (rev 0x7A).hit = true ∧ (rev 0x3D).hit = false := by decide

/-- Legal parameters at both ends of NBUF, an empty WS_SET and one that holds 0x7F, and the least code of R11's range. -/
theorem witness_ClassRomMembers :
    small.wf = true ∧ ({ nbuf := 65532, mixedOk := false, wsSet := [] } : Config).wf = true ∧ Config.spec.wf = true ∧
    ({ nbuf := 12, mixedOk := true, wsSet := [0x7F] } : Config).wf = true ∧ (0x80 : Byte) ≤ 0x80 := by decide

theorem witness_RomLaws : cls small 0x39 = .alnum ∧ cls small 0x2F = .std ∧ fwd 0 = fwd 0 ∧
    ∃ t, step (loaded twfu) = .next t ∧ fine t = true := ⟨by decide, by decide, rfl, exists_next _ _ (by decide)⟩

theorem witness_LookupFunctions : (61 : Symbol) ≠ 62 ∧ (61 : Symbol) ≠ 63 := by decide

theorem witness_LutfResult : (63 : Byte).toNat < 64 ∧ 64 ≤ (64 : Byte).toNat := by decide

theorem witness_ClsResult : cls small 0x21 = .other ∧ cls small 0x41 = .alnum ∧ cls small 0x2B = .std ∧
    cls small 0x5F = .url ∧ cls small 0x3D = .pad ∧ cls small 0x20 = .ws ∧
    (0x80 : Byte) ≤ 0x80 ∧ (0x80 : Byte) ≤ 0xFF := by decide

/-- Two equal packings, for the bijection of rule R140. -/
theorem witness_Pack3Bits : pack3 0x4D 0x61 0x6E = (19, 22, 5, 46) := by decide

/-! #### The group commands: input side (by ILEN, by the cursor), output side, and within the bounds up to their ends -/

theorem witness_Enc3EncodesTriplet :
    small.wf = true ∧
    (let s := loadedIn small (List.replicate 13 0); s.cfg.nbuf < s.ilen.toNat) ∧
    (let s := atCursors (loadedIn small man) 1 0; s.ilen.toNat < s.iptr.toNat + 3) ∧
    (let s := atCursors (loadedIn small man) 0xFFFFFFFF 0; s.ilen.toNat < s.iptr.toNat + 3) ∧
    (let s := atCursors (loadedIn small man) 0 9
     s.ilen.toNat ≤ s.cfg.nbuf ∧ s.iptr.toNat + 3 ≤ s.ilen.toNat ∧ s.cfg.nbuf < s.optr.toNat + 4) ∧
    (let s := atCursors (loadedIn small man) 0 8
     s.ilen.toNat ≤ s.cfg.nbuf ∧ s.iptr.toNat + 3 ≤ s.ilen.toNat ∧ s.optr.toNat + 4 ≤ s.cfg.nbuf) := by decide

theorem witness_Enc2EncodesPair :
    (let s := atCursors (loadedIn small lo) 1 0; s.ilen.toNat < s.iptr.toNat + 2) ∧
    (let s := atCursors (loadedIn small lo) 0 9
     s.cfg.wf = true ∧ s.ilen.toNat ≤ s.cfg.nbuf ∧ s.iptr.toNat + 2 ≤ s.ilen.toNat ∧ s.cfg.nbuf < s.optr.toNat + 4 ∧
     s.optr.toNat + 3 ≤ s.cfg.nbuf) ∧
    (let s := atCursors (loadedIn small lo) 0 8; s.optr.toNat + 4 ≤ s.cfg.nbuf) ∧
    (let s := atCursors (loadedIn small lo) 0 10; s.cfg.nbuf < s.optr.toNat + 3) := by decide

theorem witness_Enc1EncodesByte :
    (let s := atCursors (loadedIn small letterM) 1 0; s.ilen.toNat < s.iptr.toNat + 1) ∧
    (let s := atCursors (loadedIn small letterM) 0 10
     s.cfg.wf = true ∧ s.ilen.toNat ≤ s.cfg.nbuf ∧ s.iptr.toNat + 1 ≤ s.ilen.toNat ∧ s.cfg.nbuf < s.optr.toNat + 4 ∧
     s.optr.toNat + 2 ≤ s.cfg.nbuf) ∧
    (let s := atCursors (loadedIn small letterM) 0 8; s.optr.toNat + 4 ≤ s.cfg.nbuf) ∧
    (let s := atCursors (loadedIn small letterM) 0 11; s.cfg.nbuf < s.optr.toNat + 2) := by decide

/-- In bounds with four hits, in bounds with the first miss at each end of the group, and the two bounds. -/
theorem witness_Dec4DecodesGroup :
    (let s := atCursors (loadedIn small twfu) 0 9
     s.cfg.wf = true ∧ s.ilen.toNat ≤ s.cfg.nbuf ∧ s.iptr.toNat + 4 ≤ s.ilen.toNat ∧ s.optr.toNat + 3 ≤ s.cfg.nbuf ∧
     ∀ k, k < 4 → s.hitAt (s.iptr.toNat + k)) ∧
    (loadedIn small [0x3D, 0x51, 0x3D, 0x3D]).firstBadAt 0 0 ∧ (loadedIn small [0x54, 0x51, 0x54, 0x3D]).firstBadAt 0 3 ∧
    (let s := atCursors (loadedIn small twfu) 1 0; s.ilen.toNat < s.iptr.toNat + 4) ∧
    (let s := atCursors (loadedIn small twfu) 0 10; s.cfg.nbuf < s.optr.toNat + 3) := by
  unfold State.firstBadAt State.hitAt
  decide

theorem witness_Dec3DecodesTail :
    (let s := atCursors (loadedIn small twfu) 1 10
     s.cfg.wf = true ∧ s.ilen.toNat ≤ s.cfg.nbuf ∧ s.iptr.toNat + 3 ≤ s.ilen.toNat ∧ s.optr.toNat + 2 ≤ s.cfg.nbuf ∧
     ∀ k, k < 3 → s.hitAt (s.iptr.toNat + k)) ∧
    (loadedIn small [0x3D, 0x51, 0x3D]).firstBadAt 0 0 ∧ (loadedIn small [0x54, 0x51, 0x3D]).firstBadAt 0 2 ∧
    (let s := atCursors (loadedIn small twfu) 2 0; s.ilen.toNat < s.iptr.toNat + 3) ∧
    (let s := atCursors (loadedIn small twfu) 0 11; s.cfg.nbuf < s.optr.toNat + 2) := by
  unfold State.firstBadAt State.hitAt
  decide

theorem witness_Dec2DecodesTail :
    (let s := atCursors (loadedIn small tqPadded) 0 11
     s.cfg.wf = true ∧ s.ilen.toNat ≤ s.cfg.nbuf ∧ s.iptr.toNat + 2 ≤ s.ilen.toNat ∧ s.optr.toNat + 1 ≤ s.cfg.nbuf ∧
     ∀ k, k < 2 → s.hitAt (s.iptr.toNat + k)) ∧
    (loadedIn small threePads).firstBadAt 0 0 ∧ (loadedIn small [0x54, 0x3D]).firstBadAt 0 1 ∧
    (let s := atCursors (loadedIn small tqPadded) 3 0; s.ilen.toNat < s.iptr.toNat + 2) ∧
    (let s := atCursors (loadedIn small tqPadded) 0 12; s.cfg.nbuf < s.optr.toNat + 1) := by
  unfold State.firstBadAt State.hitAt
  decide

/-! #### The whole-buffer commands -/

/-- Too long an input; an output that does not fit (ten bytes, NBUF = 12, S9); nine bytes fit exactly; tails of one and two. -/
theorem witness_EncodeEncodesInput :
    (let s := loadedIn small (List.replicate 13 0); s.cfg.wf = true ∧ s.cfg.nbuf < s.ilen.toNat) ∧
    (let s := loadedIn small (List.replicate 10 0); s.ilen.toNat ≤ s.cfg.nbuf ∧ s.cfg.nbuf < 4 * (s.ilen.toNat / 3) + 2) ∧
    (let s := loadedIn small (List.replicate 9 0); s.ilen.toNat ≤ s.cfg.nbuf ∧ 4 * (s.ilen.toNat / 3) ≤ s.cfg.nbuf ∧ 2 < s.ilen.toNat / 3) ∧
    (let s := loadedIn small hello; s.ilen.toNat % 3 = 2 ∧ 4 * (s.ilen.toNat / 3) + 4 ≤ s.cfg.nbuf) ∧
    (let s := loadedIn small letterM; s.ilen.toNat % 3 = 1 ∧ 4 * (s.ilen.toNat / 3) + 4 ≤ s.cfg.nbuf) := by decide

/-- ENCODE ends without a fault, in either alphabet: the premises of EncodeIsGroupSequence, StandardLengthLaw,
UrlSafeLengthLaw and UrlSafeIsSubstitutedStandard. -/
theorem witness_EncodeSucceeds :
    (loadedIn small hello).cfg.wf = true ∧ (loadedIn small hello).status.err = 0 ∧
    (∃ t, exec (.encode .standard) (loadedIn small hello) = .next t ∧ fine t = true) ∧
    (∃ t, exec (.encode .urlSafe) (loadedIn small hello) = .next t ∧ fine t = true) ∧
    (∃ t, exec (.encode .urlSafe) (loadedIn small letterM) = .next t ∧ fine t = true) ∧
    (∃ t, exec (.encode .urlSafe) (loadedIn small []) = .next t ∧ fine t = true) :=
  ⟨by decide, by decide, exists_next _ _ (by decide), exists_next _ _ (by decide), exists_next _ _ (by decide),
    exists_next _ _ (by decide)⟩

theorem witness_ValidFlag :
    (let s := loadedIn small (List.replicate 13 0x41); s.cfg.nbuf < s.ilen.toNat) ∧
    (let s := loadedIn small (List.replicate 12 0x41); s.ilen.toNat ≤ s.cfg.nbuf ∧ ValidInput s.cfg s.inputBytes) ∧
    (let s := loadedIn small threePads; s.ilen.toNat ≤ s.cfg.nbuf ∧ ¬ ValidInput s.cfg s.inputBytes) :=
  ⟨by decide, ⟨by decide, (validText_iff _ _).1 (by decide)⟩, by decide, fun h => by
    have := (validText_iff _ _).2 h
    revert this
    decide⟩

theorem witness_MixedReadingsDiffer : (loadedIn small plusMinus).ilen.toNat ≤ small.nbuf := by decide

/-- V = 1 on an input with whitespace, characters and two `=`. -/
theorem witness_ValidInputGuarantees :
    (loadedIn small [0x54, 0x51, 0x3D, 0x20, 0x3D]).ilen.toNat ≤ (loadedIn small [0x54, 0x51, 0x3D, 0x20, 0x3D]).cfg.nbuf ∧
    (∃ t, exec .valid (loadedIn small [0x54, 0x51, 0x3D, 0x20, 0x3D]) = .next t ∧ t.status.v = true) :=
  ⟨by decide, exists_next _ _ (by decide)⟩

/-- The input is valid and its valid-character length is `v`, by computation. -/
theorem valid_vlen (s : State) (v : Nat) (h : validText s.cfg s.input = true ∧ vlenOf s.input = v) :
    ValidInput s.cfg s.inputBytes ∧ IsVlen s v := ⟨(validText_iff _ _).1 h.1, (State.isVlen_iff s v).2 h.2.symm⟩

theorem witness_InfoResult :
    small.wf = true ∧ (let s := loadedIn small (List.replicate 13 0x41); s.cfg.nbuf < s.ilen.toNat) ∧
    (let s := loadedIn small threePads; s.ilen.toNat ≤ s.cfg.nbuf ∧ ¬ ValidInput s.cfg s.inputBytes) ∧
    (let s := loadedIn small tq; s.ilen.toNat ≤ s.cfg.nbuf ∧ ValidInput s.cfg s.inputBytes ∧ IsVlen s 2) ∧
    (let s := loadedIn small []; s.ilen.toNat ≤ s.cfg.nbuf ∧ ValidInput s.cfg s.inputBytes ∧ IsVlen s 0) :=
  ⟨by decide, by decide, witness_ValidFlag.2.2, ⟨by decide, valid_vlen _ _ (by decide)⟩, by decide, valid_vlen _ _ (by decide)⟩

/-- Three characters and two `=`: the row of rule R173's table with padding length 5. -/
theorem witness_PaddingLengthTable :
    let s := loadedIn small abcPadded
    s.cfg.wf = true ∧ s.ilen.toNat ≤ s.cfg.nbuf ∧ s.ilen.toNat = 3 + 2 ∧ (∀ i, i < 3 → s.hitAt i) ∧
    (∀ i, 3 ≤ i → i < 3 + 2 → s.readByte .ibuf i = 0x3D) ∧ ValidInput s.cfg s.inputBytes := by
  refine ⟨by decide, by decide, by decide, ?_, fun i h1 h2 => ?_, (validText_iff _ _).1 (by decide)⟩
  · unfold State.hitAt
    decide
  · obtain rfl | rfl : i = 3 ∨ i = 4 := by omega
    · decide
    · decide

theorem witness_InfoAndDecodeAgree :
    (loadedIn small tq).status.err = 0 ∧ (∃ t, exec .info (loadedIn small tq) = .next t ∧ fine t = true) ∧
    (∃ t, exec (.decode .urlSafe) (loadedIn small tq) = .next t ∧ fine t = true) :=
  ⟨by decide, exists_next _ _ (by decide), exists_next _ _ (by decide)⟩

/-- The clauses of DECODE: too long; invalid; PADLEN; BADCHAR at the last character below VLEN; success with padding length 0,
1 and 2. -/
theorem witness_DecodeDecodesInput :
    (let s := loadedIn small (List.replicate 13 0x41); s.cfg.wf = true ∧ s.cfg.nbuf < s.ilen.toNat) ∧
    (let s := loadedIn small threePads; s.ilen.toNat ≤ s.cfg.nbuf ∧ ¬ ValidInput s.cfg s.inputBytes) ∧
    (let s := loadedIn small abcPadded; (ValidInput s.cfg s.inputBytes ∧ IsVlen s 3) ∧ 2 < s.paddedLen - 3) ∧
    (let s := loadedIn small [0x54, 0x20]; (ValidInput s.cfg s.inputBytes ∧ IsVlen s 2) ∧ s.paddedLen - 2 ≤ 2 ∧ s.firstBadAt 0 1) ∧
    (let s := loadedIn small twfu; (ValidInput s.cfg s.inputBytes ∧ IsVlen s 4) ∧ s.paddedLen - 4 ≤ 2 ∧ ∀ i, i < 4 → s.hitAt i) ∧
    (let s := loadedIn small bg8; (ValidInput s.cfg s.inputBytes ∧ IsVlen s 3) ∧ s.paddedLen - 3 = 1 ∧ ∀ i, i < 3 → s.hitAt i) ∧
    (let s := loadedIn small tq; (ValidInput s.cfg s.inputBytes ∧ IsVlen s 2) ∧ s.paddedLen - 2 = 2 ∧ ∀ i, i < 2 → s.hitAt i) := by
  refine ⟨by decide, witness_ValidFlag.2.2, ⟨valid_vlen _ _ (by decide), by decide⟩, ⟨valid_vlen _ _ (by decide), by decide, ?_⟩,
    ⟨valid_vlen _ _ (by decide), by decide, ?_⟩, ⟨valid_vlen _ _ (by decide), by decide, ?_⟩, valid_vlen _ _ (by decide),
    by decide, ?_⟩
  · unfold State.firstBadAt State.hitAt
    decide
  all_goals
    unfold State.hitAt
    decide

/-- A DECODE that succeeds and one that meets whitespace. -/
theorem witness_DecodeSucceedsExactly :
    (loadedIn small bg8).status.err = 0 ∧ (∃ t, exec (.decode .standard) (loadedIn small bg8) = .next t ∧ fine t = true) ∧
    ((ValidInput small (loadedIn small twSpaceF).inputBytes ∧ IsVlen (loadedIn small twSpaceF) 4) ∧
      ∃ t, exec (.decode .standard) (loadedIn small twSpaceF) = .next t ∧ (!fine t) = true) :=
  ⟨by decide, exists_next _ _ (by decide), valid_vlen (loadedIn small twSpaceF) 4 (by decide), exists_next _ _ (by decide)⟩

/-- "-w" and its normalised string "+w==". -/
theorem witness_DecodeIgnoresUrlFlag :
    let s := loadedIn small [0x2D, 0x77]
    let s' := loadedIn small [0x2B, 0x77, 0x3D, 0x3D]
    s.cfg.wf = true ∧ s.paddedLen ≤ s.cfg.nbuf ∧ (ValidInput s.cfg s.inputBytes ∧ IsVlen s 2) ∧
    s.paddedLen - 2 ≤ 2 ∧ (∀ i, i < 2 → s.hitAt i) ∧ s'.cfg = s.cfg ∧ s'.ilen.toNat = s.paddedLen ∧
    ∀ i, i < s.paddedLen → s'.readByte .ibuf i = toStandard (s.viewIn i) := by
  refine ⟨by decide, by decide, valid_vlen _ _ (by decide), by decide, ?_, rfl, by decide, by decide⟩
  unfold State.hitAt
  decide

/-- `E` to `H` agree above their low two bits, `Q` and `R` above their low four, and both decodes end. -/
theorem witness_DroppedBitsAreIgnored :
    (rev 0x45).hit = true ∧ (rev 0x48).hit = true ∧ (rev 0x45).val.extractLsb' 2 4 = (rev 0x47).val.extractLsb' 2 4 ∧
    (rev 0x51).val.extractLsb' 4 2 = (rev 0x66).val.extractLsb' 4 2 ∧
    (∃ t, exec .dec3 ((loaded twfu).writeByte .ibuf 2 0x45) = .next t ∧ fine t = true) ∧
    (∃ t, exec .dec2 ((loaded twfu).writeByte .ibuf 1 0x66) = .next t ∧ fine t = true) :=
  ⟨by decide, by decide, by decide, by decide, exists_next _ _ (by decide), exists_next _ _ (by decide)⟩

/-- "hello" in NBUF = 12, its ENCODE, and the text loaded back. -/
theorem witness_EncodeThenDecodeRoundTrip :
    let s := loadedIn small hello
    let s' := loadedIn small helloText
    s.cfg.wf = true ∧ s.ilen.toNat ≤ s.cfg.nbuf ∧ (s.ilen.toNat + 2) / 3 * 4 ≤ s.cfg.nbuf ∧ s'.cfg = s.cfg ∧
    ∃ t, exec (.encode .standard) s = .next t ∧
      (decide (s'.ilen = t.optr) && (List.range 8).all (fun i => s'.readByte .ibuf i == t.readByte .obuf i)) = true :=
  ⟨by decide, by decide, by decide, rfl, exists_next _ _ (by decide)⟩

/-- "-_+/" and "+/+/" through DEC4. -/
theorem witness_GroupDecodersIgnoreMixedOk :
    (∃ t, exec .dec4 (loaded [0x2D, 0x5F, 0x2B, 0x2F]) = .next t ∧ fine t = true) ∧
    (∃ t, exec .dec4 (loaded [0x2B, 0x2F, 0x2B, 0x2F]) = .next t ∧ fine t = true) ∧
    toStandard 0x2D = 0x2B ∧ toStandard 0x5F = 0x2F ∧ toStandard 0x2B = 0x2B :=
  ⟨exists_next _ _ (by decide), exists_next _ _ (by decide), by decide, by decide, by decide⟩

theorem witness_DecodeGroupCount :
    (loadedIn small helloText).cfg.wf = true ∧ (loadedIn small helloText).status.err = 0 ∧
    (∃ t, exec (.decode .standard) (loadedIn small helloText) = .next t ∧ fine t = true) :=
  ⟨by decide, by decide, exists_next _ _ (by decide)⟩

/-! #### Rules about every command -/

theorem witness_NopChangesNothing :
    (0x00000100 : Word).extractLsb' 0 4 = 0 ∧ (0x00000100 : Word) ≠ 0x00000000 := by decide

theorem witness_ClrerrClearsFault : State.reset.status.err = 0 ∧ State.reset.einfo = 0 := by decide

/-- A fault and a result of one command. -/
theorem witness_FaultsAreAllOrNothing :
    small.wf = true ∧ Instr.dec4 ≠ .clrerr ∧
    (∃ t, exec .dec4 (loadedIn small tqPadded) = .next t ∧ (!fine t) = true) ∧
    (∃ t, exec .dec4 (loadedIn small twfu) = .next t ∧ fine t = true) :=
  ⟨by decide, by decide, exists_next _ _ (by decide), exists_next _ _ (by decide)⟩

theorem witness_CommandsWriteOnlyTheirColumns :
    (∃ t, exec .info (loaded tq) = .next t ∧ fine t = true) ∧ Column.obuf ∉ Instr.info.writes ∧
    Column.cursors ∉ Instr.info.writes ∧ Column.res ∉ Instr.info.writes ∧ Column.numbers ∉ Instr.valid.writes ∧
    Column.flagV ∉ (Instr.cls 0).writes ∧ Column.flags ∉ Instr.valid.writes :=
  ⟨exists_next _ _ (by decide), by decide, by decide, by decide, by decide, by decide, by decide⟩

/-- The same operands beside different results and flags. -/
theorem witness_ResultsDependOnOperandsOnly :
    SameOperands (loaded tq) { loaded tq with res := 7, blen := 9, obuf := [(3, 1)], status := ⟨0, true, true, true, true⟩ } ∧
    (∃ t, exec (.decode .standard) (loaded tq) = .next t ∧ fine t = true) :=
  ⟨⟨rfl, rfl, rfl, rfl, fun _ _ => rfl⟩, exists_next _ _ (by decide)⟩

/-- A state with a pending fault, written buffers and a waiting command meets the invariant. -/
theorem witness_InvariantKept :
    Inv (issued ((loadedIn small tqPadded).afterFault 5 2) [.regWrite 0 0x0000000F]) ∧
    (∃ t, step (issued ((loadedIn small tqPadded).afterFault 5 2) [.regWrite 0 0x0000000F]) = .next t ∧ fine t = true) := by
  refine ⟨⟨by decide, by decide, by decide, by decide, by decide, ?_, by decide, by decide, by decide, by decide⟩,
    exists_next _ _ (by decide)⟩
  show (2 : Word).toNat < 12
  decide

theorem witness_HighCodesAreInvalid :
    (let s := loadedIn small [0x54, 0x80]; s.ilen.toNat ≤ s.cfg.nbuf ∧ 1 < s.ilen.toNat ∧ 0x80 ≤ s.readByte .ibuf 1) ∧
    (let s := loadedIn small [0xFF]; s.ilen.toNat ≤ s.cfg.nbuf ∧ 0 < s.ilen.toNat ∧ 0x80 ≤ s.readByte .ibuf 0) := by decide

theorem witness_InvariantAtReset : small.wf = true ∧ Config.spec.wf = true := by decide

end Sys2Proof.Tests
end

section
/-! The scope rules R11 and R12: with no transaction waiting the block does not act, and a byte 0x80..0xFF in the input
makes it invalid, whatever the parameters. Its lemmas say what VALID, INFO and DECODE do with an input that fits. -/

namespace Sys2Proof.Machine

/-! ### The classes in a valid input -/

/-- Whichever reading of the validity check MIXED_OK selects, no character of a valid input has class OTHER: it is
whitespace, of the run of permitted characters, or a trailing `=`. -/
theorem ValidInput.cls_ne_other {cfg : Config} {bs : List Byte} (h : ValidInput cfg bs) (c : Byte) (hc : c ∈ bs) :
    cls cfg c ≠ .other := by
  intro ho
  obtain ⟨r, k, -, hsplit, hr⟩ := h
  have hkept : c ∈ r ++ List.replicate k 0x3D := hsplit ▸ List.mem_filter.2 ⟨hc, by simp [ho]⟩
  rcases List.mem_append.1 hkept with hrun | hpad
  · split at hr
    · simpa [ho] using hr c hrun
    · rcases hr with hr | hr <;> simpa [ho] using hr c hrun
  · have hc : c = padChar := List.eq_of_mem_replicate hpad
    rw [hc, cls_padChar] at ho
    cases ho

theorem not_validInput_of_highCode (s : State) (i : Nat) (hi : i < s.ilen.toNat) (hc : 0x80 ≤ s.readByte .ibuf i) :
    ¬ ValidInput s.cfg s.inputBytes := fun hv =>
  hv.cls_ne_other _ ((s.mem_input _).2 ⟨i, hi, rfl⟩) (cls_high s.cfg _ hc)

/-! ### The checks of VALID, INFO and DECODE on an input that fits -/

theorem inputTooLong_false (s : State) (h : s.ilen.toNat ≤ s.cfg.nbuf) : s.inputTooLong = false := by
  simp [State.inputTooLong, h]

theorem validText_input_eq_false (s : State) (h : ¬ ValidInput s.cfg s.inputBytes) : validText s.cfg s.input = false :=
  Bool.eq_false_iff.2 fun hv => h ((validText_iff s.cfg s.input).1 hv)

theorem exec_valid_inside (s : State) (h : s.ilen.toNat ≤ s.cfg.nbuf) :
    exec .valid s = .next (s.setV (validText s.cfg s.input)) := by
  simp [exec, execValid, inputTooLong_false s h]

theorem raises_info_of_not_validInput (s : State) (h : s.ilen.toNat ≤ s.cfg.nbuf)
    (hv : ¬ ValidInput s.cfg s.inputBytes) : Raises .info s 3 0 := by
  simp only [Raises, exec, execInfo, inputTooLong_false s h, validText_input_eq_false s hv]
  rfl

theorem raises_decode_of_not_validInput (s : State) (u : Alphabet) (h : s.ilen.toNat ≤ s.cfg.nbuf)
    (hv : ¬ ValidInput s.cfg s.inputBytes) : Raises (.decode u) s 3 0 := by
  simp only [Raises, exec, execDecode, inputTooLong_false s h, validText_input_eq_false s hv]
  rfl

/-! ### The statements -/

/-- Settles O58: a code 0x80..0xFF has class OTHER (rule R11), which no character of a valid input has. -/
theorem highCodesAreInvalid : Obligations.HighCodesAreInvalid := by
  intro s i hfits hi hhigh
  have hv : ¬ ValidInput s.cfg s.inputBytes := not_validInput_of_highCode s i hi hhigh
  refine ⟨?_, raises_info_of_not_validInput s hfits hv, fun u => raises_decode_of_not_validInput s u hfits hv⟩
  rw [exec_valid_inside s hfits, validText_input_eq_false s hv]
  rfl

/-- Settles O11: the step serves the oldest waiting transaction, and there is none (rule R12). -/
theorem idleBlockDoesNotAct : Obligations.IdleBlockDoesNotAct := step_idle

end Sys2Proof.Machine
end

section
/-! What a command does to the state, as data (10_state.md rule R40): every command ends as one `Update`, whose columns are
among the command's own and whose contents are a function of the command's operands (90_conflicts.md C8). The rules about
every command are read off the few kinds of update instead of the 15 commands. -/

namespace Sys2Proof.Machine

/-! ### Updates -/

/-- The ways in which a command ends, each with all it writes. -/
inductive Update where
  | keep
  | clear
  | fault (f : FaultCode) (info : Word)
  | result (v : Word)
  | output (start : Nat) (out : List Byte) (ip op : Nat)
  | validity (b : Bool)
  | inspect (bs : List Byte)
  | decoded (bs out : List Byte)

/-- The state an update leaves. -/
def Update.apply : Update → State → State
  | .keep, s                   => s
  | .clear, s                  => s.clearFault
  | .fault f info, s           => s.raise f info
  | .result v, s               => s.setRes v
  | .output start out ip op, s => (s.writeObuf start out).setCursors ip op
  | .validity b, s             => s.setV b
  | .inspect bs, s             => s.writeInfo bs
  | .decoded bs out, s         => ((s.writeObuf 0 out).setCursors bs.length (blenOf bs)).writeInfo bs

/-- The columns of rule R40 that an update writes; a fault, and leaving it, write ERR and EINFO only. -/
def Update.writes : Update → List Column
  | .keep           => []
  | .clear          => []
  | .fault _ _      => []
  | .result _       => [.res]
  | .output _ _ _ _ => [.obuf, .cursors]
  | .validity _     => [.flagV]
  | .inspect _      => [.numbers, .flagV, .flags]
  | .decoded _ _    => [.obuf, .cursors, .numbers, .flagV, .flags]

/-- The update is legal under the parameters of `s`: a fault has an information word of rule R220, the bytes
written to OBUF are below NBUF, and the input inspected is no longer than NBUF. -/
def Update.Fits (s : State) : Update → Prop
  | .keep                 => True
  | .clear                => True
  | .fault f info         => FaultRecord (s.raise f info)
  | .result _             => True
  | .output start out _ _ => start + out.length ≤ s.cfg.nbuf
  | .validity _           => True
  | .inspect bs           => bs.length ≤ s.cfg.nbuf
  | .decoded bs out       => bs.length ≤ s.cfg.nbuf ∧ out.length ≤ s.cfg.nbuf

/-- The outcomes `o` of the command `i` at `s`, and `o'` at `s'`, are one and the same update, which writes only columns of
`i` and, where the parameters are legal, fits them. -/
def SameUpdate (i : Instr) (s s' : State) (o o' : Host.Outcome State Fault Refusal) : Prop :=
  ∃ u : Update, u.writes ⊆ i.writes ∧ (s.cfg.wf = true → u.Fits s) ∧ o = .next (u.apply s) ∧ o' = .next (u.apply s')

/-! ### Legal fault records -/

theorem faultRecord_raise_badchar (s : State) (k : Nat) (hk : k < s.ilen.toNat) (hl : s.ilen.toNat ≤ s.cfg.nbuf) :
    FaultRecord (s.raise .badchar (word32 k)) := by
  show (word32 k).toNat < s.cfg.nbuf
  rw [word32_toNat k (by omega)]
  omega

theorem faultRecord_raise_padlen (s : State) (n : Nat) (h1 : 2 < n) (h2 : n < 4294967296) :
    FaultRecord (s.raise .padlen (word32 n)) := by
  show 2 < (word32 n).toNat
  rwa [word32_toNat n h2]

/-! ### The shared operations -/

theorem SameOperands.inputTooLong {s s' : State} (h : SameOperands s s') : s'.inputTooLong = s.inputTooLong := by
  simp [State.inputTooLong, h.cfg, h.ilen]

theorem SameOperands.inputShort {s s' : State} (h : SameOperands s s') (n : Nat) : s'.inputShort n = s.inputShort n := by
  simp [State.inputShort, State.inputTooLong, h.cfg, h.ilen, h.iptr]

theorem SameOperands.outputFull {s s' : State} (h : SameOperands s s') (m : Nat) : s'.outputFull m = s.outputFull m := by
  simp [State.outputFull, h.cfg, h.optr]

theorem SameOperands.groupDone {s s' : State} (h : SameOperands s s') (n : Nat) (out : List Byte) :
    s'.groupDone n out =
      (Update.output s.optr.toNat out (s.iptr.toNat + n) (s.optr.toNat + out.length)).apply s' := by
  rw [← h.iptr, ← h.optr]
  rfl

section
variable {i : Instr} {s s' : State}

theorem sameUpdate_takeFault (f : FaultCode) (info : Word)
    (hr : s.cfg.wf = true → FaultRecord (s.raise f info)) : SameUpdate i s s' (s.takeFault f info) (s'.takeFault f info) :=
  ⟨.fault f info, List.nil_subset _, hr, rfl, rfl⟩

theorem sameUpdate_groupDone (h : SameOperands s s') (n : Nat) (out : List Byte) (hi : [.obuf, .cursors] ⊆ i.writes)
    (ho : s.outputFull out.length = false) :
    SameUpdate i s s' (.next (s.groupDone n out)) (.next (s'.groupDone n out)) := by
  refine ⟨.output s.optr.toNat out _ _, hi, fun _ => ?_, rfl, congrArg _ (h.groupDone n out)⟩
  have := mt (outputFull_iff s out.length).2 (by simp [ho])
  exact Nat.le_of_not_lt this

/-- The bounds checks read operands only, so both states are within them or take the same fault. -/
theorem sameUpdate_boundedGroup (h : SameOperands s s') (n m : Nat) (run run' : Host.Outcome State Fault Refusal)
    (hrun : s.inputShort n = false → s.outputFull m = false → SameUpdate i s s' run run') :
    SameUpdate i s s' (s.boundedGroup n m run) (s'.boundedGroup n m run') := by
  unfold State.boundedGroup
  rw [h.inputShort, h.outputFull]
  split
  · exact sameUpdate_takeFault _ _ fun _ => Or.inl rfl
  · next hs =>
    split
    · exact sameUpdate_takeFault _ _ fun _ => Or.inr rfl
    · next ho => exact hrun (by simpa using hs) (by simpa using ho)

theorem sameUpdate_decodeGroup (h : SameOperands s s') (cs out : List Byte) (hi : [.obuf, .cursors] ⊆ i.writes)
    (hc : ∀ k (hk : k < cs.length), cs[k] = s.readByte .ibuf (s.iptr.toNat + k)) (hs : s.inputShort cs.length = false)
    (ho : s.outputFull out.length = false) : SameUpdate i s s' (s.decodeGroup cs out) (s'.decodeGroup cs out) := by
  unfold State.decodeGroup
  rw [h.iptr]
  split
  · next j hj =>
    obtain ⟨hlt, hfits, -⟩ := firstMiss_inside s j cs hc hs hj
    exact sameUpdate_takeFault _ _ fun _ => faultRecord_raise_badchar s _ hlt hfits
  · exact sameUpdate_groupDone h _ out hi ho

end

/-- The character at the cursor is an operand wherever the input-side check has passed. -/
theorem SameOperands.atCursor_of_inside {s s' : State} (h : SameOperands s s') {n : Nat} (hs : s.inputShort n = false)
    {k : Nat} (hk : k < n) : s'.atCursor k = s.atCursor k := by
  have := mt (inputShort_iff s n).2 (by simp [hs])
  exact SameOperands.atCursor s s' h k (by omega)

/-! ### DECODE -/

/-- A successful decode puts out no more bytes than OBUF has: the output of a padded input is at most three quarters of it,
and NBUF is at least 12 (rules R4, R191). -/
theorem decodeText_length_le (bs out : List Byte) (n : Nat) (hn : 12 ≤ n) (hl : bs.length ≤ n) (hp : plenOf bs ≤ 2)
    (h : decodeText (padded bs) (plenOf bs) = .ok out) : out.length ≤ n := by
  rw [decodeText_length bs out hp h]
  have hb := (blenOf_eq bs hp).1
  have hfill := fillOf_lt bs.length
  rw [padded_length] at hb
  omega

theorem sameUpdate_decodeValid {s s' : State} (u : Alphabet) (hl : s.ilen.toNat ≤ s.cfg.nbuf) :
    SameUpdate (.decode u) s s' (s.decodeValid s.input) (s'.decodeValid s.input) := by
  unfold State.decodeValid
  split
  · next hp =>
    refine sameUpdate_takeFault _ _ fun hw => faultRecord_raise_padlen s _ hp ?_
    have hb := configWf_nbuf s.cfg hw
    have hv := vlenOf_add_plenOf s.input
    have hfill := fillOf_lt s.input.length
    rw [padded_length] at hv
    rw [State.input_length] at hv hfill
    omega
  · next hp =>
    split
    · next j hj =>
      have hlt := (decodeText_error s j (by omega) hj).1
      have hv := vlenOf_le_length s.input
      rw [State.input_length] at hv
      exact sameUpdate_takeFault _ _ fun _ => faultRecord_raise_badchar s j (by omega) hl
    · next out ho =>
      refine ⟨.decoded s.input out, List.Subset.refl _, fun hw => ⟨?_, ?_⟩, rfl, rfl⟩
      · rwa [State.input_length]
      · exact decodeText_length_le s.input out _ (configWf_nbuf s.cfg hw).1 (by rwa [State.input_length]) (by omega) ho

/-! ### Every command -/

/-- From two states with the same operands a command ends as the same update (90_conflicts.md C8). -/
theorem exec_sameUpdate (i : Instr) (s s' : State) (h : SameOperands s s') :
    SameUpdate i s s' (exec i s) (exec i s') := by
  have hin : s'.input = s.input := SameOperands.input s s' h
  cases i with
  | nop => exact ⟨.keep, List.nil_subset _, fun _ => trivial, rfl, rfl⟩
  | clrerr => exact ⟨.clear, List.nil_subset _, fun _ => trivial, rfl, rfl⟩
  | lutf u imm => exact ⟨.result _, List.Subset.refl _, fun _ => trivial, rfl, rfl⟩
  | lutr imm => exact ⟨.result _, List.Subset.refl _, fun _ => trivial, rfl, rfl⟩
  | cls imm =>
    refine ⟨.result _, List.Subset.refl _, fun _ => trivial, rfl, ?_⟩
    rw [← h.cfg]
    rfl
  | enc3 u =>
    refine sameUpdate_boundedGroup h _ _ _ _ fun hs ho => ?_
    rw [h.atCursor_of_inside hs (by omega), h.atCursor_of_inside hs (by omega), h.atCursor_of_inside hs (by omega)]
    exact sameUpdate_groupDone h _ _ (List.Subset.refl _) ho
  | enc2 u =>
    refine sameUpdate_boundedGroup h _ _ _ _ fun hs ho => ?_
    rw [h.atCursor_of_inside hs (by omega), h.atCursor_of_inside hs (by omega)]
    exact sameUpdate_groupDone h _ _ (List.Subset.refl _) (by rwa [enc2Text_length])
  | enc1 u =>
    refine sameUpdate_boundedGroup h _ _ _ _ fun hs ho => ?_
    rw [h.atCursor_of_inside hs (by omega)]
    exact sameUpdate_groupDone h _ _ (List.Subset.refl _) (by rwa [enc1Text_length])
  | dec4 =>
    refine sameUpdate_boundedGroup h _ _ _ _ fun hs ho => ?_
    rw [h.atCursor_of_inside hs (by omega), h.atCursor_of_inside hs (by omega), h.atCursor_of_inside hs (by omega),
      h.atCursor_of_inside hs (by omega)]
    exact sameUpdate_decodeGroup h _ _ (List.Subset.refl _) (atCursor4_getElem s) hs ho
  | dec3 =>
    refine sameUpdate_boundedGroup h _ _ _ _ fun hs ho => ?_
    rw [h.atCursor_of_inside hs (by omega), h.atCursor_of_inside hs (by omega), h.atCursor_of_inside hs (by omega)]
    exact sameUpdate_decodeGroup h _ _ (List.Subset.refl _) (atCursor3_getElem s) hs ho
  | dec2 =>
    refine sameUpdate_boundedGroup h _ _ _ _ fun hs ho => ?_
    rw [h.atCursor_of_inside hs (by omega), h.atCursor_of_inside hs (by omega)]
    exact sameUpdate_decodeGroup h _ _ (List.Subset.refl _) (atCursor2_getElem s) hs ho
  | valid =>
    simp only [exec, execValid, h.inputTooLong, hin, h.cfg]
    split
    · exact sameUpdate_takeFault _ _ fun _ => Or.inl rfl
    · exact ⟨.validity _, List.Subset.refl _, fun _ => trivial, rfl, rfl⟩
  | info =>
    simp only [exec, execInfo, h.inputTooLong, hin, h.cfg]
    split
    · exact sameUpdate_takeFault _ _ fun _ => Or.inl rfl
    · next hl =>
      split
      · exact sameUpdate_takeFault _ _ fun _ => rfl
      · refine ⟨.inspect s.input, List.Subset.refl _, fun _ => ?_, rfl, rfl⟩
        rw [inputTooLong_iff, Nat.not_lt] at hl
        simpa [Update.Fits] using hl
  | encode u =>
    simp only [exec, execEncode, h.inputTooLong, hin, h.cfg, h.ilen]
    split
    · exact sameUpdate_takeFault _ _ fun _ => Or.inl rfl
    · split
      · exact sameUpdate_takeFault _ _ fun _ => Or.inr rfl
      · next ho =>
        refine ⟨.output 0 _ _ _, List.Subset.refl _, fun _ => ?_, rfl, rfl⟩
        simpa [Update.Fits, encodeText_length] using ho
  | decode u =>
    simp only [exec, execDecode, h.inputTooLong, hin, h.cfg]
    split
    · exact sameUpdate_takeFault _ _ fun _ => Or.inl rfl
    · next hl =>
      split
      · exact sameUpdate_takeFault _ _ fun _ => rfl
      · rw [inputTooLong_iff, Nat.not_lt] at hl
        exact sameUpdate_decodeValid u hl

theorem SameOperands.refl (s : State) : SameOperands s s := ⟨rfl, rfl, rfl, rfl, fun _ _ => rfl⟩

/-- Every command ends as an update that writes only columns of the command and fits legal parameters. -/
theorem exec_update (i : Instr) (s t : State) (h : exec i s = .next t) :
    ∃ u : Update, t = u.apply s ∧ u.writes ⊆ i.writes ∧ (s.cfg.wf = true → u.Fits s) := by
  obtain ⟨u, hcols, hfits, hu, -⟩ := exec_sameUpdate i s s (SameOperands.refl s)
  exact ⟨u, Host.Outcome.next.inj (h.symm.trans hu), hcols, hfits⟩

end Sys2Proof.Machine
end

section
/-! What every command leaves alone, column by column (10_state.md rule R40), and that its results depend on its operands
and the pending fault only (90_conflicts.md C8). -/

namespace Sys2Proof.Machine

/-! ### What an update leaves alone -/

/-- `t` differs from `s` in the columns `cols`, ERR and EINFO at most. -/
structure OnlyColumns (cols : List Column) (s t : State) : Prop where
  ibuf    : SameBytes s t .ibuf
  ilen    : t.ilen = s.ilen
  cfg     : t.cfg = s.cfg
  resets  : t.resets = s.resets
  pending : t.pending = s.pending
  reply   : t.reply = s.reply
  obuf    : .obuf ∉ cols → SameBytes s t .obuf
  cursors : .cursors ∉ cols → t.iptr = s.iptr ∧ t.optr = s.optr
  res     : .res ∉ cols → t.res = s.res
  numbers : .numbers ∉ cols → t.fill = s.fill ∧ t.vlen = s.vlen ∧ t.plen = s.plen ∧ t.blen = s.blen
  flagV   : .flagV ∉ cols → t.status.v = s.status.v
  flags   : .flags ∉ cols →
    t.status.plok = s.status.plok ∧ t.status.hstd = s.status.hstd ∧ t.status.hurl = s.status.hurl

theorem OnlyColumns.mono {cols cols' : List Column} {s t : State} (hsub : cols ⊆ cols') (h : OnlyColumns cols s t) :
    OnlyColumns cols' s t :=
  { h with
    obuf := fun hc => h.obuf (mt (@hsub _) hc)
    cursors := fun hc => h.cursors (mt (@hsub _) hc)
    res := fun hc => h.res (mt (@hsub _) hc)
    numbers := fun hc => h.numbers (mt (@hsub _) hc)
    flagV := fun hc => h.flagV (mt (@hsub _) hc)
    flags := fun hc => h.flags (mt (@hsub _) hc) }

theorem Update.apply_obuf_of_notMem (u : Update) (s : State) (h : .obuf ∉ u.writes) : (u.apply s).obuf = s.obuf := by
  revert h
  cases u <;> simp [Update.writes, Update.apply]

theorem Update.apply_resets (u : Update) (s : State) : (u.apply s).resets = s.resets := by cases u <;> rfl

theorem Update.apply_cfg (u : Update) (s : State) : (u.apply s).cfg = s.cfg := by cases u <;> rfl

/-- An update changes nothing but its columns, ERR and EINFO. -/
theorem Update.onlyColumns (u : Update) (s : State) : OnlyColumns u.writes s (u.apply s) where
  ibuf := fun a => by cases u <;> rfl
  ilen := by cases u <;> rfl
  cfg := u.apply_cfg s
  resets := u.apply_resets s
  pending := by cases u <;> rfl
  reply := by cases u <;> rfl
  obuf := fun h a => State.readByte_congr _ _ _ a (u.apply_obuf_of_notMem s h) (u.apply_resets s)
  cursors := by cases u <;> simp [Update.writes, Update.apply]
  res := by cases u <;> simp [Update.writes, Update.apply]
  numbers := by cases u <;> simp [Update.writes, Update.apply]
  flagV := by cases u <;> simp [Update.writes, Update.apply]
  flags := by cases u <;> simp [Update.writes, Update.apply]

theorem exec_onlyColumns (i : Instr) (s t : State) (h : exec i s = .next t) : OnlyColumns i.writes s t := by
  obtain ⟨u, rfl, hcols, -⟩ := exec_update i s t h
  exact (u.onlyColumns s).mono hcols

/-! ### What an update writes is the same wherever it is applied -/

section
variable (u : Update) (s s' : State)

theorem Update.apply_err_congr (h : s'.status.err = s.status.err) : (u.apply s').status.err = (u.apply s).status.err := by
  cases u <;> simp [Update.apply, h]

theorem Update.apply_einfo_congr (h : s'.einfo = s.einfo) : (u.apply s').einfo = (u.apply s).einfo := by
  cases u <;> simp [Update.apply, h]

theorem Update.apply_cursors_congr (hi : s'.iptr = s.iptr) (ho : s'.optr = s.optr) :
    (u.apply s').iptr = (u.apply s).iptr ∧ (u.apply s').optr = (u.apply s).optr := by
  cases u <;> simp [Update.apply, hi, ho]

theorem Update.apply_res_congr (h : .res ∈ u.writes) : (u.apply s').res = (u.apply s).res := by
  revert h
  cases u <;> simp [Update.writes, Update.apply]

theorem Update.apply_numbers_congr (h : .numbers ∈ u.writes) :
    (u.apply s').fill = (u.apply s).fill ∧ (u.apply s').vlen = (u.apply s).vlen ∧ (u.apply s').plen = (u.apply s).plen ∧
    (u.apply s').blen = (u.apply s).blen := by
  revert h
  cases u <;> simp [Update.writes, Update.apply]

theorem Update.apply_flagV_congr (h : .flagV ∈ u.writes) : (u.apply s').status.v = (u.apply s).status.v := by
  revert h
  cases u <;> simp [Update.writes, Update.apply]

/-- Whatever writes PLOK, HSTD and HURL writes V too, and keeps ERR. -/
theorem Update.apply_status_congr (hc : s'.cfg = s.cfg) (he : s'.status.err = s.status.err) (h : .flags ∈ u.writes) :
    (u.apply s').status = (u.apply s).status := by
  revert h
  cases u <;> simp [Update.writes, Update.apply, hc, he]

/-- A run of bytes written to OBUF reads alike inside it, and leaves both buffers alone outside it. -/
theorem State.readByte_writeObuf_congr (start : Nat) (out : List Byte) (a : Nat) :
    (s'.writeObuf start out).readByte .obuf a = (s.writeObuf start out).readByte .obuf a ∨
    (s.writeObuf start out).readByte .obuf a = s.readByte .obuf a ∧
      (s'.writeObuf start out).readByte .obuf a = s'.readByte .obuf a := by
  simp only [State.readByte_writeObuf]
  by_cases ha : start ≤ a ∧ a < start + out.length
  · exact .inl (by rw [if_pos ha, if_pos ha])
  · exact .inr ⟨if_neg ha, if_neg ha⟩

theorem Update.readByte_obuf_congr (a : Nat) :
    (u.apply s').readByte .obuf a = (u.apply s).readByte .obuf a ∨
    (u.apply s).readByte .obuf a = s.readByte .obuf a ∧ (u.apply s').readByte .obuf a = s'.readByte .obuf a := by
  cases u with
  | output start out ip op => exact State.readByte_writeObuf_congr s s' start out a
  | decoded bs out => exact State.readByte_writeObuf_congr s s' 0 out a
  | _ => exact .inr ⟨rfl, rfl⟩

end

/-! ### The statements -/

/-- Settles O54: a command is an update that writes only columns of the command. -/
theorem commandsWriteOnlyTheirColumns : Obligations.CommandsWriteOnlyTheirColumns := by
  intro i s t h
  obtain ⟨hibuf, hilen, hcfg, hresets, hpending, hreply, hobuf, hcursors, hres, hnumbers, hflagV, hflags⟩ :=
    exec_onlyColumns i s t h
  exact ⟨hibuf, hilen, hcfg, hresets, hpending, hreply, hobuf, hcursors, hres, hnumbers, hflagV, hflags⟩

/-- Settles O55: from both states the command is one and the same update, and each column is written alike by it or
kept in both. -/
theorem resultsDependOnOperandsOnly : Obligations.ResultsDependOnOperandsOnly := by
  intro i s s' t t' hops herr heinfo ht ht'
  obtain ⟨u, -, -, hu, hu'⟩ := exec_sameUpdate i s s' hops
  obtain rfl : t = u.apply s := Host.Outcome.next.inj (ht.symm.trans hu)
  obtain rfl : t' = u.apply s' := Host.Outcome.next.inj (ht'.symm.trans hu')
  have hk := u.onlyColumns s
  have hk' := u.onlyColumns s'
  obtain ⟨hiptr, hoptr⟩ := u.apply_cursors_congr s s' hops.iptr hops.optr
  refine ⟨u.apply_err_congr s s' herr, u.apply_einfo_congr s s' heinfo, hiptr, hoptr, ?_, ?_, ?_, ?_,
    u.readByte_obuf_congr s s'⟩
  · by_cases hw : .res ∈ u.writes
    · exact .inl (u.apply_res_congr s s' hw)
    · exact .inr ⟨hk.res hw, hk'.res hw⟩
  · by_cases hw : .numbers ∈ u.writes
    · exact .inl (u.apply_numbers_congr s s' hw)
    · obtain ⟨hfill, hvlen, hplen, hblen⟩ := hk.numbers hw
      exact .inr ⟨hfill, hvlen, hplen, hblen, hk'.numbers hw⟩
  · by_cases hw : .flagV ∈ u.writes
    · exact .inl (u.apply_flagV_congr s s' hw)
    · exact .inr ⟨hk.flagV hw, hk'.flagV hw⟩
  · by_cases hw : .flags ∈ u.writes
    · exact .inl (u.apply_status_congr s s' hops.cfg herr hw)
    · obtain ⟨hplok, hhstd, hhurl⟩ := hk.flags hw
      exact .inr ⟨hplok, hhstd, hhurl, hk'.flags hw⟩

end Sys2Proof.Machine
end

section
/-! Everything one step can do, in a few kinds: a CMD write is an update, whether its word is executed, ignored or rejected
(30_encoding.md rules R94, R95), and every other transaction is one operation of the port (20_memory.md rule R61). -/

namespace Sys2Proof.Machine

/-! ### A rejected word is illegal (30_encoding.md rule R94) -/

section
variable {w : Word} {e : Reject}

theorem toNat_eq_one_of_ne_zero {b : BitVec 1} (h : b ≠ 0) : b.toNat = 1 := by
  revert b
  decide

theorem illegalWord_of_decodeN (i : Instr) (hop : w.op.toNat ∈ [0x0, 0x7, 0x8, 0x9, 0xA, 0xB, 0xF])
    (h : decodeN w i = .error e) : IllegalWord w := by
  unfold decodeN at h
  split at h
  · next hu => exact .inr (.inr (.inr (.inl ⟨toNat_eq_one_of_ne_zero hu, List.mem_append_left [0x2, 0x3] hop⟩)))
  · split at h
    · next himm =>
      exact .inr (.inr (.inr (.inr (.inl ⟨fun h0 => himm (BitVec.eq_of_toNat_eq h0),
        List.mem_append_left [0x4, 0x5, 0x6, 0xC, 0xD] hop⟩))))
    · cases h

theorem illegalWord_of_decodeU (i : Alphabet → Instr) (hop : w.op.toNat ∈ [0x4, 0x5, 0x6, 0xC, 0xD])
    (h : decodeU w i = .error e) : IllegalWord w := by
  unfold decodeU at h
  split at h
  · next himm =>
    exact .inr (.inr (.inr (.inr (.inl ⟨fun h0 => himm (BitVec.eq_of_toNat_eq h0),
      List.mem_append_right [0x0, 0x7, 0x8, 0x9, 0xA, 0xB, 0xF] hop⟩))))
  · cases h

theorem illegalWord_of_decodeI (i : Byte → Instr) (hop : w.op.toNat ∈ [0x2, 0x3]) (h : decodeI w i = .error e) :
    IllegalWord w := by
  unfold decodeI at h
  split at h
  · next hu =>
    exact .inr (.inr (.inr (.inl ⟨toNat_eq_one_of_ne_zero hu,
      List.mem_append_right [0x0, 0x7, 0x8, 0x9, 0xA, 0xB, 0xF] hop⟩)))
  · cases h

theorem le_toNat_of_immHigh_ne_zero {imm : Byte} (h : imm.extractLsb' 6 2 ≠ 0) : 64 ≤ imm.toNat := by
  by_contra hc
  refine h (BitVec.eq_of_toNat_eq ?_)
  rw [BitVec.extractLsb'_toNat, Nat.shiftRight_eq_div_pow, Nat.div_eq_of_lt (by omega)]
  rfl

theorem illegalWord_of_decodeLutf (hop : w.op.toNat = 0x1) (h : decodeLutf w = .error e) : IllegalWord w := by
  unfold decodeLutf at h
  split at h
  · next himm => exact .inr (.inr (.inr (.inr (.inr ⟨le_toNat_of_immHigh_ne_zero himm, hop⟩))))
  · cases h

theorem illegalWord_of_decodeOp (h : decodeOp w = .error e) : IllegalWord w := by
  unfold decodeOp at h
  split at h
  case h_1 hop | h_8 hop | h_9 hop | h_10 hop | h_11 hop | h_12 hop | h_15 hop =>
    exact illegalWord_of_decodeN _ (by simp [hop]) h
  case h_2 hop => exact illegalWord_of_decodeLutf hop h
  case h_3 hop | h_4 hop => exact illegalWord_of_decodeI _ (by simp [hop]) h
  case h_5 hop | h_6 hop | h_7 hop | h_13 hop | h_14 hop => exact illegalWord_of_decodeU _ (by simp [hop]) h
  case h_16 =>
    have hlt := w.op.isLt
    exact .inl (show w.op.toNat = 0xE by grind)

/-- The decoder rejects only words that rule R94 calls illegal. -/
theorem illegalWord_of_decode_error (h : decode w = .error e) : IllegalWord w := by
  unfold decode at h
  split at h
  · next hz => exact .inr (.inl fun h0 => hz (BitVec.eq_of_toNat_eq h0))
  · split at h
    · next hz => exact .inr (.inr (.inl fun h0 => hz (BitVec.eq_of_toNat_eq h0)))
    · exact illegalWord_of_decodeOp h

end

/-! ### A CMD write is an update -/

/-- An ignored word is the update that keeps everything, a rejected one the fault ILLEGAL_CMD (rule R95). -/
theorem runCommand_update (s t : State) (w : Word) (h : s.runCommand w = .next t) :
    ∃ u : Update, t = u.apply s ∧ (s.cfg.wf = true → u.Fits s) := by
  have of_exec : ∀ i, s.runCommand w = exec i s → ∃ u : Update, t = u.apply s ∧ (s.cfg.wf = true → u.Fits s) :=
    fun i hrun => by
      obtain ⟨u, ht, -, hfits⟩ := exec_update i s t (hrun.symm.trans h)
      exact ⟨u, ht, hfits⟩
  rcases runCommand_cases s w with ⟨-, -, hrun⟩ | ⟨-, -, hrun⟩ | ⟨-, ⟨e, hd⟩, hrun⟩ | ⟨-, i, -, hrun⟩
  · exact of_exec _ hrun
  · exact ⟨.keep, Host.Outcome.next.inj (h.symm.trans hrun), fun _ => trivial⟩
  · exact ⟨.fault .illegalCmd w, Host.Outcome.next.inj (h.symm.trans hrun), fun _ => illegalWord_of_decode_error hd⟩
  · exact of_exec i hrun

/-! ### The step -/

/-- What one step leads to: the same state, an answer of the port alone, a register or a buffer byte written, an update by
a CMD write, or the state after the reset event. -/
inductive StepTo (s : State) : State → Prop where
  | idle : StepTo s s
  | answered (rest : List Txn) (r : Reply) : StepTo s (s.served rest r)
  | stored (rest : List Txn) (n : Fin 16) (v : Word) : StepTo s ((s.served rest .done).regStore n v)
  | written (rest : List Txn) (b : Buf) (i : Nat) (v : Byte) (hi : i < s.cfg.nbuf) :
      StepTo s ((s.served rest .done).writeByte b i v)
  | updated (rest : List Txn) (u : Update) (hu : s.cfg.wf = true → u.Fits (s.served rest .done)) :
      StepTo s (u.apply (s.served rest .done))
  | reset (rest : List Txn) : StepTo s (s.waiting rest).resetEvent

theorem step_stepTo (s t : State) (h : step s = .next t) : StepTo s t := by
  match hp : s.pending with
  | [] =>
    obtain rfl := Host.Outcome.next.inj ((step_idle s hp).symm.trans h)
    exact .idle
  | .regRead n :: rest =>
    obtain rfl := Host.Outcome.next.inj ((step_regRead s n rest hp).symm.trans h)
    exact .answered rest _
  | .regWrite n v :: rest =>
    by_cases hn : n = 0
    · subst hn
      obtain ⟨u, rfl, hu⟩ := runCommand_update _ t v ((step_cmdWrite s v rest hp).symm.trans h)
      exact .updated rest u hu
    · obtain rfl := Host.Outcome.next.inj ((step_regWrite s n v rest hn hp).symm.trans h)
      exact .stored rest n v
  | .bufRead b i :: rest =>
    obtain rfl := Host.Outcome.next.inj ((step_bufRead s b i rest hp).symm.trans h)
    exact .answered rest _
  | .bufWrite b i v :: rest =>
    by_cases hlt : i < s.cfg.nbuf
    · obtain rfl := Host.Outcome.next.inj ((step_bufWrite_inside s b i v rest hp hlt).symm.trans h)
      exact .written rest b i v hlt
    · obtain rfl := Host.Outcome.next.inj ((step_bufWrite_outside s b i v rest hp (by omega)).symm.trans h)
      exact .answered rest _
  | .reset :: rest =>
    obtain rfl := Host.Outcome.next.inj ((step_reset s rest hp).symm.trans h)
    exact .reset rest

end Sys2Proof.Machine
end

section
/-! The invariant of the machine (rules R25, R171 to R175, R220): it holds at reset, and every update that fits and every
transaction of the port keeps it. -/

namespace Sys2Proof.Machine

/-! ### What keeps the invariant -/

section
variable {s : State} (hi : Inv s)
include hi

theorem Inv.served (rest : List Txn) (r : Reply) : Inv (s.served rest r) := { hi with }

theorem Inv.setRes (v : Word) : Inv (s.setRes v) := { hi with }

theorem Inv.setCursors (i o : Nat) : Inv (s.setCursors i o) := { hi with }

theorem Inv.setV (b : Bool) : Inv (s.setV b) := { hi with }

theorem Inv.clearFault : Inv s.clearFault := { hi with record := rfl }

theorem Inv.raise {f : FaultCode} {info : Word} (hr : FaultRecord (s.raise f info)) : Inv (s.raise f info) :=
  { hi with record := hr }

theorem Inv.regStore (n : Fin 16) (v : Word) : Inv (s.regStore n v) := by
  unfold State.regStore
  split
  · exact { hi with }
  · exact { hi with }
  · exact { hi with }
  · exact hi

theorem Inv.writeObuf {i : Nat} {vs : List Byte} (h : i + vs.length ≤ s.cfg.nbuf) : Inv (s.writeObuf i vs) :=
  { hi with
    obufWf := Memory.wf_putAll vs i s.obuf hi.obufWf
    obufBelow := Memory.below_putAll _ vs i s.obuf h hi.obufBelow }

theorem Inv.writeByte (b : Buf) {i : Nat} (v : Byte) (h : i < s.cfg.nbuf) : Inv (s.writeByte b i v) := by
  cases b with
  | ibuf =>
    exact { hi with
      ibufWf := Memory.wf_put i v s.ibuf hi.ibufWf
      ibufBelow := Memory.below_put _ i v s.ibuf h hi.ibufBelow }
  | obuf =>
    exact { hi with
      obufWf := Memory.wf_put i v s.obuf hi.obufWf
      obufBelow := Memory.below_put _ i v s.obuf h hi.obufBelow }

/-- The numbers of an input that fits are below 2^32, so the registers hold them as they are (rules R171 to R174). -/
theorem Inv.writeInfo {bs : List Byte} (h : bs.length ≤ s.cfg.nbuf) : Inv (s.writeInfo bs) := by
  have hn := configWf_nbuf s.cfg hi.params
  have hfill := fillOf_lt bs.length
  have hsum := vlenOf_add_plenOf bs
  have hwhole := padded_length_mod bs
  have hlen := padded_length bs
  have hplen : (word32 (plenOf bs)).toNat = plenOf bs := word32_toNat _ (by omega)
  have hvlen : (word32 (vlenOf bs)).toNat = vlenOf bs := word32_toNat _ (by omega)
  exact { hi with
    fillRange := by
      rw [State.writeInfo_fill, word32_toNat _ (by omega)]
      exact hfill
    whole := by
      rw [State.writeInfo_vlen, State.writeInfo_plen, hvlen, hplen, hsum]
      exact hwhole
    plokRange := fun hplok => by
      rw [State.writeInfo_plen, hplen]
      simpa [plokOf] using hplok
    blenZero := fun hplok => by
      have hlong : ¬ plenOf bs ≤ 2 := by simpa [plokOf] using hplok
      rw [State.writeInfo_blen, blenOf, if_neg hlong]
      rfl }

theorem Inv.apply {u : Update} (hu : u.Fits s) : Inv (u.apply s) := by
  cases u with
  | keep => exact hi
  | clear => exact hi.clearFault
  | fault f info => exact hi.raise hu
  | result v => exact hi.setRes v
  | output start out ip op => exact (hi.writeObuf hu).setCursors ip op
  | validity b => exact hi.setV b
  | inspect bs => exact hi.writeInfo hu
  | decoded bs out =>
    obtain ⟨hbs, hout⟩ := hu
    exact ((hi.writeObuf (by omega)).setCursors _ _).writeInfo hbs

end

theorem inv_resetOf (c : Config) (hc : c.wf = true) : Inv (State.resetOf c) :=
  ⟨hc, rfl, rfl, rfl, rfl, rfl, Nat.succ_pos 3, rfl, fun _ => Nat.zero_le 2, fun _ => rfl⟩

theorem Inv.resetEvent {s : State} (hi : Inv s) : Inv s.resetEvent := { inv_resetOf s.cfg hi.params with }

/-! ### The statements -/

/-- Settles O57: every register is 0, no fault is pending and no byte is listed. -/
theorem invariantAtReset : Obligations.InvariantAtReset :=
  ⟨inv_resetOf, inv_resetOf Config.spec (by decide)⟩

/-- Settles O56, by the kind of the step. -/
theorem invariantKept : Obligations.InvariantKept := by
  intro s t hi h
  cases step_stepTo s t h with
  | idle => exact hi
  | answered rest r => exact hi.served rest r
  | stored rest n v => exact (hi.served rest .done).regStore n v
  | written rest b i v hlt => exact (hi.served rest .done).writeByte b v hlt
  | updated rest u hu => exact (hi.served rest .done).apply (hu hi.params)
  | reset rest => exact Inv.resetEvent (s := s.waiting rest) { hi with }

end Sys2Proof.Machine
end

section
/-! The ROMs (10_state.md rules R21 to R24): the forward table as a string, the members of the reverse table and of the six
classes, and that no step changes a ROM. -/

namespace Sys2Proof.Machine

/-! ### FWD and REV -/

/-- The string of rule R21, as codes. -/
theorem alphabet_codes_eq_fwdRom :
    "ABCDEFGHIJKLMNOPQRSTUVWXYZabcdefghijklmnopqrstuvwxyz0123456789+/".toList.map Char.toNat =
      fwdRom.map BitVec.toNat := by decide

theorem fwdRom_getElem? (i : Symbol) : fwdRom[i.toNat]? = some (fwd i) := by
  have hi : i.toNat < fwdRom.length := i.isLt
  rw [fwd, List.getD_eq_getElem _ _ hi, List.getElem?_eq_getElem hi]

theorem fwd_injective : Function.Injective fwd := fun i j h => by
  simpa [rev_fwd] using congrArg (fun c => (rev c).val) h

/-- The code ranges of rule R22. -/
theorem rev_hit_iff (c : Byte) :
    (rev c).hit = true ↔ (c = 0x2B ∨ c = 0x2F) ∨ (c = 0x2D ∨ c = 0x5F) ∨
      (0x41 ≤ c ∧ c ≤ 0x5A) ∨ (0x61 ≤ c ∧ c ≤ 0x7A) ∨ (0x30 ≤ c ∧ c ≤ 0x39) := by
  unfold rev
  split_ifs <;> simp_all

theorem rev_val_of_miss (c : Byte) (h : (rev c).hit = false) : (rev c).val = 0 := by
  unfold rev at h ⊢
  split_ifs at h ⊢
  rfl

/-- FWD undoes REV on every character of the standard alphabet (rule R24 (b)). -/
theorem fwd_rev_val : ∀ c : Byte, (rev c).hit = true → ¬ (c = 0x2D ∨ c = 0x5F) → fwd (rev c).val = c := by decide

theorem countP_rev_hit : (List.range 256).countP (fun n => (rev (BitVec.ofNat 8 n)).hit) = 66 := by decide +kernel

/-! ### The members of the classes -/

section
variable (cfg : Config) (c : Byte)

theorem cls_eq_std : cls cfg c = .std ↔ c = 0x2B ∨ c = 0x2F := by
  unfold cls
  split_ifs <;> simp_all

theorem cls_eq_url : cls cfg c = .url ↔ c = 0x2D ∨ c = 0x5F := by
  by_cases hstd : c = 0x2B ∨ c = 0x2F
  · rcases hstd with rfl | rfl <;> simp [cls]
  · unfold cls
    rw [if_neg hstd]
    split_ifs <;> simp_all

/-- The letters and digits are what is left of the reverse table without its four special characters. -/
theorem cls_eq_alnum :
    cls cfg c = .alnum ↔ (0x41 ≤ c ∧ c ≤ 0x5A) ∨ (0x61 ≤ c ∧ c ≤ 0x7A) ∨ (0x30 ≤ c ∧ c ≤ 0x39) := by
  constructor
  · intro h
    have hhit := (hit_iff_cls cfg c).2 (.inl h)
    have hstd : ¬ (c = 0x2B ∨ c = 0x2F) := mt (cls_eq_std cfg c).2 (by simp [h])
    have hurl : ¬ (c = 0x2D ∨ c = 0x5F) := mt (cls_eq_url cfg c).2 (by simp [h])
    exact (((rev_hit_iff c).1 hhit).resolve_left hstd).resolve_left hurl
  · intro h
    have hhit := (rev_hit_iff c).2 (.inr (.inr h))
    rcases (hit_iff_cls cfg c).1 hhit with halnum | hstd | hurl
    · exact halnum
    · rcases (cls_eq_std cfg c).1 hstd with rfl | rfl <;> simp at h
    · rcases (cls_eq_url cfg c).1 hurl with rfl | rfl <;> simp at h

theorem cls_of_miss (h : (rev c).hit = false) :
    cls cfg c = if c = padChar then .pad else if c < 0x80 ∧ c ∈ cfg.wsSet then .ws else .other := by
  have hspecial : ¬ (c = 0x2B ∨ c = 0x2F) ∧ ¬ (c = 0x2D ∨ c = 0x5F) := by
    refine ⟨fun hc => ?_, fun hc => ?_⟩
    · simp [(rev_hit_iff c).2 (.inl hc)] at h
    · simp [(rev_hit_iff c).2 (.inr (.inl hc))] at h
  obtain ⟨hstd, hurl⟩ := hspecial
  rw [cls, if_neg hstd, if_neg hurl, if_neg (by simp [h])]

/-- The standard set is the reverse table without `-` and `_`. -/
theorem cls_alnum_or_std_iff : cls cfg c = .alnum ∨ cls cfg c = .std ↔ (rev c).hit = true ∧ ¬ (c = 0x2D ∨ c = 0x5F) := by
  rw [hit_iff_cls cfg, ← cls_eq_url cfg]
  cases cls cfg c <;> simp

/-- The URL-safe set is the reverse table without `+` and `/`. -/
theorem cls_alnum_or_url_iff : cls cfg c = .alnum ∨ cls cfg c = .url ↔ (rev c).hit = true ∧ ¬ (c = 0x2B ∨ c = 0x2F) := by
  rw [hit_iff_cls cfg, ← cls_eq_std cfg]
  cases cls cfg c <;> simp

/-- A legal WS_SET holds codes below 0x80 that are in no alphabet and are not `=` (rule R23, log entry 17). -/
theorem wsSet_of_wf {cfg : Config} (hw : cfg.wf = true) {c : Byte} (hc : c ∈ cfg.wsSet) :
    (rev c).hit = false ∧ c ≠ padChar ∧ c < 0x80 := by
  simp only [Config.wf, Bool.and_eq_true, List.all_eq_true] at hw
  simpa [and_assoc] using hw.2 c hc

theorem cls_eq_ws (hw : cfg.wf = true) : cls cfg c = .ws ↔ c ∈ cfg.wsSet := by
  constructor
  · intro h
    have hmiss : (rev c).hit = false := by simp [← Bool.not_eq_true, hit_iff_cls cfg, h]
    rw [cls_of_miss cfg c hmiss] at h
    split_ifs at h with hpad hws
    exact hws.2
  · intro h
    obtain ⟨hmiss, hpad, hlow⟩ := wsSet_of_wf hw h
    rw [cls_of_miss cfg c hmiss, if_neg hpad, if_pos ⟨hlow, h⟩]

theorem cls_eq_other (hw : cfg.wf = true) :
    cls cfg c = .other ↔ (rev c).hit = false ∧ c ≠ padChar ∧ c ∉ cfg.wsSet := by
  rw [← cls_eq_ws cfg c hw, Ne, ← cls_eq_pad cfg c, ← Bool.not_eq_true, hit_iff_cls cfg]
  cases cls cfg c <;> simp

end

/-- The standard set has 64 characters, whatever WS_SET is. -/
theorem countP_cls_standard (cfg : Config) :
    (List.range 256).countP (fun n => decide (cls cfg (BitVec.ofNat 8 n) = .alnum ∨ cls cfg (BitVec.ofNat 8 n) = .std)) =
      64 := by
  simp only [cls_alnum_or_std_iff]
  decide +kernel

/-- The URL-safe set has 64 characters, whatever WS_SET is. -/
theorem countP_cls_urlSafe (cfg : Config) :
    (List.range 256).countP (fun n => decide (cls cfg (BitVec.ofNat 8 n) = .alnum ∨ cls cfg (BitVec.ofNat 8 n) = .url)) =
      64 := by
  simp only [cls_alnum_or_url_iff]
  decide +kernel

/-! ### No step changes a parameter -/

theorem State.regStore_cfg (s : State) (n : Fin 16) (v : Word) : (s.regStore n v).cfg = s.cfg := by
  unfold State.regStore
  split <;> rfl

theorem step_cfg (s t : State) (h : step s = .next t) : t.cfg = s.cfg := by
  cases step_stepTo s t h with
  | idle => rfl
  | answered rest r => rfl
  | stored rest n v => exact State.regStore_cfg (s.served rest .done) n v
  | written rest b i v hlt => exact State.writeByte_cfg (s.served rest .done) b i v
  | updated rest u hu => exact u.apply_cfg (s.served rest .done)
  | reset rest => rfl

/-! ### The statements -/

/-- Settles O16: the string and FWD hold the same codes. -/
theorem forwardTableIsAlphabet : Obligations.ForwardTableIsAlphabet := by
  intro i
  rw [← List.getElem?_map, alphabet_codes_eq_fwdRom, List.getElem?_map, fwdRom_getElem?]
  rfl

/-- Settles O17: a hit that is neither `-` nor `_` is the character FWD gives for its value. -/
theorem reverseTableEntries : Obligations.ReverseTableEntries := by
  refine ⟨rev_fwd, by decide, by decide, fun c hhit => ?_, rev_val_of_miss, countP_rev_hit⟩
  by_cases hurl : c = 0x2D ∨ c = 0x5F
  · exact .inr hurl
  · exact .inl ⟨(rev c).val, (fwd_rev_val c hhit hurl).symm⟩

/-- Settles O18, class by class. -/
theorem classRomMembers : Obligations.ClassRomMembers :=
  ⟨by decide, fun cfg hw => ⟨countP_cls_standard cfg, countP_cls_urlSafe cfg, fun c =>
    ⟨cls_eq_std cfg c, cls_eq_url cfg c, cls_eq_pad cfg c, cls_eq_ws cfg c hw, cls_eq_alnum cfg c, cls_eq_other cfg c hw,
      cls_high cfg c, hit_iff_cls cfg c⟩⟩⟩

/-- Settles O19; law (e) is that a step keeps the parameters, on which CLS depends. -/
theorem romLaws : Obligations.RomLaws := by
  refine ⟨fun i => ?_, fun cfg c hc => ?_, by decide, fun i j h => fwd_injective h, fun s t h => ?_⟩
  · simp [rev_fwd]
  · obtain ⟨hhit, hurl⟩ := (cls_alnum_or_std_iff cfg c).1 hc
    exact fwd_rev_val c hhit hurl
  · have hcfg := step_cfg s t h
    exact ⟨hcfg, fun c => by rw [hcfg]⟩

end Sys2Proof.Machine
end

section
/-! The word of STATUS (10_state.md rule R33) and the state after reset (rules R38, R260, R261). -/

namespace Sys2Proof.Machine

theorem Status.word_reset : Status.reset.word = 0 := by decide

theorem resetOf_regRead (c : Config) (n : Fin 16) : (State.resetOf c).regRead n = 0 := by
  unfold State.regRead
  split
  · exact Status.word_reset
  all_goals rfl

theorem resetEvent_regRead (s : State) (n : Fin 16) : s.resetEvent.regRead n = 0 := resetOf_regRead s.cfg n

/-- A byte of a buffer in which nothing is listed is the free value (rule R38, log entry 4). -/
theorem readByte_of_mem_nil (s : State) (b : Buf) (i : Nat) (h : s.mem b = []) :
    s.readByte b i = Config.resetByte s.resets b i := by
  rw [State.readByte, h, Memory.get_nil, Option.getD_none]

/-- The bits of STATUS as a host reads it (rule R33). -/
theorem Status.getLsbD_word (t : Status) (k : Nat) :
    t.word.getLsbD k = if k < 4 then t.err.getLsbD k else if k = 4 then t.v else if k = 5 then t.plok
      else if k = 6 then t.hstd else if k = 7 then t.hurl else false := by
  unfold Status.word
  change BitVec.getLsbD (w := 24 + 1 + 1 + 1 + 1 + 4) _ k = _
  simp only [BitVec.getLsbD_append, BitVec.getLsbD_ofBool]
  grind

/-- Settles O9, field by field. -/
theorem statusWordLayout : Obligations.StatusWordLayout := by
  intro t
  refine ⟨BitVec.eq_of_getLsbD_eq fun i hi => ?_, ?_, ?_, ?_, ?_, BitVec.eq_of_getLsbD_eq fun i hi => ?_⟩
  · simp [t.getLsbD_word, hi]
  · exact t.getLsbD_word 4
  · exact t.getLsbD_word 5
  · exact t.getLsbD_word 6
  · exact t.getLsbD_word 7
  · rw [BitVec.getLsbD_extractLsb', t.getLsbD_word]
    grind

/-- Settles O12, at the state the step of a waiting reset leaves. -/
theorem resetEventClearsRegisters : Obligations.ResetEventClearsRegisters := fun s rest hp =>
  ⟨(s.waiting rest).resetEvent, step_reset s rest hp, resetEvent_regRead _, rfl, rfl,
    fun b i => readByte_of_mem_nil _ b i (by cases b <;> rfl), rfl, rfl⟩

/-- Settles O13. -/
theorem resetValues : Obligations.ResetValues := fun c =>
  ⟨rfl, rfl, rfl, rfl, rfl, rfl, rfl, rfl, rfl, rfl, resetOf_regRead c, rfl,
    fun b i => readByte_of_mem_nil _ b i (by cases b <;> rfl)⟩

end Sys2Proof.Machine
end

section
/-! The register and buffer transactions of the host (20_memory.md rules R62, R63). -/

namespace Sys2Proof.Machine

/-! ### Registers -/

/-- CMD and the numbers without a register read 0 (rule R62). -/
theorem State.regRead_unmapped (s : State) (n : Fin 16) (h : n = 0 ∨ 11 ≤ n) : s.regRead n = 0 := by
  unfold State.regRead
  split
  case h_11 => rfl
  all_goals omega

/-- A write to any register but ILEN, IPTR and OPTR is ignored (rule R62). -/
theorem State.regStore_ignored (s : State) (n : Fin 16) (v : Word) (h : n ≠ 3 ∧ n ≠ 4 ∧ n ≠ 5) : s.regStore n v = s := by
  unfold State.regStore
  split
  case h_4 => rfl
  all_goals omega

/-- Settles O8: a read answers `regRead`, a write to CMD runs the word, and any other write is `regStore`. -/
theorem registerTransactions : Obligations.RegisterTransactions := by
  intro s rest
  constructor
  · intro n hp
    refine ⟨s.regRead n, step_regRead s n rest hp, ?_, ?_, ?_, ?_, ?_, ?_, ?_, ?_, ?_, ?_, s.regRead_unmapped n⟩
    all_goals
      rintro rfl
      rfl
  · intro n v hp
    refine ⟨?_, ?_, ?_, ?_, fun hn => ?_⟩
    · rintro rfl
      exact step_cmdWrite s v rest hp
    · rintro rfl
      exact step_regWrite s 3 v rest (by decide) hp
    · rintro rfl
      exact step_regWrite s 4 v rest (by decide) hp
    · rintro rfl
      exact step_regWrite s 5 v rest (by decide) hp
    · rw [step_regWrite s n v rest (by omega) hp, State.regStore_ignored _ n v (by omega)]

/-! ### Buffers -/

/-- A write to a buffer changes no register. -/
@[simp] theorem State.writeByte_regRead (s : State) (b : Buf) (i : Nat) (v : Byte) (n : Fin 16) :
    (s.writeByte b i v).regRead n = s.regRead n := by
  cases b <;> rfl

/-- What the port takes and answers is no part of a buffer. -/
theorem State.readByte_served (s : State) (rest : List Txn) (r : Reply) (b : Buf) (i : Nat) :
    (s.served rest r).readByte b i = s.readByte b i :=
  State.readByte_congr s _ b i (by cases b <;> rfl) rfl

/-- Settles O10: inside the buffer a write is `writeByte`, and at or above NBUF both transactions get the error response. -/
theorem bufferTransactions : Obligations.BufferTransactions := by
  intro s rest b i
  refine ⟨fun hp hi => ?_, fun hp hi => ?_, fun v hp hi => ?_, fun v hp hi => step_bufWrite_outside s b i v rest hp hi⟩
  · rw [step_bufRead s b i rest hp, if_pos hi]
  · rw [step_bufRead s b i rest hp, if_neg (Nat.not_lt.2 hi)]
  · refine ⟨_, step_bufWrite_inside s b i v rest hp hi, ?_, fun b' j hne => ?_, State.writeByte_regRead _ b i v,
      State.writeByte_cfg _ b i v, State.writeByte_resets _ b i v, State.writeByte_pending _ b i v,
      State.writeByte_reply _ b i v⟩
    · rw [State.readByte_writeByte, if_pos ⟨rfl, rfl⟩]
    · rw [State.readByte_writeByte, if_neg (not_and_or.2 hne), State.readByte_served]

end Sys2Proof.Machine
end

section
/-! The encoding of a command word (30_encoding.md rules R90 to R96): `encode` and the decoder are inverse to each other,
a word spells one row of the opcode map or is illegal, and the step runs the command or raises ILLEGAL_CMD. -/

namespace Sys2Proof.Machine

/-! ### The fields of a word (rule R90) -/

section
open BitVec
variable (op : BitVec 4) (u : BitVec 1) (imm : Byte) (w m : Word)

@[simp] theorem wordOf_op : (wordOf op u imm).op = op := extractLsb'_append_eq_right

@[simp] theorem wordOf_u : (wordOf op u imm).u = u :=
  (extractLsb'_append_eq_of_le (by decide)).trans extractLsb'_append_eq_right

@[simp] theorem wordOf_z0 : (wordOf op u imm).z0 = 0 :=
  (extractLsb'_append_eq_of_le (by decide)).trans <| (extractLsb'_append_eq_of_le (by decide)).trans
    extractLsb'_append_eq_right

@[simp] theorem wordOf_imm : (wordOf op u imm).imm = imm :=
  (extractLsb'_append_eq_of_le (by decide)).trans <| (extractLsb'_append_eq_of_le (by decide)).trans <|
    (extractLsb'_append_eq_of_le (by decide)).trans extractLsb'_append_eq_right

@[simp] theorem wordOf_z1 : (wordOf op u imm).z1 = 0 :=
  (extractLsb'_append_eq_of_le (by decide)).trans <| (extractLsb'_append_eq_of_le (by decide)).trans <|
    (extractLsb'_append_eq_of_le (by decide)).trans extractLsb'_append_eq_left

theorem fields_append : w.z1 ++ w.imm ++ w.z0 ++ w.u ++ w.op = w := by
  unfold Word.z1 Word.imm Word.z0 Word.u Word.op
  iterate 4 rw [extractLsb'_append_extractLsb'_eq_extractLsb' (by decide)]
  exact extractLsb'_eq_self

@[simp] theorem op_and : Word.op (w &&& m) = w.op &&& m.op := extractLsb'_and
@[simp] theorem u_and : Word.u (w &&& m) = w.u &&& m.u := extractLsb'_and
@[simp] theorem z0_and : Word.z0 (w &&& m) = w.z0 &&& m.z0 := extractLsb'_and
@[simp] theorem imm_and : Word.imm (w &&& m) = w.imm &&& m.imm := extractLsb'_and
@[simp] theorem z1_and : Word.z1 (w &&& m) = w.z1 &&& m.z1 := extractLsb'_and

end

/-- A word with Z0 = Z1 = 0 is the word of its other fields. -/
theorem wordOf_fields {w : Word} (h0 : w.z0 = 0) (h1 : w.z1 = 0) : wordOf w.op w.u w.imm = w :=
  calc wordOf w.op w.u w.imm
    _ = w.z1 ++ w.imm ++ w.z0 ++ w.u ++ w.op := by rw [h0, h1]; rfl
    _ = w := fields_append w

@[simp] theorem ofBit_bit (u : Alphabet) : Alphabet.ofBit u.bit = u := by cases u <;> rfl

@[simp] theorem bit_ofBit : ∀ b : BitVec 1, (Alphabet.ofBit b).bit = b := by decide

/-! ### Decoding the word of a command -/

theorem decode_wordOf (op : BitVec 4) (u : BitVec 1) (imm : Byte) :
    decode (wordOf op u imm) = decodeOp (wordOf op u imm) := by
  simp [decode]

/-- Settles O2: the fields of the word are the command's own, so OP selects its case of the decoder and the must-be-zero
fields pass. -/
theorem decodeOfEncode : Obligations.DecodeOfEncode := by
  intro i hwf
  cases i with
  | nop | dec4 | dec3 | dec2 | valid | info | clrerr => simp [encode, decode_wordOf, decodeOp, decodeN]
  | enc3 u | enc2 u | enc1 u | encode u | decode u => simp [encode, decode_wordOf, decodeOp, decodeU]
  | lutr imm | cls imm => simp [encode, decode_wordOf, decodeOp, decodeI]
  | lutf u imm =>
    have hhigh : imm.extractLsb' 6 2 = 0 := eq_of_beq hwf
    simp [encode, decode_wordOf, decodeOp, decodeLutf, hhigh]

/-! ### Encoding what the decoder accepts -/

section
variable {w : Word} {i : Instr} {op : BitVec 4}

theorem decode_ok (h : decode w = .ok i) : w.z0 = 0 ∧ w.z1 = 0 ∧ decodeOp w = .ok i := by
  unfold decode at h
  split at h
  · cases h
  · next h0 =>
    split at h
    · cases h
    · next h1 => exact ⟨not_not.1 h0, not_not.1 h1, h⟩

theorem encode_of_decodeN {c : Instr} (h : decodeN w c = .ok i) (hwf : c.wellFormed = true)
    (he : encode c = wordOf op 0 0) (hop : w.op.toNat = op.toNat) :
    i.wellFormed = true ∧ encode i = wordOf w.op w.u w.imm := by
  unfold decodeN at h
  split at h
  · cases h
  · next hu =>
    split at h
    · cases h
    · next himm =>
      obtain rfl := Except.ok.inj h
      rw [he, not_not.1 hu, not_not.1 himm, BitVec.eq_of_toNat_eq hop]
      exact ⟨hwf, rfl⟩

theorem encode_of_decodeU {c : Alphabet → Instr} (h : decodeU w c = .ok i) (hwf : ∀ a, (c a).wellFormed = true)
    (he : ∀ a, encode (c a) = wordOf op a.bit 0) (hop : w.op.toNat = op.toNat) :
    i.wellFormed = true ∧ encode i = wordOf w.op w.u w.imm := by
  unfold decodeU at h
  split at h
  · cases h
  · next himm =>
    obtain rfl := Except.ok.inj h
    rw [he, bit_ofBit, not_not.1 himm, BitVec.eq_of_toNat_eq hop]
    exact ⟨hwf _, rfl⟩

theorem encode_of_decodeI {c : Byte → Instr} (h : decodeI w c = .ok i) (hwf : ∀ b, (c b).wellFormed = true)
    (he : ∀ b, encode (c b) = wordOf op 0 b) (hop : w.op.toNat = op.toNat) :
    i.wellFormed = true ∧ encode i = wordOf w.op w.u w.imm := by
  unfold decodeI at h
  split at h
  · cases h
  · next hu =>
    obtain rfl := Except.ok.inj h
    rw [he, not_not.1 hu, BitVec.eq_of_toNat_eq hop]
    exact ⟨hwf _, rfl⟩

theorem encode_of_decodeLutf (h : decodeLutf w = .ok i) (hop : w.op.toNat = (0x1 : BitVec 4).toNat) :
    i.wellFormed = true ∧ encode i = wordOf w.op w.u w.imm := by
  unfold decodeLutf at h
  split at h
  · cases h
  · next himm =>
    obtain rfl := Except.ok.inj h
    rw [encode, bit_ofBit, BitVec.eq_of_toNat_eq hop]
    exact ⟨beq_iff_eq.2 (not_not.1 himm), rfl⟩

theorem encode_of_decodeOp (h : decodeOp w = .ok i) : i.wellFormed = true ∧ encode i = wordOf w.op w.u w.imm := by
  unfold decodeOp at h
  split at h
  case h_1 hop | h_8 hop | h_9 hop | h_10 hop | h_11 hop | h_12 hop | h_15 hop =>
    exact encode_of_decodeN h rfl rfl hop
  case h_2 hop => exact encode_of_decodeLutf h hop
  case h_3 hop | h_4 hop => exact encode_of_decodeI h (fun _ => rfl) (fun _ => rfl) hop
  case h_5 hop | h_6 hop | h_7 hop | h_13 hop | h_14 hop =>
    exact encode_of_decodeU h (fun _ => rfl) (fun _ => rfl) hop
  case h_16 => cases h

end

/-- Settles O3: Z0 and Z1 are 0 in an accepted word, and its other fields are those of the command. -/
theorem encodeOfDecode : Obligations.EncodeOfDecode := by
  intro w i h
  obtain ⟨h0, h1, hop⟩ := decode_ok h
  obtain ⟨hwf, he⟩ := encode_of_decodeOp hop
  exact ⟨hwf, he.trans (wordOf_fields h0 h1)⟩

/-! ### The opcode map (rule R92) -/

/-- The rows of the opcode map have different opcodes. -/
theorem opcodeMap_op_nodup : (opcodeMap.map fun r => r.pattern.op).Nodup := by decide

/-- The pattern of a row holds its opcode alone, and its mask keeps OP, Z0 and Z1 whole. -/
theorem opcodeMap_pattern_mask : ∀ r ∈ opcodeMap, r.pattern = wordOf r.pattern.op 0 0 ∧
    r.mask.op = BitVec.allOnes 4 ∧ r.mask.z0 = BitVec.allOnes 3 ∧ r.mask.z1 = BitVec.allOnes 16 := by decide

/-- Where rule R94 wants U = 0, IMM = 0 or IMM[7:6] = 0, the row's mask keeps those bits, and no row has opcode 0xE. -/
theorem opcodeMap_operand_mask : ∀ r ∈ opcodeMap,
    r.pattern.op.toNat ≠ 0xE ∧
    (r.pattern.op.toNat ∈ [0x0, 0x7, 0x8, 0x9, 0xA, 0xB, 0xF, 0x2, 0x3] → r.mask.u = BitVec.allOnes 1) ∧
    (r.pattern.op.toNat ∈ [0x0, 0x7, 0x8, 0x9, 0xA, 0xB, 0xF, 0x4, 0x5, 0x6, 0xC, 0xD] →
      r.mask.imm = BitVec.allOnes 8) ∧
    (r.pattern.op.toNat = 0x1 → r.mask.imm = 0xC0) := by decide

theorem row_mem_opcodeMap (i : Instr) : i.row ∈ opcodeMap := by
  cases i <;> simp [opcodeMap, Instr.row]

/-- A word that spells a row has the row's opcode, Z0 = Z1 = 0, and 0 in every bit of U and IMM that the mask keeps. -/
theorem fields_of_spells {r : OpcodeRow} (hr : r ∈ opcodeMap) {w : Word} (h : r.spells w = true) :
    w.op = r.pattern.op ∧ w.z0 = 0 ∧ w.z1 = 0 ∧ w.u &&& r.mask.u = 0 ∧ w.imm &&& r.mask.imm = 0 := by
  obtain ⟨hpat, hop, hz0, hz1⟩ := opcodeMap_pattern_mask r hr
  have hw : w &&& r.mask = wordOf r.pattern.op 0 0 := (eq_of_beq h).trans hpat
  refine ⟨?_, ?_, ?_, ?_, ?_⟩
  · rw [← BitVec.and_allOnes (x := w.op), ← hop, ← op_and, hw, wordOf_op]
  · rw [← BitVec.and_allOnes (x := w.z0), ← hz0, ← z0_and, hw, wordOf_z0]
  · rw [← BitVec.and_allOnes (x := w.z1), ← hz1, ← z1_and, hw, wordOf_z1]
  · simpa using congrArg Word.u hw
  · simpa using congrArg Word.imm hw

theorem row_spells_encode (i : Instr) : Laws.SpellsItsRow.Statement i := by
  cases i with
  | nop => exact Laws.SpellsItsRow.nop
  | lutf u imm => exact Laws.SpellsItsRow.lutf u imm
  | lutr imm => exact Laws.SpellsItsRow.lutr imm
  | cls imm => exact Laws.SpellsItsRow.cls imm
  | enc3 u => exact Laws.SpellsItsRow.enc3 u
  | enc2 u => exact Laws.SpellsItsRow.enc2 u
  | enc1 u => exact Laws.SpellsItsRow.enc1 u
  | dec4 => exact Laws.SpellsItsRow.dec4
  | dec3 => exact Laws.SpellsItsRow.dec3
  | dec2 => exact Laws.SpellsItsRow.dec2
  | valid => exact Laws.SpellsItsRow.valid
  | info => exact Laws.SpellsItsRow.info
  | encode u => exact Laws.SpellsItsRow.encode u
  | decode u => exact Laws.SpellsItsRow.decode u
  | clrerr => exact Laws.SpellsItsRow.clrerr

/-- A word that decodes spells the row of its command. -/
theorem row_spells_of_decode {w : Word} {i : Instr} (h : decode w = .ok i) : i.row.spells w = true := by
  obtain ⟨hwf, rfl⟩ := encodeOfDecode w i h
  exact row_spells_encode i hwf

/-- No two rows match one word: both have its opcode. -/
theorem eq_of_spells {r r' : OpcodeRow} (hr : r ∈ opcodeMap) (hr' : r' ∈ opcodeMap) {w : Word}
    (h : r.spells w = true) (h' : r'.spells w = true) : r = r' :=
  List.inj_on_of_nodup_map opcodeMap_op_nodup hr hr' ((fields_of_spells hr h).1.symm.trans (fields_of_spells hr' h').1)

/-! ### Illegal words (rule R94) -/

theorem toNat_lt_of_and_immHigh : ∀ imm : Byte, imm &&& 0xC0 = 0 → imm.toNat < 64 := by decide

/-- An illegal word spells no row: the field that makes it illegal is one the mask keeps. -/
theorem not_spells_of_illegalWord {w : Word} (h : IllegalWord w) {r : OpcodeRow} (hr : r ∈ opcodeMap) :
    r.spells w ≠ true := by
  intro hs
  obtain ⟨hop, hz0, hz1, hu, himm⟩ := fields_of_spells hr hs
  obtain ⟨hreserved, hmaskU, hmaskImm, hmaskLutf⟩ := opcodeMap_operand_mask r hr
  rw [← hop] at hreserved hmaskU hmaskImm hmaskLutf
  rcases h with h | h | h | ⟨hu1, hmem⟩ | ⟨himm0, hmem⟩ | ⟨hge, hlutf⟩
  · exact hreserved h
  · exact h (congrArg BitVec.toNat hz0)
  · exact h (congrArg BitVec.toNat hz1)
  · rw [hmaskU hmem, BitVec.and_allOnes] at hu
    exact absurd ((congrArg BitVec.toNat hu).symm.trans hu1) (by decide)
  · rw [hmaskImm hmem, BitVec.and_allOnes] at himm
    exact himm0 (congrArg BitVec.toNat himm)
  · rw [hmaskLutf hlutf] at himm
    exact absurd (toNat_lt_of_and_immHigh _ himm) (Nat.not_lt.2 hge)

/-- Settles O4: the row of the decoded command matches, no second row does, and a rejected word is illegal. -/
theorem opcodeMapMatchesDecoder : Obligations.OpcodeMapMatchesDecoder := by
  intro w
  refine ⟨fun i hd => ?_, fun e hd => ?_⟩
  · have hspells : ∀ r ∈ opcodeMap, r.spells w = (r == i.row) := fun r hr => by
      rw [Bool.eq_iff_iff, beq_iff_eq]
      constructor
      · exact fun h => eq_of_spells hr (row_mem_opcodeMap i) h (row_spells_of_decode hd)
      · rintro rfl
        exact row_spells_of_decode hd
    rw [List.filter_congr hspells, List.filter_beq,
      List.count_eq_one_of_mem (List.Nodup.of_map _ opcodeMap_op_nodup) (row_mem_opcodeMap i)]
    rfl
  · exact List.filter_eq_nil_iff.2 fun r hr => not_spells_of_illegalWord (illegalWord_of_decode_error hd) hr

/-! ### The step at a CMD write (rule R95) -/

section
variable {s : State} {w : Word} (he : s.status.err = 0)
include he

theorem runCommand_of_decode_ok {i : Instr} (hd : decode w = .ok i) : s.runCommand w = exec i s := by
  simp [State.runCommand, State.faultPending, he, hd]

theorem runCommand_of_decode_error {e : Reject} (hd : decode w = .error e) :
    s.runCommand w = .next (s.afterFault 1 w) := by
  simp [State.runCommand, State.faultPending, he, hd]
  rfl

end

theorem illegalWord_iff_decode_error (w : Word) : IllegalWord w ↔ ∃ e, decode w = .error e := by
  constructor
  · intro h
    cases hd : decode w with
    | error e => exact ⟨e, rfl⟩
    | ok i => exact absurd (row_spells_of_decode hd) (not_spells_of_illegalWord h (row_mem_opcodeMap i))
  · rintro ⟨e, hd⟩
    exact illegalWord_of_decode_error hd

/-- Settles O5: an illegal word spells no row and is rejected, and a word that is not illegal decodes and spells the row
of its command. -/
theorem illegalWordsFault : Obligations.IllegalWordsFault := by
  intro w
  refine ⟨⟨fun h r hr hs => ?_, fun h => ?_⟩, ?_, fun h s rest hp he => ?_⟩
  · exact not_spells_of_illegalWord h hr (beq_iff_eq.2 hs)
  · cases hd : decode w with
    | error e => exact illegalWord_of_decode_error hd
    | ok i => exact absurd (eq_of_beq (row_spells_of_decode hd)) (h _ (row_mem_opcodeMap i))
  · rw [illegalWord_iff_decode_error]
    cases decode w <;> simp
  · obtain ⟨e, hd⟩ := (illegalWord_iff_decode_error w).1 h
    rw [step_cmdWrite s w rest hp]
    exact runCommand_of_decode_error he hd

/-- Settles O1, word by word. -/
theorem sampleWordsDecode : Obligations.SampleWordsDecode := by
  unfold Obligations.SampleWordsDecode
  decide

/-- Settles O6: the step runs the word, and no fault is pending at the state the port leaves. -/
theorem stepRunsDecodedCommand : Obligations.StepRunsDecodedCommand := fun s w rest _ hp he hd =>
  (step_cmdWrite s w rest hp).trans (runCommand_of_decode_ok (s := s.served rest .done) he hd)

end Sys2Proof.Machine
end

section
/-! The table family (40_table.md): the two lookup functions (rules R120, R121), and what LUTF, LUTR and CLS leave in
RES (rules R122 to R124). -/

namespace Sys2Proof.Machine

/-! ### The lookup functions -/

/-- `+` occurs in FWD at index 62 alone (rule R24 (d)). -/
theorem fwd_eq_plus (i : Symbol) : fwd i = 0x2B ↔ i = 62 :=
  ⟨fun h => fwd_injective h, fun h => congrArg fwd h⟩

/-- `/` occurs in FWD at index 63 alone (rule R24 (d)). -/
theorem fwd_eq_slash (i : Symbol) : fwd i = 0x2F ↔ i = 63 :=
  ⟨fun h => fwd_injective h, fun h => congrArg fwd h⟩

theorem fwdu_urlSafe_of_ne {i : Symbol} (h62 : i ≠ 62) (h63 : i ≠ 63) : fwdu i .urlSafe = fwd i :=
  (if_neg h62).trans (if_neg h63)

/-- Choosing `-` and `_` by the index is substituting them for `+` and `/` after the lookup. -/
theorem fwdu_urlSafe_eq_toUrlSafe (i : Symbol) : fwdu i .urlSafe = toUrlSafe (fwd i) := by
  simp only [fwdu, toUrlSafe, fwd_eq_plus, fwd_eq_slash]

/-- Both alphabets in one equation. -/
theorem fwdu_eq_ite (i : Symbol) (u : Alphabet) :
    fwdu i u = if u = .urlSafe ∧ i = 62 then 0x2D else if u = .urlSafe ∧ i = 63 then 0x5F else fwd i := by
  cases u <;> simp [fwdu]

theorem sym_fwdu (i : Symbol) (u : Alphabet) : sym (fwdu i u) = some i := by
  simp [sym, rev_fwdu]

/-- Settles O20: R120's two forms of the URL-safe lookup agree, and one reverse table serves both alphabets (R121). -/
theorem lookupFunctions : Obligations.LookupFunctions :=
  ⟨fun _ => rfl, rfl, rfl, fun _ => fwdu_urlSafe_of_ne, fwdu_urlSafe_eq_toUrlSafe, fun _ => rfl,
    by decide, by decide, by decide, by decide, sym_fwdu⟩

/-! ### The words that are no command (rule R94) -/

/-- Setting bit 4 of a word with U = 0 sets its U field and no other. -/
theorem wordOf_or_uBit (op : BitVec 4) (imm : Byte) : wordOf op 0 imm ||| 0x00000010 = wordOf op 1 imm := by
  have hbit : (0x00000010 : Word) = wordOf 0 1 0 := by decide
  rw [hbit]
  unfold wordOf
  iterate 4 rw [BitVec.or_append]
  simp

/-- LUTR and CLS refuse U = 1. -/
theorem decode_wordOf_or_uBit {op : BitVec 4} (hop : op.toNat ∈ [0x2, 0x3]) (imm : Byte) :
    ∃ e, decode (wordOf op 0 imm ||| 0x00000010) = .error e := by
  rw [wordOf_or_uBit, ← illegalWord_iff_decode_error]
  have hu : (wordOf op 1 imm).u.toNat = 1 := congrArg BitVec.toNat (wordOf_u op 1 imm)
  have hmem : (wordOf op 1 imm).op.toNat ∈ [0x0, 0x7, 0x8, 0x9, 0xA, 0xB, 0xF, 0x2, 0x3] := by
    rw [wordOf_op]
    exact List.mem_append_right [0x0, 0x7, 0x8, 0x9, 0xA, 0xB, 0xF] hop
  exact .inr (.inr (.inr (.inl ⟨hu, hmem⟩)))

theorem decode_encode_lutf_of_ge (u : Alphabet) {imm : Byte} (h : 64 ≤ imm.toNat) :
    ∃ e, decode (encode (.lutf u imm)) = .error e := by
  rw [← illegalWord_iff_decode_error]
  have himm : 64 ≤ (encode (.lutf u imm)).imm.toNat := by rwa [encode, wordOf_imm]
  have hop : (encode (.lutf u imm)).op.toNat = 0x1 := by rw [encode, wordOf_op]; rfl
  exact .inr (.inr (.inr (.inr (.inr ⟨himm, hop⟩))))

/-! ### Zero extension -/

theorem extractLsb'_setWidth_self {w n : Nat} (x : BitVec w) (h : w ≤ n) : (x.setWidth n).extractLsb' 0 w = x :=
  (BitVec.extractLsb'_setWidth_of_le (by omega)).trans BitVec.extractLsb'_eq_self

theorem extractLsb'_setWidth_high {w n len : Nat} (x : BitVec w) : (x.setWidth n).extractLsb' w len = 0 := by
  ext k hk
  simp

/-! ### What LUTF leaves in RES -/

/-- Below 64 the symbol IMM[5:0] is the number IMM. -/
theorem immSymbol_eq_iff {imm : Byte} (h : imm.toNat < 64) (i : Symbol) :
    imm.extractLsb' 0 6 = i ↔ imm = i.setWidth 8 := by
  constructor
  · rintro rfl
    rw [← BitVec.setWidth_eq_extractLsb' (by decide)]
    bv_omega
  · rintro rfl
    exact extractLsb'_setWidth_self i (by decide)

/-- Settles O21: RES is the character zero-extended, and a number of 64 or more is illegal by rule R94. -/
theorem lutfResult : Obligations.LutfResult := by
  intro u imm s
  refine ⟨fun hlt => ⟨_, rfl, extractLsb'_setWidth_high _, ?_⟩, decode_encode_lutf_of_ge u⟩
  rw [extractLsb'_setWidth_self _ (by decide), fwdu_eq_ite]
  simp only [immSymbol_eq_iff hlt]
  rfl

/-! ### What LUTR leaves in RES -/

section
open BitVec
variable (c : Byte)

/-- RES field by field, from bit 31 down (rule R123); a miss has VAL = 0. -/
theorem lutrResult_eq_append :
    lutrResult c = (0 : BitVec 23) ++ ofBool (rev c).hit ++ (0 : BitVec 2) ++ (rev c).val := by
  have hword : ∀ v : Symbol, (0x100 : Word) ||| v.setWidth 32 =
      (0 : BitVec 23) ++ ofBool true ++ (0 : BitVec 2) ++ v := by
    decide
  unfold lutrResult
  cases hhit : (rev c).hit with
  | true => exact hword (rev c).val
  | false =>
    rw [rev_val_of_miss c hhit]
    rfl

theorem lutrResult_low : (lutrResult c).extractLsb' 0 6 = (rev c).val := by
  rw [lutrResult_eq_append]
  exact extractLsb'_append_eq_right

theorem lutrResult_gap : (lutrResult c).extractLsb' 6 2 = 0 := by
  rw [lutrResult_eq_append]
  exact (extractLsb'_append_eq_of_le (by decide)).trans extractLsb'_append_eq_right

theorem lutrResult_bit8 : (lutrResult c).getLsbD 8 = (rev c).hit := by
  rw [lutrResult_eq_append, getLsbD_append, getLsbD_append, getLsbD_append]
  simp

theorem lutrResult_high : (lutrResult c).extractLsb' 9 23 = 0 := by
  rw [lutrResult_eq_append]
  exact (extractLsb'_append_eq_of_le (by decide)).trans <| (extractLsb'_append_eq_of_le (by decide)).trans
    extractLsb'_append_eq_left

end

/-- Settles O22, field by field. (`lutrResult` is the model's name for the word.) -/
theorem lutrResult_inRes : Obligations.LutrResult := fun c _ =>
  ⟨⟨lutrResult c, rfl, lutrResult_low c, lutrResult_gap c, lutrResult_bit8 c, lutrResult_high c⟩,
    decode_wordOf_or_uBit (by decide) c⟩

/-! ### What CLS leaves in RES -/

/-- Settles O23: RES is the code of the class, and a code from 0x80 up has class OTHER whatever WS_SET is. -/
theorem clsResult : Obligations.ClsResult := by
  intro c s
  have hres : ∀ k, cls s.cfg c = k → ((cls s.cfg c).code.setWidth 32 : Word) = k.code.setWidth 32 :=
    fun k h => by rw [h]
  exact ⟨⟨_, rfl, hres .other, hres .alnum, hres .std, hres .url, hres .pad, hres .ws,
    fun h => hres .other (cls_high s.cfg c h)⟩, decode_wordOf_or_uBit (by decide) c⟩

end Sys2Proof.Machine
end

section
/-! The pack datapath bit by bit (41_encode.md rules R140 to R142), and that UNPACK4 undoes PACK3 and PACK3 undoes
UNPACK4. -/

namespace Sys2Proof.Machine

/-! ### The symbols as slices of the bytes -/

/-- The URL-safe characters of a list of symbols determine it: they carry no padding, and REV undoes FWDU. -/
theorem eq_of_map_fwdu_eq_spell {ss ss' : List Symbol} {n : Nat}
    (h : ss.map (fun i => fwdu i .urlSafe) = spell .urlSafe ss' n) : ss = ss' := by
  have hinj : Function.Injective (fun i => fwdu i .urlSafe) := fun i j hij => by
    simpa [rev_fwdu] using congrArg (fun c => (rev c).val) hij
  exact List.map_injective_iff.2 hinj (by simpa [spell] using h)

theorem pack3_eq_slices3 (b0 b1 b2 : Byte) :
    [(pack3 b0 b1 b2).1, (pack3 b0 b1 b2).2.1, (pack3 b0 b1 b2).2.2.1, (pack3 b0 b1 b2).2.2.2] = slices3 b0 b1 b2 :=
  eq_of_map_fwdu_eq_spell (enc3Text_eq_spell .urlSafe b0 b1 b2)

theorem pack2_eq_slices2 (b0 b1 : Byte) :
    [(pack2 b0 b1).1, (pack2 b0 b1).2.1, (pack2 b0 b1).2.2] = slices2 b0 b1 :=
  eq_of_map_fwdu_eq_spell (enc2Text_eq_spell .urlSafe b0 b1)

theorem pack1_eq_slices1 (b : Byte) : [(pack1 b).1, (pack1 b).2] = slices1 b :=
  eq_of_map_fwdu_eq_spell (enc1Text_eq_spell .urlSafe b)

/-! ### PACK3 and UNPACK4 are inverse to each other -/

theorem unpack4_pack3 (b0 b1 b2 : Byte) :
    unpack4 (pack3 b0 b1 b2).1 (pack3 b0 b1 b2).2.1 (pack3 b0 b1 b2).2.2.1 (pack3 b0 b1 b2).2.2.2 = (b0, b1, b2) := by
  simp only [pack3, packWord, unpack4, Prod.mk.injEq]
  refine ⟨?_, ?_, ?_⟩ <;> apply byte_ext <;> simp

theorem pack3_unpack4 (r0 r1 r2 r3 : Symbol) :
    pack3 (unpack4 r0 r1 r2 r3).1 (unpack4 r0 r1 r2 r3).2.1 (unpack4 r0 r1 r2 r3).2.2 = (r0, r1, r2, r3) := by
  simp only [pack3, packWord, unpack4, Prod.mk.injEq]
  refine ⟨?_, ?_, ?_, ?_⟩ <;> apply symbol_ext <;> simp

/-! ### The statements -/

/-- Settles O24: R140's slices, and UNPACK4 as the inverse of PACK3 on both sides. -/
theorem pack3Bits : Obligations.Pack3Bits := by
  refine ⟨pack3_eq_slices3, fun a b h => ?_, fun q => ⟨_, _, _, pack3_unpack4 q.1 q.2.1 q.2.2.1 q.2.2.2⟩⟩
  calc a = _ := (unpack4_pack3 a.1 a.2.1 a.2.2).symm
    _ = _ := by rw [h]
    _ = b := unpack4_pack3 b.1 b.2.1 b.2.2

/-- Settles O25: the slices of a tail are the first slices of the triplet that zero bytes complete. -/
theorem packTailBits : Obligations.PackTailBits := by
  refine ⟨fun b => ⟨pack1_eq_slices1 b, ?_⟩, fun b0 b1 => ⟨pack2_eq_slices2 b0 b1, ?_⟩⟩
  · have htake : slices1 b = (slices3 b 0 0).take 2 := rfl
    have h : [(pack1 b).1, (pack1 b).2] = [(pack3 b 0 0).1, (pack3 b 0 0).2.1] := by
      rw [pack1_eq_slices1, htake, ← pack3_eq_slices3]
      rfl
    simpa using h
  · have htake : slices2 b0 b1 = (slices3 b0 b1 0).take 3 := rfl
    have h : [(pack2 b0 b1).1, (pack2 b0 b1).2.1, (pack2 b0 b1).2.2] =
        [(pack3 b0 b1 0).1, (pack3 b0 b1 0).2.1, (pack3 b0 b1 0).2.2.1] := by
      rw [pack2_eq_slices2, htake, ← pack3_eq_slices3]
      rfl
    simpa using h

end Sys2Proof.Machine
end

section
/-! The encode commands at every state (41_encode.md rules R143 to R146): what ENC3, ENC2, ENC1 and ENCODE store, the
cursors, the frame and the two BOUNDS faults. -/

namespace Sys2Proof.Machine

/-! ### The group commands -/

/-- A group command whose input and output are within the bounds ends with its characters put out. -/
theorem exec_group_inside {i : Instr} {s : State} {n m : Nat} {out : List Byte}
    (hi : exec i s = s.boundedGroup n m (.next (s.groupDone n out))) (hl : s.ilen.toNat ≤ s.cfg.nbuf)
    (hin : s.iptr.toNat + n ≤ s.ilen.toNat) (hout : s.optr.toNat + m ≤ s.cfg.nbuf) :
    exec i s = .next (s.groupDone n out) :=
  hi.trans (boundedGroup_inside s n m _ (inputShort_false s n hl hin) (outputFull_false s m hout))

/-- Everything an encoding group command `i` that consumes `n` bytes and puts out `out` does: the two BOUNDS faults, the
bytes at OPTR, the cursors and the frame (rules R74, R143 to R145). -/
theorem encodeGroup_spec {i : Instr} {s : State} {n m : Nat} {out : List Byte} (hw : s.cfg.wf = true)
    (hi : exec i s = s.boundedGroup n m (.next (s.groupDone n out))) (hm : out.length = m) :
    (s.cfg.nbuf < s.ilen.toNat ∨ s.ilen.toNat < s.iptr.toNat + n → Raises i s 2 0) ∧
    (s.ilen.toNat ≤ s.cfg.nbuf → s.iptr.toNat + n ≤ s.ilen.toNat → s.cfg.nbuf < s.optr.toNat + m → Raises i s 2 1) ∧
    (s.ilen.toNat ≤ s.cfg.nbuf → s.iptr.toNat + n ≤ s.ilen.toNat → s.optr.toNat + m ≤ s.cfg.nbuf →
      ∃ t, exec i s = .next t ∧ Holds t .obuf s.optr.toNat out ∧ SameOutside s t .obuf s.optr.toNat m ∧
        t.iptr.toNat = s.iptr.toNat + n ∧ t.optr.toNat = s.optr.toNat + m ∧ OnlyOutput s t) := by
  subst hm
  refine ⟨fun hshort => hi.trans (boundedGroup_short s n _ _ hshort), fun hl hin hfull => ?_, fun hl hin hout => ?_⟩
  · exact hi.trans (boundedGroup_full s n _ _ (inputShort_false s n hl hin) hfull)
  · exact ⟨_, exec_group_inside hi hl hin hout, groupDone_spec s n out hw (inputShort_false s n hl hin) hout⟩

/-- Settles O26: `encodeGroup_spec` at the four characters of a triplet. -/
theorem enc3EncodesTriplet : Obligations.Enc3EncodesTriplet := by
  intro u s hw
  rw [← enc3Text_eq_spell]
  exact encodeGroup_spec hw rfl rfl

theorem tailLen_two (u : Alphabet) : tailLen u 2 = if u = .standard then 4 else 3 := by cases u <;> rfl

theorem tailLen_one (u : Alphabet) : tailLen u 1 = if u = .standard then 4 else 2 := by cases u <;> rfl

/-- Settles O27: `encodeGroup_spec` at the characters of a pair. -/
theorem enc2EncodesPair : Obligations.Enc2EncodesPair := by
  intro u s hw
  rw [← enc2Text_eq_spell, ← tailLen_two]
  exact encodeGroup_spec hw rfl (enc2Text_length ..)

/-- Settles O28: `encodeGroup_spec` at the characters of a byte. -/
theorem enc1EncodesByte : Obligations.Enc1EncodesByte := by
  intro u s hw
  rw [← enc1Text_eq_spell, ← tailLen_one]
  exact encodeGroup_spec hw rfl (enc1Text_length ..)

/-! ### ENCODE -/

/-- The state ENCODE leaves where it does not fault. -/
def State.encoded (s : State) (u : Alphabet) : State :=
  (s.writeObuf 0 (encodeText u s.input)).setCursors s.ilen.toNat (encodeLen u s.ilen.toNat)

theorem raises_encode_of_inputTooLong (u : Alphabet) {s : State} (h : s.cfg.nbuf < s.ilen.toNat) : Raises (.encode u) s 2 0 :=
  if_pos ((inputTooLong_iff s).2 h)

theorem raises_encode_of_outputTooLong (u : Alphabet) {s : State} (hl : s.ilen.toNat ≤ s.cfg.nbuf)
    (h : s.cfg.nbuf < encodeLen u s.ilen.toNat) : Raises (.encode u) s 2 1 :=
  (if_neg (by simpa [inputTooLong_iff] using hl)).trans (if_pos h)

theorem exec_encode_inside {u : Alphabet} {s : State} (hl : s.ilen.toNat ≤ s.cfg.nbuf)
    (h : encodeLen u s.ilen.toNat ≤ s.cfg.nbuf) : exec (.encode u) s = .next (s.encoded u) :=
  (if_neg (by simpa [inputTooLong_iff] using hl)).trans (if_neg (by omega))

/-- An ENCODE that leaves no fault pending was within its bounds. -/
theorem encoded_of_exec_encode {u : Alphabet} {s t : State} (h : exec (.encode u) s = .next t) (he : t.status.err = 0) :
    s.ilen.toNat ≤ s.cfg.nbuf ∧ encodeLen u s.ilen.toNat ≤ s.cfg.nbuf ∧ t = s.encoded u := by
  rcases exec_encode_cases s t u h with ⟨-, rfl⟩ | ⟨-, -, rfl⟩ | hdone
  · exact absurd he (by simp [FaultCode.code])
  · exact absurd he (by simp [FaultCode.code])
  · exact hdone

theorem State.encoded_obuf (s : State) (u : Alphabet) :
    (s.encoded u).obuf = Memory.putAll 0 (encodeText u s.input) s.obuf := rfl

theorem State.encoded_holds (s : State) (u : Alphabet) : Holds (s.encoded u) .obuf 0 (encodeText u s.input) :=
  holds_of_obuf s _ 0 _ rfl

theorem State.encoded_onlyOutput (s : State) (u : Alphabet) : OnlyOutput s (s.encoded u) :=
  ⟨rfl, rfl, rfl, rfl, rfl, rfl, rfl, rfl, fun _ => rfl, rfl, rfl, rfl, rfl⟩

theorem State.encoded_sameOutside (s : State) (u : Alphabet) :
    SameOutside s (s.encoded u) .obuf 0 (encodeLen u s.ilen.toNat) :=
  sameOutside_of_obuf s _ 0 _ _ (by rw [encodeText_length, State.input_length]) rfl rfl

theorem State.encoded_iptr (s : State) (u : Alphabet) : (s.encoded u).iptr = s.ilen := BitVec.ofNat_toNat ..

theorem State.encoded_optr {s : State} {u : Alphabet} (hw : s.cfg.wf = true)
    (h : encodeLen u s.ilen.toNat ≤ s.cfg.nbuf) : (s.encoded u).optr.toNat = encodeLen u s.ilen.toNat := by
  have hb := configWf_nbuf s.cfg hw
  exact word32_toNat _ (by omega)

/-- The characters of every full triplet of the input stand in OBUF. -/
theorem State.encoded_holds_triplet (s : State) (u : Alphabet) {g : Nat} (hg : g < s.ilen.toNat / 3) :
    Holds (s.encoded u) .obuf (4 * g) (spell u (slices3 (s.readByte .ibuf (3 * g)) (s.readByte .ibuf (3 * g + 1))
      (s.readByte .ibuf (3 * g + 2))) 0) := by
  refine holds_of_part s _ _ _ _ (s.encoded_obuf u) fun k hk => ?_
  rw [← enc3Text_eq_spell] at hk ⊢
  rw [(encodeText_spec u s.input).1 g (by rw [State.input_length]; omega) k hk, s.getD_input _ (by omega),
    s.getD_input _ (by omega), s.getD_input _ (by omega)]

/-- The characters of a one-byte tail stand in OBUF behind those of the triplets. -/
theorem State.encoded_holds_one (s : State) (u : Alphabet) (hr : s.ilen.toNat % 3 = 1) :
    Holds (s.encoded u) .obuf (4 * (s.ilen.toNat / 3))
      (spell u (slices1 (s.readByte .ibuf (3 * (s.ilen.toNat / 3)))) 2) := by
  refine holds_of_part s _ _ _ _ (s.encoded_obuf u) fun k _ => ?_
  have h := (encodeText_spec u s.input).2.1
  rw [State.input_length] at h
  rw [← enc1Text_eq_spell, h hr k, s.getD_input _ (by omega)]

/-- The characters of a two-byte tail stand in OBUF behind those of the triplets. -/
theorem State.encoded_holds_two (s : State) (u : Alphabet) (hr : s.ilen.toNat % 3 = 2) :
    Holds (s.encoded u) .obuf (4 * (s.ilen.toNat / 3)) (spell u (slices2 (s.readByte .ibuf (3 * (s.ilen.toNat / 3)))
      (s.readByte .ibuf (3 * (s.ilen.toNat / 3) + 1))) 1) := by
  refine holds_of_part s _ _ _ _ (s.encoded_obuf u) fun k _ => ?_
  have h := (encodeText_spec u s.input).2.2
  rw [State.input_length] at h
  rw [← enc2Text_eq_spell, h hr k, s.getD_input _ (by omega), s.getD_input _ (by omega)]

/-- Settles O29: within its bounds ENCODE leaves `State.encoded`, group by group. -/
theorem encodeEncodesInput : Obligations.EncodeEncodesInput := by
  intro u s hw
  simp only [encodeLen_eq]
  refine ⟨raises_encode_of_inputTooLong u, raises_encode_of_outputTooLong u,
    fun hl hm => ⟨s.encoded u, exec_encode_inside hl hm, ?_⟩⟩
  exact ⟨fun g hg => s.encoded_holds_triplet u hg, s.encoded_holds_one u, s.encoded_holds_two u, s.encoded_sameOutside u,
    congrArg _ (s.encoded_iptr u), State.encoded_optr hw hm, s.encoded_onlyOutput u⟩

end Sys2Proof.Machine
end

section
/-! ENCODE as a sequence of group commands (41_encode.md rule R146): the sequence follows the recursion of the encoder over
the bytes from the input cursor up. -/

namespace Sys2Proof.Machine

/-! ### One group command after another -/

/-- The group commands that encode `n` bytes. -/
def groupCommands (u : Alphabet) (n : Nat) : List Instr := List.replicate (n / 3) (.enc3 u) ++ tailCommand u (n % 3)

theorem groupCommands_add_three (u : Alphabet) (n : Nat) :
    groupCommands u (n + 3) = .enc3 u :: groupCommands u n := by
  have hq : (n + 3) / 3 = n / 3 + 1 := by omega
  have hr : (n + 3) % 3 = n % 3 := by omega
  rw [groupCommands, groupCommands, hq, hr]
  rfl

/-- Executing a command that ends in `t` leaves the rest of the list to `t`. -/
theorem runCommands_cons {i : Instr} {s t : State} (h : exec i s = .next t) (is : List Instr) :
    runCommands (i :: is) s = runCommands is t := by
  simp only [runCommands, h]

/-- Consuming and putting out nothing changes nothing. -/
theorem State.groupDone_nil (s : State) : s.groupDone 0 [] = s := by
  simp [State.groupDone, State.advance, State.setCursors, State.writeObuf, Memory.putAll, word32]

/-- Two groups one after another are one longer group, where the cursors do not wrap. -/
theorem State.groupDone_groupDone (s : State) (n m : Nat) (xs ys : List Byte)
    (hi : s.iptr.toNat + n < 4294967296) (ho : s.optr.toNat + xs.length < 4294967296) :
    (s.groupDone n xs).groupDone m ys = s.groupDone (n + m) (xs ++ ys) := by
  simp [State.groupDone, State.advance, State.setCursors, State.writeObuf, word32_toNat, hi, ho, Memory.putAll_append,
    Nat.add_assoc]

/-- The bytes from the input cursor up are `bs`, they end at ILEN, and there is room for their characters. -/
structure Encodable (u : Alphabet) (s : State) (bs : List Byte) : Prop where
  atCursor : ∀ k (h : k < bs.length), s.atCursor k = bs[k]
  ends     : s.iptr.toNat + bs.length = s.ilen.toNat
  fits     : s.ilen.toNat ≤ s.cfg.nbuf
  room     : s.optr.toNat + encodeLen u bs.length ≤ s.cfg.nbuf
  legal    : s.cfg.wf = true

theorem encodeLen_add_three (u : Alphabet) (n : Nat) : encodeLen u (n + 3) = 4 + encodeLen u n := by
  have hq : (n + 3) / 3 = n / 3 + 1 := by omega
  have hr : (n + 3) % 3 = n % 3 := by omega
  rw [encodeLen, encodeLen, hq, hr]
  omega

theorem encodeLen_one (u : Alphabet) : encodeLen u 1 = tailLen u 1 := Nat.zero_add _

theorem encodeLen_two (u : Alphabet) : encodeLen u 2 = tailLen u 2 := Nat.zero_add _

section
variable {u : Alphabet} {s : State}

/-- A group command no longer than what is left to encode ends with its characters put out. -/
theorem Encodable.exec_group {bs : List Byte} (h : Encodable u s bs) {i : Instr} {n m : Nat} {out : List Byte}
    (hi : exec i s = s.boundedGroup n m (.next (s.groupDone n out))) (hn : n ≤ bs.length)
    (hm : m ≤ encodeLen u bs.length) : exec i s = .next (s.groupDone n out) := by
  have hends := h.ends
  have hroom := h.room
  exact exec_group_inside hi h.fits (by omega) (by omega)

/-- The bytes behind a triplet are encodable where the triplet's group leaves the cursors. -/
theorem Encodable.tail {b0 b1 b2 : Byte} {rest : List Byte} (h : Encodable u s (b0 :: b1 :: b2 :: rest))
    {out : List Byte} (hout : out.length = 4) : Encodable u (s.groupDone 3 out) rest := by
  obtain ⟨hat, hends, hfits, hroom, hlegal⟩ := h
  have hb := configWf_nbuf s.cfg hlegal
  simp only [List.length_cons, encodeLen_add_three] at hends hroom
  have hi : (s.groupDone 3 out).iptr.toNat = s.iptr.toNat + 3 := word32_toNat (s.iptr.toNat + 3) (by omega)
  have ho : (s.groupDone 3 out).optr.toNat = s.optr.toNat + 4 :=
    hout ▸ word32_toNat (s.optr.toNat + out.length) (by omega)
  refine ⟨fun k hk => ?_, ?_, hfits, ?_, hlegal⟩
  · calc (s.groupDone 3 out).atCursor k = s.readIbuf ((s.groupDone 3 out).iptr.toNat + k) := rfl
      _ = s.atCursor (k + 3) := by rw [hi, State.atCursor, Nat.add_assoc, Nat.add_comm 3]
      _ = rest[k] := hat (k + 3) (by simpa using hk)
  · show _ = s.ilen.toNat
    omega
  · show _ ≤ s.cfg.nbuf
    omega

end

/-- The group commands for the bytes from the input cursor up put out what the whole encoder puts out for them. -/
theorem runCommands_groupCommands {u : Alphabet} {s : State} {bs : List Byte} (h : Encodable u s bs) :
    runCommands (groupCommands u bs.length) s = .next (s.groupDone bs.length (encodeText u bs)) := by
  match bs with
  | [] => exact congrArg _ s.groupDone_nil.symm
  | [b0] =>
    have hexec : exec (.enc1 u) s = _ := h.exec_group rfl (by simp) (encodeLen_one u).ge
    rw [h.atCursor 0 (by simp)] at hexec
    show runCommands (groupCommands u 1) s = _
    exact runCommands_cons hexec []
  | [b0, b1] =>
    have hexec : exec (.enc2 u) s = _ := h.exec_group rfl (by simp) (encodeLen_two u).ge
    rw [h.atCursor 0 (by simp), h.atCursor 1 (by simp)] at hexec
    show runCommands (groupCommands u 2) s = _
    exact runCommands_cons hexec []
  | b0 :: b1 :: b2 :: rest =>
    have hexec : exec (.enc3 u) s = _ := h.exec_group rfl (by simp) (by simp [encodeLen_add_three])
    rw [h.atCursor 0 (by simp), h.atCursor 1 (by simp), h.atCursor 2 (by simp)] at hexec
    have hb := configWf_nbuf s.cfg h.legal
    have hends := h.ends
    have hroom := h.room
    have hfits := h.fits
    simp only [List.length_cons, encodeLen_add_three] at hends hroom ⊢
    rw [groupCommands_add_three, runCommands_cons hexec, runCommands_groupCommands (h.tail rfl),
      State.groupDone_groupDone _ _ _ _ _ (by omega) (by simp; omega), Nat.add_comm 3]
    rfl

/-! ### The statement -/

/-- The state after REWIND: both cursors 0. -/
def State.rewound (s : State) : State := { s with iptr := 0, optr := 0 }

/-- Settles O30: from the rewound state the group commands put out the whole input. -/
theorem encodeIsGroupSequence : Obligations.EncodeIsGroupSequence := by
  intro u s t hw h _ he
  obtain ⟨hl, hm, rfl⟩ := encoded_of_exec_encode h he
  have henc : Encodable u s.rewound s.input := by
    refine ⟨fun k hk => ?_, ?_, hl, ?_, hw⟩
    · rw [State.input_getElem]
      exact congrArg s.readIbuf (Nat.zero_add k)
    · show 0 + _ = _
      rw [Nat.zero_add, State.input_length]
      rfl
    · show 0 + _ ≤ _
      rwa [Nat.zero_add, State.input_length]
  have hrun := runCommands_groupCommands henc
  rw [State.input_length] at hrun
  refine hrun.trans (congrArg _ ?_)
  calc s.rewound.groupDone s.ilen.toNat (encodeText u s.input)
    _ = (s.writeObuf 0 (encodeText u s.input)).setCursors (0 + s.ilen.toNat) (0 + (encodeText u s.input).length) := rfl
    _ = s.encoded u := by rw [Nat.zero_add, Nat.zero_add, encodeText_length, State.input_length, State.encoded]

end Sys2Proof.Machine
end

section
/-! The length laws and the relation of the two alphabets (41_encode.md rules R147 to R149): both texts spell the same
symbols, the standard one with padding behind them. -/

namespace Sys2Proof.Machine

/-! ### Lengths -/

/-- "`ceil(ILEN / 3) * 4`" (rule R147). -/
theorem encodeLen_standard (n : Nat) : encodeLen .standard n = (n + 2) / 3 * 4 := by
  simp only [encodeLen, tailLen]
  split <;> omega

/-- Settles O31: `encodeLen_standard` at the state ENCODE leaves. -/
theorem standardLengthLaw : Obligations.StandardLengthLaw := by
  intro s t hw h _ he
  obtain ⟨-, hm, rfl⟩ := encoded_of_exec_encode h he
  rw [State.encoded_optr hw hm, encodeLen_standard]
  exact ⟨rfl, Nat.mul_mod_left ..⟩

/-! ### The symbols behind the text -/

theorem spell_append (u : Alphabet) (ss ss' : List Symbol) (n : Nat) :
    spell u ss 0 ++ spell u ss' n = spell u (ss ++ ss') n := by
  cases u <;> simp [spell]

/-- The text of an input in both alphabets spells one list of symbols, in the standard one with `k` characters `=`. -/
theorem encodeText_eq_spell (bs : List Byte) : ∃ ss k, ∀ u, encodeText u bs = spell u ss k := by
  match bs with
  | [] => exact ⟨[], 0, fun u => by cases u <;> rfl⟩
  | [b0] => exact ⟨slices1 b0, 2, fun u => enc1Text_eq_spell u b0⟩
  | [b0, b1] => exact ⟨slices2 b0 b1, 1, fun u => enc2Text_eq_spell u b0 b1⟩
  | b0 :: b1 :: b2 :: rest =>
    obtain ⟨ss, k, h⟩ := encodeText_eq_spell rest
    exact ⟨slices3 b0 b1 b2 ++ ss, k, fun u => by rw [encodeText, enc3Text_eq_spell, h, spell_append]⟩

section
variable {ss : List Symbol} {k i : Nat}

theorem spell_urlSafe_length : (spell .urlSafe ss k).length = ss.length := by simp [spell]

theorem spell_standard_length : (spell .standard ss k).length = ss.length + k := by simp [spell]

theorem spell_getElem?_of_lt (u : Alphabet) (h : i < ss.length) : (spell u ss k)[i]? = some (fwdu ss[i] u) := by
  rw [spell, List.getElem?_append_left (by simpa using h)]
  simp [h]

/-- Behind the symbols the standard text holds only `=`. -/
theorem spell_standard_getElem?_of_ge (h : ss.length ≤ i) (hi : i < ss.length + k) :
    (spell .standard ss k)[i]? = some 0x3D := by
  rw [spell, List.getElem?_append_right (by simpa using h), List.length_map]
  exact List.getElem?_replicate_of_lt (by omega)

end

/-- The output of ENCODE in OBUF and its length, character by character. -/
theorem encoded_output {u : Alphabet} {s t : State} (hw : s.cfg.wf = true) (h : exec (.encode u) s = .next t)
    (he : t.status.err = 0) :
    t.optr.toNat = (encodeText u s.input).length ∧ ∀ i c, (encodeText u s.input)[i]? = some c → t.readByte .obuf i = c := by
  obtain ⟨-, hm, rfl⟩ := encoded_of_exec_encode h he
  refine ⟨by rw [State.encoded_optr hw hm, encodeText_length, State.input_length], fun i c hc => ?_⟩
  rw [← Nat.zero_add i]
  exact s.encoded_holds u i c hc

/-! ### The statements -/

/-- "FWDU never returns `+` or `/` when U = 1" (rule R148), nor `=`. -/
theorem fwdu_urlSafe_ne (i : Symbol) : fwdu i .urlSafe ≠ 0x2B ∧ fwdu i .urlSafe ≠ 0x2F ∧ fwdu i .urlSafe ≠ 0x3D := by
  revert i
  decide

/-- Settles O32: the length is R146's, and every character of the text is one of FWDU. -/
theorem urlSafeLengthLaw : Obligations.UrlSafeLengthLaw := by
  intro s t hw h _ he
  obtain ⟨hlen, hout⟩ := encoded_output hw h he
  have hn : t.optr.toNat = encodeLen .urlSafe s.ilen.toNat := by rw [hlen, encodeText_length, State.input_length]
  simp only [encodeLen, tailLen] at hn
  refine ⟨fun hr => ?_, fun hr => ?_, fun hr => ?_, ?_, fun i hi => ?_⟩
  · simpa [hr] using hn
  · simpa [hr] using hn
  · simpa [hr] using hn
  · split at hn <;> omega
  · obtain ⟨ss, k, hspell⟩ := encodeText_eq_spell s.input
    rw [hspell] at hlen hout
    rw [spell_urlSafe_length] at hlen
    rw [hout i _ (spell_getElem?_of_lt .urlSafe (by omega))]
    exact fwdu_urlSafe_ne _

/-- Settles O33: below the number of symbols both texts spell them, and above it stands the padding. -/
theorem urlSafeIsSubstitutedStandard : Obligations.UrlSafeIsSubstitutedStandard := by
  intro s t t' hw _ h he h' he'
  obtain ⟨hlen, hout⟩ := encoded_output hw h he
  obtain ⟨hlen', hout'⟩ := encoded_output hw h' he'
  obtain ⟨ss, k, hspell⟩ := encodeText_eq_spell s.input
  rw [hspell] at hlen hout hlen' hout'
  rw [spell_standard_length] at hlen
  rw [spell_urlSafe_length] at hlen'
  rw [hlen, hlen']
  refine ⟨Nat.le_add_right .., fun i hi => ?_, fun i hi hi' => hout i _ (spell_standard_getElem?_of_ge hi hi')⟩
  rw [hout i _ (spell_getElem?_of_lt .standard hi), hout' i _ (spell_getElem?_of_lt .urlSafe hi)]
  exact ⟨fwdu_ne_padChar _ _, fwdu_urlSafe_eq_toUrlSafe _⟩

end Sys2Proof.Machine
end

section
/-! The validity predicate (42_validate.md rules R160 to R162): VALID writes it to V, the two readings of MIXED_OK differ
where both alphabets' own characters stand in the input, and V = 1 fixes the classes of the input and the place of its
padding. -/

namespace Sys2Proof.Machine

/-! ### The command VALID (rule R161) -/

theorem raises_valid_of_inputTooLong {s : State} (h : s.cfg.nbuf < s.ilen.toNat) : Raises .valid s 2 0 :=
  if_pos ((inputTooLong_iff s).2 h)

theorem validFlag_iff_of_exec_valid {s t : State} (hfits : s.ilen.toNat ≤ s.cfg.nbuf) (h : exec .valid s = .next t) :
    t.status.v = true ↔ ValidInput s.cfg s.inputBytes := by
  rw [exec_valid_inside s hfits] at h
  cases h
  exact validText_iff _ _

/-- Settles O34: VALID writes the computed validity check, which decides the predicate of rule R160. -/
theorem validFlag : Obligations.ValidFlag := fun s =>
  ⟨raises_valid_of_inputTooLong, fun hfits => ⟨_, exec_valid_inside s hfits, validText_iff _ _⟩⟩

/-! ### The two readings of MIXED_OK (rule R160, 90_conflicts.md C3) -/

/-- The run holds the input's characters of every class but the two taken off, WS and PAD. -/
theorem exists_cls_run_iff {cfg : Config} {bs r : List Byte} {k : Nat}
    (hsplit : bs.filter (fun c => decide (cls cfg c ≠ .ws)) = r ++ List.replicate k 0x3D)
    {cl : CharClass} (hws : cl ≠ .ws) (hpad : cl ≠ .pad) :
    (∃ c ∈ r, cls cfg c = cl) ↔ ∃ c ∈ bs, cls cfg c = cl := by
  constructor
  · rintro ⟨c, hc, hcl⟩
    have hkept : c ∈ bs.filter _ := hsplit ▸ List.mem_append_left _ hc
    exact ⟨c, List.mem_of_mem_filter hkept, hcl⟩
  · rintro ⟨c, hc, rfl⟩
    have hkept : c ∈ r ++ List.replicate k 0x3D := hsplit ▸ List.mem_filter.2 ⟨hc, decide_eq_true hws⟩
    rcases List.mem_append.1 hkept with hrun | hpads
    · exact ⟨c, hrun, rfl⟩
    · exact absurd ((cls_eq_pad cfg c).2 (List.eq_of_mem_replicate hpads)) hpad

/-- A run is of one alphabet exactly when it is of the two together and does not hold a character of each one's own. -/
theorem oneAlphabet_iff (cfg : Config) (r : List Byte) :
    ((∀ c ∈ r, cls cfg c = .alnum ∨ cls cfg c = .std) ∨ (∀ c ∈ r, cls cfg c = .alnum ∨ cls cfg c = .url)) ↔
    (∀ c ∈ r, cls cfg c = .alnum ∨ cls cfg c = .std ∨ cls cfg c = .url) ∧
      ¬ ((∃ c ∈ r, cls cfg c = .std) ∧ ∃ c ∈ r, cls cfg c = .url) := by
  constructor
  · rintro (h | h)
    · refine ⟨fun c hc => (h c hc).imp_right .inl, ?_⟩
      rintro ⟨-, c, hc, hurl⟩
      simpa [hurl] using h c hc
    · refine ⟨fun c hc => (h c hc).imp_right .inr, ?_⟩
      rintro ⟨⟨c, hc, hstd⟩, -⟩
      simpa [hstd] using h c hc
  · rintro ⟨h, hboth⟩
    by_cases hstd : ∃ c ∈ r, cls cfg c = .std
    · have hurl : ¬ ∃ c ∈ r, cls cfg c = .url := fun hurl => hboth ⟨hstd, hurl⟩
      exact .inl fun c hc => (h c hc).imp_right (Or.resolve_right · fun hu => hurl ⟨c, hc, hu⟩)
    · exact .inr fun c hc => (h c hc).imp_right (Or.resolve_left · fun hs => hstd ⟨c, hc, hs⟩)

theorem validInput_not_mixedOk_iff (cfg : Config) (bs : List Byte) :
    ValidInput { cfg with mixedOk := false } bs ↔ ValidInput { cfg with mixedOk := true } bs ∧
      ¬ ((∃ c ∈ bs, cls cfg c = .std) ∧ ∃ c ∈ bs, cls cfg c = .url) := by
  have hown {r k} (hsplit : bs.filter (fun c => decide (cls cfg c ≠ .ws)) = r ++ List.replicate k 0x3D) :
      ((∃ c ∈ r, cls cfg c = .std) ∧ ∃ c ∈ r, cls cfg c = .url) ↔
        (∃ c ∈ bs, cls cfg c = .std) ∧ ∃ c ∈ bs, cls cfg c = .url :=
    and_congr (exists_cls_run_iff hsplit nofun nofun) (exists_cls_run_iff hsplit nofun nofun)
  constructor
  · rintro ⟨r, k, hk, hsplit, hrun⟩
    obtain ⟨hany, hboth⟩ := (oneAlphabet_iff cfg r).1 hrun
    exact ⟨⟨r, k, hk, hsplit, hany⟩, mt (hown hsplit).2 hboth⟩
  · rintro ⟨⟨r, k, hk, hsplit, hany⟩, hboth⟩
    exact ⟨r, k, hk, hsplit, (oneAlphabet_iff cfg r).2 ⟨hany, mt (hown hsplit).1 hboth⟩⟩

theorem exists_cls_inputBytes_iff (s : State) (cl : CharClass) :
    (∃ c ∈ s.inputBytes, cls s.cfg c = cl) ↔ ∃ i, i < s.ilen.toNat ∧ cls s.cfg (s.readByte .ibuf i) = cl := by
  simp [State.inputBytes]

/-- Settles O35: the two readings ask the same of the input but for the run, of one alphabet or of the two together. -/
theorem mixedReadingsDiffer : Obligations.MixedReadingsDiffer := by
  intro s hfits
  refine ⟨_, _, exec_valid_inside _ hfits, exec_valid_inside _ hfits, ?_⟩
  rw [← exists_cls_inputBytes_iff, ← exists_cls_inputBytes_iff]
  exact (validText_iff _ _).trans
    ((validInput_not_mixedOk_iff s.cfg s.inputBytes).trans (and_congr_left' (validText_iff _ _).symm))

/-! ### What V = 1 guarantees (rule R162) -/

section
variable {cfg : Config} {bs : List Byte} (h : ValidInput cfg bs)
include h

/-- A valid input with the whitespace taken out is a run without `=` followed by at most two `=`. -/
theorem ValidInput.exists_run : ∃ r k, k ≤ 2 ∧
    bs.filter (fun c => decide (cls cfg c ≠ .ws)) = r ++ List.replicate k 0x3D ∧ ∀ c ∈ r, cls cfg c ≠ .pad := by
  obtain ⟨r, k, hk, hsplit, hrun⟩ := h
  refine ⟨r, k, hk, hsplit, fun c hc hpad => ?_⟩
  split at hrun
  · simpa [hpad] using hrun c hc
  · rcases hrun with hrun | hrun <;> simpa [hpad] using hrun c hc

theorem ValidInput.countP_pad_le : bs.countP (fun c => decide (cls cfg c = .pad)) ≤ 2 := by
  obtain ⟨r, k, hk, hsplit, hrun⟩ := h.exists_run
  calc bs.countP (fun c => decide (cls cfg c = .pad))
    _ = (bs.filter (fun c => decide (cls cfg c ≠ .ws))).countP (fun c => decide (cls cfg c = .pad)) := by
        rw [List.countP_filter]
        exact List.countP_congr fun c _ => by simp +contextual
    _ = r.countP (fun c => decide (cls cfg c = .pad)) +
          (List.replicate k 0x3D).countP (fun c => decide (cls cfg c = .pad)) := by
        rw [hsplit, List.countP_append]
    _ ≤ 0 + k := by
        refine Nat.add_le_add (List.countP_eq_zero.2 (by simpa using hrun)).le ?_
        exact List.countP_le_length.trans List.length_replicate.le
    _ ≤ 2 := by omega

/-- After a `=` of a valid input only `=` and whitespace follow: with the whitespace taken out, no `=` stands before a
character of the run, and behind the run there is nothing but `=`. -/
theorem ValidInput.pairwise_after_pad :
    bs.Pairwise fun a b => cls cfg a = .pad → cls cfg b = .pad ∨ cls cfg b = .ws := by
  obtain ⟨r, k, -, hsplit, hrun⟩ := h.exists_run
  have hkept : List.Pairwise (fun a b => cls cfg a = .pad → cls cfg b = .pad) (r ++ List.replicate k 0x3D) := by
    refine List.pairwise_append.2 ⟨?_, ?_, fun a ha _ _ hpad => absurd hpad (hrun a ha)⟩
    · exact List.pairwise_of_forall_mem_list fun a ha _ _ hpad => absurd hpad (hrun a ha)
    · exact List.pairwise_replicate.2 (.inr fun hpad => hpad)
  rw [← hsplit, List.pairwise_filter] at hkept
  refine hkept.imp fun {a b} hab hpad => or_iff_not_imp_right.2 fun hws => ?_
  exact hab (by simp [hpad]) (decide_eq_true hws) hpad

theorem ValidInput.cls_of_ne_pad {c : Byte} (hc : c ∈ bs) (hpad : c ≠ 0x3D) :
    cls cfg c = .alnum ∨ cls cfg c = .std ∨ cls cfg c = .url ∨ cls cfg c = .ws := by
  have hother := h.cls_ne_other c hc
  have hpad := mt (cls_eq_pad cfg c).1 hpad
  cases hcl : cls cfg c with
  | alnum | std | url | ws => simp
  | pad => exact absurd hcl hpad
  | other => exact absurd hcl hother

end

/-- Settles O36: V = 1 says that the input is valid, and the four guarantees hold of every valid input. -/
theorem validInputGuarantees : Obligations.ValidInputGuarantees := by
  intro s t hfits hexec hv
  have hvalid := (validFlag_iff_of_exec_valid hfits hexec).1 hv
  have hmem {i : Nat} (hi : i < s.ilen.toNat) : s.readByte .ibuf i ∈ s.inputBytes := (s.mem_input _).2 ⟨i, hi, rfl⟩
  refine ⟨fun i hi => hvalid.cls_ne_other _ (hmem hi), ?_, fun i j hij hj => ?_, fun i hi hne => ?_⟩
  · have hcount := hvalid.countP_pad_le
    rwa [State.inputBytes, List.countP_map] at hcount
  · have hafter := List.pairwise_iff_getElem.1 hvalid.pairwise_after_pad
    simp only [← s.input_eq_inputBytes, s.input_length, s.input_getElem] at hafter
    exact hafter i j (hij.trans hj) hj hij
  · exact hvalid.cls_of_ne_pad (hmem hi) (hne i (Nat.le_refl i))

end Sys2Proof.Machine
end

section
/-! The command INFO (43_inspect.md rules R170 to R178): its two faults, the numbers and flags it leaves, the padding length
by the table of rule R173, and that DECODE leaves the same. -/

namespace Sys2Proof.Machine

/-! ### INFO at every state (rule R176) -/

theorem raises_info_of_inputTooLong {s : State} (h : s.cfg.nbuf < s.ilen.toNat) : Raises .info s 2 0 :=
  if_pos ((inputTooLong_iff s).2 h)

theorem exec_info_inside {s : State} (hfits : s.ilen.toNat ≤ s.cfg.nbuf) (hv : ValidInput s.cfg s.inputBytes) :
    exec .info s = .next (s.writeInfo s.input) := by
  have hvalid : validText s.cfg s.input = true := (validText_iff s.cfg s.input).2 hv
  simp [exec, execInfo, inputTooLong_false s hfits, hvalid]

theorem writeInfo_onlyInfo (s : State) (bs : List Byte) : OnlyInfo s (s.writeInfo bs) :=
  ⟨rfl, rfl, rfl, rfl, rfl, rfl, fun _ => rfl, fun _ => rfl, rfl, rfl, rfl, rfl⟩

/-- INFO of a valid input that fits, for its valid-character length `v` (rules R171 to R176). -/
theorem exec_info_infoOf {s : State} {v : Nat} (hw : s.cfg.wf = true) (hfits : s.ilen.toNat ≤ s.cfg.nbuf)
    (hv : ValidInput s.cfg s.inputBytes) (hvlen : IsVlen s v) :
    ∃ t, exec .info s = .next t ∧ InfoOf s t v ∧ OnlyInfo s t := by
  obtain rfl := (s.isVlen_iff v).1 hvlen
  exact ⟨_, exec_info_inside hfits hv, writeInfo_infoOf s s hw hfits rfl, writeInfo_onlyInfo s s.input⟩

/-- Settles O37: the faults in the order of R176, and what INFO writes for the one VLEN the input has. -/
theorem infoResult : Obligations.InfoResult := fun s hw =>
  ⟨raises_info_of_inputTooLong, raises_info_of_not_validInput s, fun hfits hv =>
    ⟨⟨_, (s.isVlen_iff _).2 rfl⟩, fun _ hvlen => exec_info_infoOf hw hfits hv hvlen⟩⟩

/-! ### The table of the padding length (rule R173) -/

theorem ne_pad_of_hit {c : Byte} (h : (rev c).hit = true) : c ≠ 0x3D := by
  rintro rfl
  exact Bool.false_ne_true (rev_padChar.symm.trans h)

/-- Where `m` alphabet characters stand before nothing but `=`, VLEN is `m`: the fill goes on with `=` (rule R73). -/
theorem isVlen_of_hits_then_pads {s : State} {m k : Nat} (hlen : s.ilen.toNat = m + k) (hhit : ∀ i, i < m → s.hitAt i)
    (hpad : ∀ i, m ≤ i → i < m + k → s.readByte .ibuf i = 0x3D) : IsVlen s m := by
  refine ⟨?_, fun i hi => ?_, fun _ => ?_⟩
  · unfold State.paddedLen
    omega
  · rw [State.viewIn, if_pos (by omega)]
    exact ne_pad_of_hit (hhit i hi)
  · unfold State.viewIn
    split
    · exact hpad m (Nat.le_refl m) (by omega)
    · rfl

/-- The table counts the `=` of the input and those of the fill. -/
theorem paddingTable_eq {m k : Nat} (hk : k ≤ 2) : paddingTable m k = k + (4 - (m + k) % 4) % 4 := by
  have hcases : m % 4 = 0 ∨ m % 4 = 1 ∨ m % 4 = 2 ∨ m % 4 = 3 := by omega
  rcases hcases with hm | hm | hm | hm <;> simp only [paddingTable, hm]
  · split <;> omega
  · omega
  · omega
  · split <;> omega

/-- Settles O38: VLEN is `m`, and the padding length `L - m` is the table's. -/
theorem paddingLengthTable : Obligations.PaddingLengthTable := by
  intro s m k hw hfits hlen hk hhit hpad hv
  obtain ⟨t, ht, hinfo, -⟩ := exec_info_infoOf hw hfits hv (isVlen_of_hits_then_pads hlen hhit hpad)
  refine ⟨t, ht, hinfo.vlen, ?_⟩
  rw [hinfo.plen, paddingTable_eq hk, State.paddedLen, State.fillCount, hlen]
  omega

/-! ### INFO and DECODE (rule R178) -/

theorem eq_writeInfo_of_exec_info {s t : State} (h : exec .info s = .next t) (he : t.status.err = 0) :
    t = s.writeInfo s.input := by
  rcases exec_info_cases s t h with ⟨-, rfl⟩ | ⟨-, -, rfl⟩ | ⟨-, -, hdone⟩
  · exact absurd he (by simp [FaultCode.code])
  · exact absurd he (by simp [FaultCode.code])
  · exact hdone

/-- A DECODE that leaves no fault pending puts out bytes, moves the cursors and then writes what INFO writes. -/
theorem eq_writeInfo_of_exec_decode {u : Alphabet} {s t : State} (h : exec (.decode u) s = .next t)
    (he : t.status.err = 0) :
    ∃ out, t = ((s.writeObuf 0 out).setCursors s.input.length (blenOf s.input)).writeInfo s.input := by
  rcases exec_decode_cases s t u h with ⟨-, rfl⟩ | ⟨-, -, rfl⟩ | ⟨-, -, hvalid⟩
  · exact absurd he (by simp [FaultCode.code])
  · exact absurd he (by simp [FaultCode.code])
  · rcases decodeValid_cases s t s.input hvalid with ⟨-, rfl⟩ | ⟨-, _, -, rfl⟩ | ⟨-, out, -, hdone⟩
    · exact absurd he (by simp [FaultCode.code])
    · exact absurd he (by simp [FaultCode.code])
    · exact ⟨out, hdone⟩

/-- Settles O39: both end with the same `writeInfo`, which neither the output nor the cursors reach. -/
theorem infoAndDecodeAgree : Obligations.InfoAndDecodeAgree := by
  intro u s t t' _ hinfo he hdecode he'
  obtain rfl := eq_writeInfo_of_exec_info hinfo he
  obtain ⟨out, rfl⟩ := eq_writeInfo_of_exec_decode hdecode he'
  simp

end Sys2Proof.Machine
end

section
/-! The unpack datapath bit by bit (44_decode.md rules R185 to R187), and that it undoes the pack datapath. -/

namespace Sys2Proof.Machine

/-! ### The bytes as joined slices of the symbols -/

/-- Every symbol is the reverse value of a character, so the law of a full group's bytes is the law of UNPACK4. -/
theorem unpack4_eq_join4 (r0 r1 r2 r3 : Symbol) :
    [(unpack4 r0 r1 r2 r3).1, (unpack4 r0 r1 r2 r3).2.1, (unpack4 r0 r1 r2 r3).2.2] = join4 r0 r1 r2 r3 := by
  simpa [dec4Bytes, symVal, rev_fwd] using dec4Bytes_eq_join4 (fwd r0) (fwd r1) (fwd r2) (fwd r3)

theorem unpack3_eq_join3 (r0 r1 r2 : Symbol) : [(unpack3 r0 r1 r2).1, (unpack3 r0 r1 r2).2] = join3 r0 r1 r2 := by
  simpa [dec3Bytes, symVal, rev_fwd] using dec3Bytes_eq_join3 (fwd r0) (fwd r1) (fwd r2)

theorem unpack2_eq_join2 (r0 r1 : Symbol) : [unpack2 r0 r1] = join2 r0 r1 := by
  simpa [dec2Bytes, symVal, rev_fwd] using dec2Bytes_eq_join2 (fwd r0) (fwd r1)

/-! ### The tails undo each other -/

theorem unpack3_pack2 (b0 b1 : Byte) :
    unpack3 (pack2 b0 b1).1 (pack2 b0 b1).2.1 (pack2 b0 b1).2.2 = (b0, b1) := by
  simp only [pack2, unpack3, Prod.mk.injEq]
  refine ⟨?_, ?_⟩ <;> apply byte_ext <;> simp

theorem unpack2_pack1 (b : Byte) : unpack2 (pack1 b).1 (pack1 b).2 = b := by
  revert b
  decide

/-- Settles O40: the bit-by-bit forms, and the four inverse laws of packing and unpacking. -/
theorem unpackBits : Obligations.UnpackBits :=
  ⟨fun r0 r1 r2 r3 => ⟨unpack4_eq_join4 r0 r1 r2 r3, pack3_unpack4 r0 r1 r2 r3⟩, unpack3_eq_join3, unpack2_eq_join2,
    unpack4_pack3, unpack3_pack2, unpack2_pack1⟩

end Sys2Proof.Machine
end

section
/-! The decoding group commands at every state (44_decode.md rules R188 to R190): the faults, the bytes, the cursors and
the frame. -/

namespace Sys2Proof.Machine

/-- Everything a decoding group command `i` over the characters `cs` at the cursor does: the two BOUNDS faults, BADCHAR at
the first character without a reverse entry, the bytes at OPTR, the cursors and the frame (rules R74, R188 to R190, R223). -/
theorem decodeGroup_spec {i : Instr} {s : State} {n m : Nat} {cs out : List Byte} (hw : s.cfg.wf = true)
    (hi : exec i s = s.boundedGroup n m (s.decodeGroup cs out)) (hn : cs.length = n) (hm : out.length = m)
    (hc : ∀ k (h : k < cs.length), cs[k] = s.readByte .ibuf (s.iptr.toNat + k)) :
    (s.cfg.nbuf < s.ilen.toNat ∨ s.ilen.toNat < s.iptr.toNat + n → Raises i s 2 0) ∧
    (s.ilen.toNat ≤ s.cfg.nbuf → s.iptr.toNat + n ≤ s.ilen.toNat →
      (s.cfg.nbuf < s.optr.toNat + m → Raises i s 2 1) ∧
      (s.optr.toNat + m ≤ s.cfg.nbuf →
        (∀ j, j < n → s.firstBadAt s.iptr.toNat j → Raises i s 5 (BitVec.ofNat 32 (s.iptr.toNat + j))) ∧
        ((∀ k, k < n → s.hitAt (s.iptr.toNat + k)) → ∃ t, exec i s = .next t ∧ Holds t .obuf s.optr.toNat out ∧
          SameOutside s t .obuf s.optr.toNat m ∧ t.iptr.toNat = s.iptr.toNat + n ∧ t.optr.toNat = s.optr.toNat + m ∧
          OnlyOutput s t))) := by
  subst hn hm
  refine ⟨fun hshort => hi.trans (boundedGroup_short s _ _ _ hshort), fun hl hin => ?_⟩
  have hs : s.inputShort cs.length = false := inputShort_false s _ hl hin
  refine ⟨fun hfull => hi.trans (boundedGroup_full s _ _ _ hs hfull), fun hout => ?_⟩
  rw [boundedGroup_inside s _ _ _ hs (outputFull_false s _ hout), State.decodeGroup] at hi
  refine ⟨fun j hj hbad => ?_, fun hhits => ?_⟩
  · rw [firstMiss_of_firstBadAt s j cs hj hc hbad] at hi
    exact hi
  · rw [firstMiss_of_hits s cs hc hhits] at hi
    exact ⟨_, hi, groupDone_spec s cs.length out hw hs hout⟩

/-- Settles O41: `decodeGroup_spec` at the four characters of a full group. -/
theorem dec4DecodesGroup : Obligations.Dec4DecodesGroup := by
  intro s hw
  unfold State.symAt
  rw [← dec4Bytes_eq_join4]
  exact decodeGroup_spec hw rfl rfl rfl (atCursor4_getElem s)

/-- Settles O42: `decodeGroup_spec` at the three characters of a tail. -/
theorem dec3DecodesTail : Obligations.Dec3DecodesTail := by
  intro s hw
  unfold State.symAt
  rw [← dec3Bytes_eq_join3]
  exact decodeGroup_spec hw rfl rfl rfl (atCursor3_getElem s)

/-- Settles O43: `decodeGroup_spec` at the two characters of a tail. -/
theorem dec2DecodesTail : Obligations.Dec2DecodesTail := by
  intro s hw
  unfold State.symAt
  rw [← dec2Bytes_eq_join2]
  exact decodeGroup_spec hw rfl rfl rfl (atCursor2_getElem s)

end Sys2Proof.Machine
end

section
/-! The decoder sees a character through its reverse entry only (40_table.md rule R121), so `-` and `_` decode as
`+` and `/`. -/

namespace Sys2Proof.Machine

theorem rev_toStandard : ∀ c : Byte, rev (toStandard c) = rev c := by decide

theorem symVal_toStandard (c : Byte) : symVal (toStandard c) = symVal c := congrArg RevEntry.val (rev_toStandard c)

theorem firstMiss_map_toStandard (cs : List Byte) : firstMiss (cs.map toStandard) = firstMiss cs := by
  simp [firstMiss, List.findIdx?_map, Function.comp_def, rev_toStandard]

theorem dec4Bytes_toStandard (c0 c1 c2 c3 : Byte) :
    dec4Bytes (toStandard c0) (toStandard c1) (toStandard c2) (toStandard c3) = dec4Bytes c0 c1 c2 c3 := by
  simp only [dec4Bytes, symVal_toStandard]

theorem dec3Bytes_toStandard (c0 c1 c2 : Byte) :
    dec3Bytes (toStandard c0) (toStandard c1) (toStandard c2) = dec3Bytes c0 c1 c2 := by
  simp only [dec3Bytes, symVal_toStandard]

theorem dec2Bytes_toStandard (c0 c1 : Byte) : dec2Bytes (toStandard c0) (toStandard c1) = dec2Bytes c0 c1 := by
  simp only [dec2Bytes, symVal_toStandard]

end Sys2Proof.Machine
end

section
/-! A decoding group command as an update (44_decode.md rules R188 to R190): it is a function of the bounds, the cursors
and the characters at the input cursor, and of these it sees the bits it puts out (rules R193, R195). -/

namespace Sys2Proof.Machine

/-! ### One update for DEC4, DEC3 and DEC2 -/

/-- The `n` characters at the input cursor. -/
def State.charsAtCursor (s : State) (n : Nat) : List Byte := (List.range n).map s.atCursor

/-- The bytes of a group of four, three or two characters (rules R185 to R187). -/
def groupBytes : List Byte → List Byte
  | [c0, c1, c2, c3] => dec4Bytes c0 c1 c2 c3
  | [c0, c1, c2]     => dec3Bytes c0 c1 c2
  | [c0, c1]         => dec2Bytes c0 c1
  | _                => []

/-- What the group command for `n` characters, which makes `n - 1` bytes of them, does to the state. -/
def State.decodeUpdate (s : State) (n : Nat) : Update :=
  if s.inputShort n then .fault .bounds inputSide
  else if s.outputFull (n - 1) then .fault .bounds outputSide
  else
    match firstMiss (s.charsAtCursor n) with
    | some j => .fault .badchar (word32 (s.iptr.toNat + j))
    | none   =>
      let out := groupBytes (s.charsAtCursor n)
      .output s.optr.toNat out (s.iptr.toNat + n) (s.optr.toNat + out.length)

theorem boundedGroup_decodeGroup_eq (s : State) {n : Nat} :
    s.boundedGroup n (n - 1) (s.decodeGroup (s.charsAtCursor n) (groupBytes (s.charsAtCursor n))) =
      .next ((s.decodeUpdate n).apply s) := by
  have hlen : (s.charsAtCursor n).length = n := by simp [State.charsAtCursor]
  unfold State.boundedGroup State.decodeGroup State.decodeUpdate
  rw [hlen]
  split
  · rfl
  · split
    · rfl
    · cases firstMiss (s.charsAtCursor n) <;> rfl

theorem exec_dec4 (s : State) : exec .dec4 s = .next ((s.decodeUpdate 4).apply s) := boundedGroup_decodeGroup_eq s

theorem exec_dec3 (s : State) : exec .dec3 s = .next ((s.decodeUpdate 3).apply s) := boundedGroup_decodeGroup_eq s

theorem exec_dec2 (s : State) : exec .dec2 s = .next ((s.decodeUpdate 2).apply s) := boundedGroup_decodeGroup_eq s

theorem exec_groupDecoder {i : Instr} (hi : i = .dec4 ∨ i = .dec3 ∨ i = .dec2) :
    ∃ n, ∀ s, exec i s = .next ((s.decodeUpdate n).apply s) := by
  rcases hi with rfl | rfl | rfl
  · exact ⟨4, exec_dec4⟩
  · exact ⟨3, exec_dec3⟩
  · exact ⟨2, exec_dec2⟩

/-! ### What the update depends on -/

/-- The two states pass the same bounds checks and write at the same places: the same parameters, lengths and cursors,
and the same fault record. Neither buffer is compared. -/
structure SameRegisters (s s' : State) : Prop where
  cfg    : s'.cfg = s.cfg
  ilen   : s'.ilen = s.ilen
  iptr   : s'.iptr = s.iptr
  optr   : s'.optr = s.optr
  status : s'.status = s.status
  einfo  : s'.einfo = s.einfo

section
variable {s s' : State} {n : Nat} (h : SameRegisters s s')
include h

theorem SameRegisters.decodeUpdate (hmiss : firstMiss (s'.charsAtCursor n) = firstMiss (s.charsAtCursor n))
    (hbytes : groupBytes (s'.charsAtCursor n) = groupBytes (s.charsAtCursor n)) :
    s'.decodeUpdate n = s.decodeUpdate n := by
  unfold State.decodeUpdate State.inputShort State.inputTooLong State.outputFull
  rw [h.cfg, h.ilen, h.iptr, h.optr, hmiss, hbytes]

theorem SameRegisters.apply (u : Update) :
    (u.apply s').status = (u.apply s).status ∧ (u.apply s').einfo = (u.apply s).einfo ∧
    (u.apply s').iptr = (u.apply s).iptr ∧ (u.apply s').optr = (u.apply s).optr := by
  refine ⟨?_, u.apply_einfo_congr s s' h.einfo, u.apply_cursors_congr s s' h.iptr h.optr⟩
  cases u <;> simp [Update.apply, h.status, h.cfg]

end

/-! ### The bits a tail drops (rule R193) -/

theorem atCursor_writeByte (s : State) (n k : Nat) (c : Byte) :
    (s.writeByte .ibuf (s.iptr.toNat + n) c).atCursor k = if k = n then c else s.atCursor k := by
  simp [State.atCursor, State.readIbuf, State.readByte_writeByte]

theorem charsAtCursor_writeByte_last (s : State) (n : Nat) (c : Byte) :
    (s.writeByte .ibuf (s.iptr.toNat + n) c).charsAtCursor (n + 1) = s.charsAtCursor n ++ [c] := by
  simp only [State.charsAtCursor, List.range_succ, List.map_append, List.map_cons, List.map_nil,
    atCursor_writeByte, if_true]
  refine congrArg (· ++ [c]) (List.map_congr_left fun k hk => ?_)
  rw [atCursor_writeByte, if_neg (List.mem_range.1 hk).ne]

theorem firstMiss_append_hit (cs : List Byte) {c : Byte} (h : (rev c).hit = true) :
    firstMiss (cs ++ [c]) = firstMiss cs := by
  have hc : firstMiss [c] = none := (firstMiss_eq_none _).2 (by simpa using h)
  rw [firstMiss_append, hc, Option.map_none, Option.or_none]

/-- A group command does not tell apart two last characters that give the group the same bytes. -/
theorem groupDecoder_last_congr {i : Instr} {n : Nat} (hi : ∀ s, exec i s = .next ((s.decodeUpdate (n + 1)).apply s))
    {s t t' : State} {c c' : Byte} (hc : (rev c).hit = true) (hc' : (rev c').hit = true)
    (hbytes : groupBytes (s.charsAtCursor n ++ [c']) = groupBytes (s.charsAtCursor n ++ [c]))
    (ht : exec i (s.writeByte .ibuf (s.iptr.toNat + n) c) = .next t)
    (ht' : exec i (s.writeByte .ibuf (s.iptr.toNat + n) c') = .next t') :
    t'.status = t.status ∧ t'.einfo = t.einfo ∧ t'.iptr = t.iptr ∧ t'.optr = t.optr ∧ SameBytes t t' .obuf := by
  have hregs : SameRegisters (s.writeByte .ibuf (s.iptr.toNat + n) c) (s.writeByte .ibuf (s.iptr.toNat + n) c') :=
    ⟨rfl, rfl, rfl, rfl, rfl, rfl⟩
  have hupdate := hregs.decodeUpdate (n := n + 1)
    (by simp only [charsAtCursor_writeByte_last, firstMiss_append_hit _ hc, firstMiss_append_hit _ hc'])
    (by simpa only [charsAtCursor_writeByte_last] using hbytes)
  rw [hi] at ht ht'
  rw [hupdate] at ht'
  cases ht
  cases ht'
  obtain ⟨hstatus, heinfo, hiptr, hoptr⟩ := hregs.apply (State.decodeUpdate _ (n + 1))
  refine ⟨hstatus, heinfo, hiptr, hoptr, fun a => ?_⟩
  rcases Update.readByte_obuf_congr _ _ _ a with hsame | ⟨hkeep, hkeep'⟩
  · exact hsame
  · rw [hkeep', hkeep]
    rfl

/-- Settles O47: the third character of DEC3 enters its bytes by its bits 5:2, the second of DEC2 by its bits 5:4. -/
theorem droppedBitsAreIgnored : Obligations.DroppedBitsAreIgnored := by
  intro s t t' c c' hc hc'
  refine ⟨fun hbits => groupDecoder_last_congr exec_dec3 hc hc' ?_,
    fun hbits => groupDecoder_last_congr exec_dec2 hc hc' ?_⟩
  · show dec3Bytes (s.atCursor 0) (s.atCursor 1) c' = dec3Bytes (s.atCursor 0) (s.atCursor 1) c
    rw [dec3Bytes_eq_join3, dec3Bytes_eq_join3, join3, join3, hbits]
  · show dec2Bytes (s.atCursor 0) c' = dec2Bytes (s.atCursor 0) c
    rw [dec2Bytes_eq_join2, dec2Bytes_eq_join2, join2, join2, hbits]

/-! ### MIXED_OK and the aliases (rule R195) -/

/-- The state under parameters that differ in MIXED_OK at most. -/
def State.withMixedOk (s : State) (b : Bool) : State := { s with cfg := { s.cfg with mixedOk := b } }

theorem decodeUpdate_withMixedOk (s : State) (b : Bool) (n : Nat) :
    (s.withMixedOk b).decodeUpdate n = s.decodeUpdate n := rfl

/-- No class, and so no update, depends on MIXED_OK. -/
theorem apply_withMixedOk (u : Update) (s : State) (b : Bool) : u.apply (s.withMixedOk b) = (u.apply s).withMixedOk b := by
  cases u <;> rfl

theorem groupBytes_map_toStandard (cs : List Byte) : groupBytes (cs.map toStandard) = groupBytes cs := by
  match cs with
  | []                          => rfl
  | [_]                         => rfl
  | [c0, c1]                    => exact dec2Bytes_toStandard c0 c1
  | [c0, c1, c2]                => exact dec3Bytes_toStandard c0 c1 c2
  | [c0, c1, c2, c3]            => exact dec4Bytes_toStandard c0 c1 c2 c3
  | _ :: _ :: _ :: _ :: _ :: _  => rfl

theorem charsAtCursor_toStandard {s s' : State} (hiptr : s'.iptr = s.iptr)
    (h : ∀ k, s'.readByte .ibuf k = toStandard (s.readByte .ibuf k)) (n : Nat) :
    s'.charsAtCursor n = (s.charsAtCursor n).map toStandard := by
  simp [State.charsAtCursor, State.atCursor, State.readIbuf, hiptr, h]

theorem decodeUpdate_cases (s : State) (n : Nat) :
    (∃ f info, s.decodeUpdate n = .fault f info) ∨
    ∃ out ip, s.decodeUpdate n = .output s.optr.toNat out ip (s.optr.toNat + out.length) := by
  unfold State.decodeUpdate
  split
  · exact .inl ⟨_, _, rfl⟩
  · split
    · exact .inl ⟨_, _, rfl⟩
    · split
      · exact .inl ⟨_, _, rfl⟩
      · exact .inr ⟨_, _, rfl⟩

/-- The bytes the output cursor has passed are the update's, whatever buffer it is applied to. -/
theorem decodeUpdate_output_congr (s s' : State) (n a : Nat) (ha : s.optr.toNat ≤ a)
    (hlt : a < ((s.decodeUpdate n).apply s).optr.toNat) :
    ((s.decodeUpdate n).apply s').readByte .obuf a = ((s.decodeUpdate n).apply s).readByte .obuf a := by
  rcases decodeUpdate_cases s n with ⟨f, info, hu⟩ | ⟨out, ip, hu⟩
  · rw [hu] at hlt
    exact absurd hlt (Nat.not_lt.2 ha)
  · rw [hu] at hlt ⊢
    have hpassed : (word32 (s.optr.toNat + out.length)).toNat ≤ s.optr.toNat + out.length := Nat.mod_le _ _
    have hin : s.optr.toNat ≤ a ∧ a < s.optr.toNat + out.length := ⟨ha, Nat.lt_of_lt_of_le hlt hpassed⟩
    show (s'.writeObuf _ out).readByte .obuf a = (s.writeObuf _ out).readByte .obuf a
    rw [State.readByte_writeObuf, State.readByte_writeObuf, if_pos hin, if_pos hin]

/-- Settles O49: the update of a group command depends neither on MIXED_OK nor on which character spells a symbol. -/
theorem groupDecodersIgnoreMixedOk : Obligations.GroupDecodersIgnoreMixedOk := by
  intro s t b i hi ht
  obtain ⟨n, hexec⟩ := exec_groupDecoder hi
  rw [hexec] at ht
  cases ht
  refine ⟨?_, fun s' t' hcfg hilen hiptr hoptr hstatus heinfo hbytes ht' => ?_⟩
  · show exec i (s.withMixedOk b) = .next (State.withMixedOk _ b)
    rw [hexec, decodeUpdate_withMixedOk, apply_withMixedOk]
  · have hregs : SameRegisters s s' := ⟨hcfg, hilen, hiptr, hoptr, hstatus, heinfo⟩
    have hchars := charsAtCursor_toStandard hiptr hbytes n
    have hupdate : s'.decodeUpdate n = s.decodeUpdate n :=
      hregs.decodeUpdate (by rw [hchars, firstMiss_map_toStandard]) (by rw [hchars, groupBytes_map_toStandard])
    rw [hexec, hupdate] at ht'
    cases ht'
    obtain ⟨hstatus, heinfo, hiptr, hoptr⟩ := hregs.apply (s.decodeUpdate n)
    exact ⟨hstatus, heinfo, hiptr, hoptr, decodeUpdate_output_congr s s' n⟩

end Sys2Proof.Machine
end

section
/-! DECODE at every state (44_decode.md rule R191): its faults in order, what it puts out, and when it succeeds (rules R196,
R197). -/

namespace Sys2Proof.Machine

/-! ### The outcomes of DECODE -/

/-- The state DECODE leaves where it does not fault and puts out `out`. -/
def State.decoded (s : State) (out : List Byte) : State :=
  ((s.writeObuf 0 out).setCursors s.input.length (blenOf s.input)).writeInfo s.input

theorem raises_decode_of_inputTooLong (u : Alphabet) {s : State} (h : s.cfg.nbuf < s.ilen.toNat) :
    Raises (.decode u) s 2 0 :=
  if_pos ((inputTooLong_iff s).2 h)

section
variable {u : Alphabet} {s : State} (hfits : s.ilen.toNat ≤ s.cfg.nbuf) (hv : ValidInput s.cfg s.inputBytes)
include hfits hv

theorem exec_decode_of_validInput : exec (.decode u) s = s.decodeValid s.input := by
  have hvalid : validText s.cfg s.input = true := (validText_iff s.cfg s.input).2 hv
  simp [exec, execDecode, inputTooLong_false s hfits, hvalid]

theorem raises_decode_padlen (hp : 2 < plenOf s.input) : Raises (.decode u) s 4 (word32 (plenOf s.input)) :=
  (exec_decode_of_validInput hfits hv).trans (if_pos hp)

theorem raises_decode_badchar (hp : plenOf s.input ≤ 2) {j : Nat}
    (hbad : decodeText (padded s.input) (plenOf s.input) = .error j) : Raises (.decode u) s 5 (word32 j) := by
  rw [Raises, exec_decode_of_validInput hfits hv, State.decodeValid, if_neg (Nat.not_lt.2 hp), hbad]
  rfl

theorem exec_decode_inside (hp : plenOf s.input ≤ 2) {out : List Byte}
    (hok : decodeText (padded s.input) (plenOf s.input) = .ok out) : exec (.decode u) s = .next (s.decoded out) := by
  rw [exec_decode_of_validInput hfits hv, State.decodeValid, if_neg (Nat.not_lt.2 hp), hok]
  rfl

end

/-- A DECODE that leaves no fault pending found a padding length of at most 2 and no miss. -/
theorem decoded_of_exec_decode {u : Alphabet} {s t : State} (h : exec (.decode u) s = .next t) (he : t.status.err = 0) :
    s.ilen.toNat ≤ s.cfg.nbuf ∧ plenOf s.input ≤ 2 ∧
    ∃ out, decodeText (padded s.input) (plenOf s.input) = .ok out ∧ t = s.decoded out := by
  rcases exec_decode_cases s t u h with ⟨-, rfl⟩ | ⟨-, -, rfl⟩ | ⟨hfits, -, hvalid⟩
  · exact absurd he (by simp [FaultCode.code])
  · exact absurd he (by simp [FaultCode.code])
  · rcases decodeValid_cases s t s.input hvalid with ⟨-, rfl⟩ | ⟨-, _, -, rfl⟩ | ⟨hp, hdone⟩
    · exact absurd he (by simp [FaultCode.code])
    · exact absurd he (by simp [FaultCode.code])
    · exact ⟨hfits, hp, hdone⟩

/-! ### The state after a successful DECODE -/

theorem State.decoded_obuf (s : State) (out : List Byte) : (s.decoded out).obuf = Memory.putAll 0 out s.obuf := rfl

theorem State.decoded_holds (s : State) (out : List Byte) : Holds (s.decoded out) .obuf 0 out := holds_of_obuf s _ 0 _ rfl

theorem State.decoded_iptr (s : State) (out : List Byte) : (s.decoded out).iptr = s.ilen := by
  show word32 s.input.length = s.ilen
  rw [State.input_length]
  exact BitVec.ofNat_toNat ..

theorem State.decoded_optr_eq_blen (s : State) (out : List Byte) : (s.decoded out).optr = (s.decoded out).blen := rfl

theorem State.decoded_onlyDecode (s : State) (out : List Byte) : OnlyDecode s (s.decoded out) :=
  ⟨rfl, rfl, rfl, rfl, fun _ => rfl, rfl, rfl, rfl, rfl⟩

theorem State.decoded_infoOf {s : State} (hw : s.cfg.wf = true) (hfits : s.ilen.toNat ≤ s.cfg.nbuf) (out : List Byte) :
    InfoOf s (s.decoded out) (vlenOf s.input) := writeInfo_infoOf s _ hw hfits rfl

/-- The output length of rule R191, over the registers. -/
theorem State.decoded_optr {s : State} (hw : s.cfg.wf = true) (hfits : s.ilen.toNat ≤ s.cfg.nbuf)
    (hp : s.paddedLen - vlenOf s.input ≤ 2) (out : List Byte) :
    (s.decoded out).optr.toNat = s.paddedLen * 3 / 4 - (s.paddedLen - vlenOf s.input) := by
  rw [State.decoded_optr_eq_blen, (State.decoded_infoOf hw hfits out).blen, if_pos hp]

/-- OPTR after DECODE is the number of bytes put out (rule R191). -/
theorem State.decoded_optr_eq_length {s : State} {out : List Byte} (hw : s.cfg.wf = true) (hfits : s.ilen.toNat ≤ s.cfg.nbuf)
    (hp : plenOf s.input ≤ 2) (hok : decodeText (padded s.input) (plenOf s.input) = .ok out) :
    (s.decoded out).optr.toNat = out.length := by
  have hb := configWf_nbuf s.cfg hw
  have hle := (blenOf_eq s.input hp).2
  have hfill := fillOf_lt s.input.length
  rw [padded_length] at hle
  rw [State.input_length] at hle hfill
  rw [decodeText_length s.input out hp hok]
  exact word32_toNat _ (by omega)

theorem State.decoded_readByte (s : State) {out : List Byte} {i : Nat} (hi : i < out.length) :
    (s.decoded out).readByte .obuf i = out[i] := by
  simpa using s.decoded_holds out i out[i] (List.getElem?_eq_getElem hi)

/-- Settles O44: `decodeText_input` says what the decoder puts out group by group, and `State.decoded` where it stands. -/
theorem decodeDecodesInput : Obligations.DecodeDecodesInput := by
  intro u s hw
  refine ⟨raises_decode_of_inputTooLong u, raises_decode_of_not_validInput s u, fun hfits hv v hvlen => ?_⟩
  obtain rfl := (s.isVlen_iff v).1 hvlen
  intro p m
  have hplen : plenOf s.input = p := s.plenOf_input
  refine ⟨fun hp => ?_, fun hp j hj hbad => ?_, fun hp hhits => ?_⟩
  · rw [← hplen] at hp ⊢
    exact raises_decode_padlen hfits hv hp
  · exact raises_decode_badchar hfits hv (hplen.trans_le hp) ((decodeText_input s hp).1 j hj hbad)
  · obtain ⟨out, hok, hlen, hgroups, htail3, htail2⟩ := (decodeText_input s hp).2 hhits
    refine ⟨s.decoded out, exec_decode_inside hfits hv (hplen.trans_le hp) hok, fun g hg => ?_, fun hp1 => ?_, fun hp2 => ?_,
      sameOutside_of_obuf s _ 0 _ out hlen rfl rfl, s.decoded_iptr out, State.decoded_optr hw hfits hp out,
      State.decoded_infoOf hw hfits out, s.decoded_onlyDecode out⟩
    · exact holds_of_part s _ _ _ _ (s.decoded_obuf out) (hgroups g hg)
    · exact holds_of_part s _ _ _ _ (s.decoded_obuf out) (htail3 hp1)
    · refine holds_of_part s _ _ _ _ (s.decoded_obuf out) fun k hk => ?_
      obtain rfl : k = 0 := Nat.lt_one_iff.1 hk
      exact htail2 hp2

/-! ### When DECODE succeeds (rules R196, R197) -/

/-- With a padding length of at most 2 the decoder puts out bytes exactly when no character below VLEN is a miss. -/
theorem decodeText_ok_iff (s : State) (hp : plenOf s.input ≤ 2) :
    (∃ out, decodeText (padded s.input) (plenOf s.input) = .ok out) ↔ ∀ i, i < vlenOf s.input → s.hitAt i := by
  obtain ⟨hbad, hok⟩ := decodeText_input s (s.plenOf_input.symm.trans_le hp)
  refine ⟨fun ⟨out, hout⟩ i => ?_, fun hhits => (hok hhits).imp fun _ h => h.1⟩
  induction i using Nat.strong_induction_on with
  | _ i ih =>
    intro hi
    by_contra hmiss
    have hfirst : s.firstBadAt 0 i := by
      simp only [State.firstBadAt, Nat.zero_add]
      exact ⟨fun k hk => ih k hk (hk.trans hi), hmiss⟩
    cases hout.symm.trans (hbad i hi hfirst)

/-- A character below VLEN of a valid input has a reverse entry or is whitespace (rule R162 (c)). -/
theorem hitAt_iff_of_lt_vlenOf {s : State} (hv : ValidInput s.cfg s.inputBytes) {i : Nat} (hi : i < vlenOf s.input) :
    s.hitAt i ↔ cls s.cfg (s.readByte .ibuf i) ≠ .ws := by
  have hlen := vlenOf_le_length s.input
  rw [State.input_length] at hlen
  have hpad : s.readByte .ibuf i ≠ 0x3D := by
    have hview := view_lt_vlenOf s.input i hi
    rwa [State.viewAt_input, State.viewIn, if_pos (by omega)] at hview
  have hcls := hv.cls_of_ne_pad ((s.mem_input _).2 ⟨i, by omega, rfl⟩) hpad
  rw [State.hitAt, hit_iff_cls s.cfg]
  cases hc : cls s.cfg (s.readByte .ibuf i) <;> simp [hc] at hcls ⊢

/-- Settles O45: a successful DECODE met no miss, and below VLEN the misses of a valid input are its whitespace. -/
theorem decodeSucceedsExactly : Obligations.DecodeSucceedsExactly := by
  intro u s t v hw hfits hv hvlen herr hexec
  obtain rfl := (s.isVlen_iff v).1 hvlen
  have hlen := vlenOf_le_length s.input
  rw [State.input_length] at hlen
  have hhits : (∀ i, i < vlenOf s.input → s.hitAt i) ↔
      ∀ i, i < vlenOf s.input → i < s.ilen.toNat → cls s.cfg (s.readByte .ibuf i) ≠ .ws :=
    forall₂_congr fun i hi => (hitAt_iff_of_lt_vlenOf hv hi).trans (by simp [hi.trans_le hlen])
  rw [← hhits, ← State.plenOf_input]
  constructor
  · intro he
    obtain ⟨-, hp, out, hok, -⟩ := decoded_of_exec_decode hexec he
    exact ⟨hp, (decodeText_ok_iff s hp).1 ⟨out, hok⟩⟩
  · rintro ⟨hp, hall⟩
    obtain ⟨out, hok⟩ := (decodeText_ok_iff s hp).2 hall
    rw [exec_decode_inside hfits hv hp hok] at hexec
    cases hexec
    exact herr

/-- Settles O50: the numbers are those of the input, whose padding length is at most 2. -/
theorem decodeGroupCount : Obligations.DecodeGroupCount := by
  intro u s t hw _ hexec he
  obtain ⟨hfits, hp, out, -, rfl⟩ := decoded_of_exec_decode hexec he
  have hinfo := State.decoded_infoOf hw hfits out
  have hvle := vlenOf_le s.input
  have hmod := padded_length_mod s.input
  rw [State.padded_input_length] at hvle hmod
  rw [State.plenOf_input] at hp
  rw [hinfo.fill, hinfo.vlen, hinfo.plen, hinfo.blen, if_pos hp, ← State.paddedLen]
  refine ⟨?_, ?_, ?_, ?_, s.decoded_optr_eq_blen out⟩ <;> omega

end Sys2Proof.Machine
end

section
/-! The normalised string of the source (44_decode.md rule R192): with the required `=` appended and the aliases replaced it
has the same numbers, the same decoded bytes, and is valid where the input decodes. -/

namespace Sys2Proof.Machine

/-! ### The decoder and the aliases -/

theorem decodeFull_map_toStandard (base : Nat) (cs : List Byte) :
    decodeFull base (cs.map toStandard) = decodeFull base cs := by
  match cs with
  | []        => rfl
  | [_]       => rfl
  | [_, _]    => rfl
  | [_, _, _] => rfl
  | c0 :: c1 :: c2 :: c3 :: rest =>
    have hmiss : firstMiss [toStandard c0, toStandard c1, toStandard c2, toStandard c3] = firstMiss [c0, c1, c2, c3] :=
      firstMiss_map_toStandard [c0, c1, c2, c3]
    simp only [List.map_cons, decodeFull, hmiss, decodeFull_map_toStandard (base + 4) rest, dec4Bytes_toStandard]

theorem decodeTail_map_toStandard (base plen : Nat) (cs : List Byte) :
    decodeTail base plen (cs.map toStandard) = decodeTail base plen cs := by
  match plen, cs with
  | 0, _          => rfl
  | 1, []         => rfl
  | 1, [_]        => rfl
  | 1, [_, _]     => rfl
  | 1, c0 :: c1 :: c2 :: _ =>
    have hmiss : firstMiss [toStandard c0, toStandard c1, toStandard c2] = firstMiss [c0, c1, c2] :=
      firstMiss_map_toStandard [c0, c1, c2]
    simp only [List.map_cons, decodeTail, hmiss, dec3Bytes_toStandard]
  | 2, []         => rfl
  | 2, [_]        => rfl
  | 2, c0 :: c1 :: _ =>
    have hmiss : firstMiss [toStandard c0, toStandard c1] = firstMiss [c0, c1] := firstMiss_map_toStandard [c0, c1]
    simp only [List.map_cons, decodeTail, hmiss, dec2Bytes_toStandard]
  | _ + 3, _      => rfl

theorem decodeText_map_toStandard (p : List Byte) (plen : Nat) :
    decodeText (p.map toStandard) plen = decodeText p plen := by
  simp only [decodeText, List.length_map, ← List.map_take, ← List.map_drop, decodeFull_map_toStandard,
    decodeTail_map_toStandard]

/-! ### The normalised string -/

/-- The input with the required `=` appended, and `-` and `_` replaced by `+` and `/`. -/
def normalised (bs : List Byte) : List Byte := (padded bs).map toStandard

theorem toStandard_beq_padChar : ∀ c : Byte, (toStandard c == padChar) = (c == padChar) := by decide

@[simp] theorem normalised_length (bs : List Byte) : (normalised bs).length = (padded bs).length := List.length_map ..

/-- The normalised string is a whole number of groups. -/
theorem fillOf_normalised (bs : List Byte) : fillOf (normalised bs).length = 0 := by
  have hmod := padded_length_mod bs
  rw [normalised_length, fillOf, hmod]

theorem padded_normalised (bs : List Byte) : padded (normalised bs) = normalised bs := by
  rw [padded, fillOf_normalised]
  exact List.append_nil _

theorem vlenOf_normalised (bs : List Byte) : vlenOf (normalised bs) = vlenOf bs := by
  rw [vlenOf, padded_normalised, normalised, List.findIdx_map]
  exact congrArg (List.findIdx · (padded bs)) (funext toStandard_beq_padChar)

theorem plenOf_normalised (bs : List Byte) : plenOf (normalised bs) = plenOf bs := by
  rw [plenOf, padded_normalised, normalised_length, vlenOf_normalised, plenOf]

theorem blenOf_normalised (bs : List Byte) : blenOf (normalised bs) = blenOf bs := by
  rw [blenOf, plenOf_normalised, vlenOf_normalised, blenOf]

theorem decodeText_normalised (bs : List Byte) :
    decodeText (padded (normalised bs)) (plenOf (normalised bs)) = decodeText (padded bs) (plenOf bs) := by
  rw [padded_normalised, plenOf_normalised, normalised, decodeText_map_toStandard]

/-! ### The normalised string is valid -/

theorem toStandard_ne_url : ∀ c : Byte, ¬ (toStandard c = 0x2D ∨ toStandard c = 0x5F) := by decide

theorem cls_toStandard_of_hit (cfg : Config) {c : Byte} (h : (rev c).hit = true) :
    cls cfg (toStandard c) = .alnum ∨ cls cfg (toStandard c) = .std :=
  (cls_alnum_or_std_iff cfg _).2 ⟨by rwa [rev_toStandard], toStandard_ne_url c⟩

theorem toStandard_of_miss : ∀ c : Byte, (rev c).hit = false → toStandard c = c := by decide

/-- From VLEN on a valid input holds only `=` and whitespace (rule R162 (b)). -/
theorem ValidInput.cls_of_mem_drop_vlenOf {cfg : Config} {bs : List Byte} (h : ValidInput cfg bs) {c : Byte}
    (hc : c ∈ bs.drop (vlenOf bs)) : cls cfg c = .pad ∨ cls cfg c = .ws := by
  have hlt : vlenOf bs < bs.length := by
    have := List.length_pos_of_mem hc
    rw [List.length_drop] at this
    omega
  have hpad : bs[vlenOf bs] = padChar := by
    have hview := view_vlenOf bs (by rw [padded_length]; omega)
    rwa [viewAt, List.getD_eq_getElem _ _ hlt] at hview
  have hafter := h.pairwise_after_pad.drop (i := vlenOf bs)
  rw [List.drop_eq_getElem_cons hlt, hpad] at hc hafter
  rcases List.mem_cons.1 hc with rfl | hrest
  · exact .inl (cls_padChar cfg)
  · exact (List.pairwise_cons.1 hafter).1 c hrest (cls_padChar cfg)

/-- The padded view from VLEN on. -/
theorem drop_vlenOf_padded (bs : List Byte) :
    (padded bs).drop (vlenOf bs) = bs.drop (vlenOf bs) ++ List.replicate (fillOf bs.length) padChar :=
  List.drop_append_of_le_length (vlenOf_le_length bs)

/-- A run of characters of one alphabet, then at most two more that are `=` or whitespace, is valid with either value of
MIXED_OK. -/
theorem validInput_run_append {cfg : Config} {r ds : List Byte}
    (hrun : (∀ c ∈ r, cls cfg c = .alnum ∨ cls cfg c = .std) ∨ ∀ c ∈ r, cls cfg c = .alnum ∨ cls cfg c = .url)
    (hlen : ds.length ≤ 2) (hds : ∀ c ∈ ds, cls cfg c = .pad ∨ cls cfg c = .ws) : ValidInput cfg (r ++ ds) := by
  have hany := ((oneAlphabet_iff cfg r).1 hrun).1
  have hkeep : r.filter (fun c => decide (cls cfg c ≠ .ws)) = r := List.filter_eq_self.2 fun c hc => by
    rcases hany c hc with h | h | h <;> simp [h]
  have hpads : ds.filter (fun c => decide (cls cfg c ≠ .ws)) =
      List.replicate (ds.filter (fun c => decide (cls cfg c ≠ .ws))).length 0x3D :=
    List.eq_replicate_of_mem fun c hc => by
      obtain ⟨hmem, hws⟩ := List.mem_filter.1 hc
      exact (cls_eq_pad cfg c).1 ((hds c hmem).resolve_right (of_decide_eq_true hws))
  refine ⟨r, (ds.filter (fun c => decide (cls cfg c ≠ .ws))).length, (List.length_filter_le _ ds).trans hlen, ?_, ?_⟩
  · rw [List.filter_append, hkeep, ← hpads]
  · split
    · exact hany
    · exact hrun

/-- Where the input decodes, its normalised string is valid: characters of the standard alphabet up to VLEN, and from there
on what the input and its fill hold. -/
theorem validInput_normalised {cfg : Config} {bs : List Byte} (h : ValidInput cfg bs) (hp : plenOf bs ≤ 2)
    (hhits : ∀ c ∈ (padded bs).take (vlenOf bs), (rev c).hit = true) : ValidInput cfg (normalised bs) := by
  rw [normalised, ← List.take_append_drop (vlenOf bs) (padded bs), List.map_append]
  refine validInput_run_append (.inl fun c hc => ?_) ?_ fun c hc => ?_
  · obtain ⟨d, hd, rfl⟩ := List.mem_map.1 hc
    exact cls_toStandard_of_hit cfg (hhits d hd)
  · rwa [List.length_map, List.length_drop]
  · obtain ⟨d, hd, rfl⟩ := List.mem_map.1 hc
    have hcls : cls cfg d = .pad ∨ cls cfg d = .ws := by
      rw [drop_vlenOf_padded] at hd
      rcases List.mem_append.1 hd with hin | hfill
      · exact h.cls_of_mem_drop_vlenOf hin
      · exact .inl ((cls_eq_pad cfg d).2 (List.eq_of_mem_replicate hfill))
    have hmiss : (rev d).hit = false := by
      rw [← Bool.not_eq_true, hit_iff_cls cfg]
      rcases hcls with hd | hd <;> simp [hd]
    rwa [toStandard_of_miss d hmiss]

/-! ### The statement -/

theorem hit_of_mem_take_vlenOf {s : State} (hhits : ∀ i, i < vlenOf s.input → s.hitAt i) :
    ∀ c ∈ (padded s.input).take (vlenOf s.input), (rev c).hit = true := by
  intro c hc
  obtain ⟨i, hi, rfl⟩ := List.mem_take_iff_getElem.1 hc
  have hin : i < s.ilen.toNat := by
    have := vlenOf_le_length s.input
    rw [State.input_length] at this
    omega
  rw [padded_getElem, State.viewAt_input, State.viewIn, if_pos hin]
  exact hhits i (by omega)

/-- The input of a state that holds the normalised string of the other's. -/
theorem input_eq_normalised {s s' : State} (hilen : s'.ilen.toNat = s.paddedLen)
    (hbytes : ∀ i, i < s.paddedLen → s'.readByte .ibuf i = toStandard (s.viewIn i)) : s'.input = normalised s.input := by
  refine List.ext_getElem (by rw [State.input_length, normalised_length, State.padded_input_length, hilen]) fun i hi _ => ?_
  rw [State.input_length, hilen] at hi
  simp only [State.input_getElem, normalised, List.getElem_map, padded_getElem, State.viewAt_input]
  exact hbytes i hi

/-- Settles O46: both inputs decode to the same bytes, and the normalised one has the same numbers and no fill. -/
theorem decodeIgnoresUrlFlag : Obligations.DecodeIgnoresUrlFlag := by
  refine ⟨fun _ => rfl, fun s s' v hw hfits' hv hvlen hp hhits hcfg hilen hbytes => ?_⟩
  obtain rfl := (s.isVlen_iff v).1 hvlen
  rw [← State.plenOf_input] at hp
  have hfits : s.ilen.toNat ≤ s.cfg.nbuf := (Nat.le_add_right ..).trans hfits'
  obtain ⟨out, hok⟩ := (decodeText_ok_iff s hp).2 hhits
  have hin : s'.input = normalised s.input := input_eq_normalised hilen hbytes
  have hv' : ValidInput s'.cfg s'.inputBytes := by
    rw [hcfg, ← State.input_eq_inputBytes, hin]
    exact validInput_normalised hv hp (hit_of_mem_take_vlenOf hhits)
  have hexec' : exec (.decode .standard) s' = .next (s'.decoded out) := by
    refine exec_decode_inside (by rwa [hcfg, hilen]) hv' ?_ ?_
    · rwa [hin, plenOf_normalised]
    · rwa [hin, decodeText_normalised]
  have hvlen' : word32 (vlenOf s'.input) = word32 (vlenOf s.input) := by rw [hin, vlenOf_normalised]
  have hplen' : word32 (plenOf s'.input) = word32 (plenOf s.input) := by rw [hin, plenOf_normalised]
  have hblen' : word32 (blenOf s'.input) = word32 (blenOf s.input) := by rw [hin, blenOf_normalised]
  have hfill' : word32 (fillOf s'.input.length) = 0 := by rw [hin, fillOf_normalised]; rfl
  refine ⟨s.decoded out, s'.decoded out, exec_decode_inside hfits hv hp hok, hexec', rfl, rfl, hblen', hvlen', hplen', hblen',
    hfill', fun i hi => ?_⟩
  rw [State.decoded_optr_eq_length hw hfits hp hok] at hi
  rw [State.decoded_readByte s' hi, State.decoded_readByte s hi]

end Sys2Proof.Machine
end

section
/-! The round trip (44_decode.md rule R194): the text of an input is valid, its normalised string is the standard text, and
the standard text decodes group by group to the bytes it was made of. -/

namespace Sys2Proof.Machine

/-! ### The padded view of a text -/

/-- How many `=` the standard text of `n` bytes ends with (rules R144, R145). -/
def tailPads (n : Nat) : Nat := (3 - n % 3) % 3

theorem tailPads_le (n : Nat) : tailPads n ≤ 2 := by unfold tailPads; omega

/-- The symbols behind the text of an input, and that the padding of the standard text is the fill of the URL-safe one. -/
theorem exists_symbols_encodeText (bs : List Byte) :
    ∃ ss, fillOf ss.length = tailPads bs.length ∧ ∀ u, encodeText u bs = spell u ss (tailPads bs.length) := by
  obtain ⟨ss, k, hspell⟩ := encodeText_eq_spell bs
  have hurl := encodeText_length .urlSafe bs
  have hstd := encodeText_length .standard bs
  rw [hspell, spell_urlSafe_length] at hurl
  rw [hspell, spell_standard_length, encodeLen_standard] at hstd
  simp only [encodeLen, tailLen] at hurl
  obtain ⟨rfl, hfill⟩ : k = tailPads bs.length ∧ fillOf ss.length = k := by
    unfold tailPads fillOf
    split at hurl <;> omega
  exact ⟨ss, hfill, hspell⟩

section
variable {ss : List Symbol} {k : Nat}

theorem padded_spell (u : Alphabet) (hk : fillOf ss.length = k) :
    padded (spell u ss k) = ss.map (fun i => fwdu i u) ++ List.replicate k padChar := by
  subst hk
  cases u with
  | standard =>
    have hwhole : fillOf (ss.length + fillOf ss.length) = 0 := by unfold fillOf; omega
    rw [padded, spell_standard_length, hwhole]
    exact List.append_nil _
  | urlSafe => simp [padded, spell]

theorem toStandard_fwdu (i : Symbol) (u : Alphabet) : toStandard (fwdu i u) = fwdu i .standard := by
  revert i
  cases u <;> decide

theorem normalised_spell (u : Alphabet) (hk : fillOf ss.length = k) : normalised (spell u ss k) = spell .standard ss k := by
  have hpad : toStandard padChar = padChar := rfl
  rw [normalised, padded_spell u hk, List.map_append, List.map_replicate, hpad, List.map_map, spell]
  simp only [Function.comp_def, toStandard_fwdu]
  rfl

theorem vlenOf_spell (u : Alphabet) (hk : fillOf ss.length = k) : vlenOf (spell u ss k) = ss.length := by
  have hrun : (ss.map (fun i => fwdu i u)).findIdx (fun c => c == padChar) = ss.length :=
    (List.findIdx_eq_length_of_false (by simp [fwdu_ne_padChar])).trans (List.length_map ..)
  have hpads : (List.replicate k padChar).findIdx (fun c => c == padChar) = 0 := by
    cases k with
    | zero => rfl
    | succ k => simp [List.replicate_succ, List.findIdx_cons]
  rw [vlenOf, padded_spell u hk, List.findIdx_append, hrun, hpads]
  simp

theorem plenOf_spell (u : Alphabet) (hk : fillOf ss.length = k) : plenOf (spell u ss k) = k := by
  rw [plenOf, vlenOf_spell u hk, padded_spell u hk]
  simp

theorem validInput_spell (cfg : Config) (u : Alphabet) (hk : k ≤ 2) : ValidInput cfg (spell u ss k) := by
  refine validInput_run_append ?_ ?_ fun c hc => .inl ((cls_eq_pad cfg c).2 ?_)
  · cases u with
    | standard =>
      have hne : ∀ i, ¬ (fwdu i .standard = 0x2D ∨ fwdu i .standard = 0x5F) := by decide
      exact .inl (List.forall_mem_map.2 fun i _ => (cls_alnum_or_std_iff cfg _).2 ⟨by rw [rev_fwdu], hne i⟩)
    | urlSafe =>
      have hne : ∀ i, ¬ (fwdu i .urlSafe = 0x2B ∨ fwdu i .urlSafe = 0x2F) := by decide
      exact .inr (List.forall_mem_map.2 fun i _ => (cls_alnum_or_url_iff cfg _).2 ⟨by rw [rev_fwdu], hne i⟩)
  · split
    · rwa [List.length_replicate]
    · exact Nat.zero_le 2
  · split at hc
    · exact List.eq_of_mem_replicate hc
    · cases hc

end

/-! ### Decoding one group before the rest -/

/-- The index the groups start at is seen in a miss only. -/
theorem decodeFull_ok_base {base : Nat} (base' : Nat) {cs out : List Byte} (h : decodeFull base cs = .ok out) :
    decodeFull base' cs = .ok out := by
  match cs with
  | []        => exact h
  | [_]       => exact h
  | [_, _]    => exact h
  | [_, _, _] => exact h
  | c0 :: c1 :: c2 :: c3 :: rest =>
    simp only [decodeFull] at h ⊢
    split at h
    · cases h
    · split at h
      · cases h
      · next hrest =>
        cases h
        rw [decodeFull_ok_base (base' + 4) hrest]

theorem decodeTail_ok_base {base : Nat} (base' : Nat) {plen : Nat} {cs out : List Byte}
    (h : decodeTail base plen cs = .ok out) : decodeTail base' plen cs = .ok out := by
  unfold decodeTail at h ⊢
  split at h
  · split at h
    · cases h
    · exact h
  · split at h
    · cases h
    · exact h
  · exact h

/-- A group without a miss decodes to its bytes before those of the rest. -/
theorem decodeText_group {c0 c1 c2 c3 : Byte} {p out : List Byte} {plen : Nat}
    (hmiss : firstMiss [c0, c1, c2, c3] = none) (hlen : plen ≠ 0 → 4 ≤ p.length) (h : decodeText p plen = .ok out) :
    decodeText (c0 :: c1 :: c2 :: c3 :: p) plen = .ok (dec4Bytes c0 c1 c2 c3 ++ out) := by
  have hgroups : 4 * fullGroups (c0 :: c1 :: c2 :: c3 :: p).length plen = 4 * fullGroups p.length plen + 4 := by
    simp only [fullGroups, List.length_cons]
    split <;> omega
  simp only [decodeText] at h ⊢
  rw [hgroups]
  split at h
  · cases h
  · next full hfull =>
    split at h
    · cases h
    · next last hlast =>
      cases h
      simp only [List.take_succ_cons, List.drop_succ_cons, decodeFull, hmiss, decodeFull_ok_base (0 + 4) hfull,
        decodeTail_ok_base _ hlast, List.append_assoc]

/-! ### Decoding the standard text -/

theorem firstMiss_map_fwdu (u : Alphabet) (ss : List Symbol) : firstMiss (ss.map (fun i => fwdu i u)) = none :=
  (firstMiss_eq_none _).2 (List.forall_mem_map.2 fun i _ => by rw [rev_fwdu])

theorem dec4Bytes_fwdu (u : Alphabet) (r0 r1 r2 r3 : Symbol) :
    dec4Bytes (fwdu r0 u) (fwdu r1 u) (fwdu r2 u) (fwdu r3 u) =
      [(unpack4 r0 r1 r2 r3).1, (unpack4 r0 r1 r2 r3).2.1, (unpack4 r0 r1 r2 r3).2.2] := by
  simp only [dec4Bytes, symVal, rev_fwdu]

theorem decodeText_lastGroup {plen : Nat} (hp : plen ≠ 0) {cs : List Byte} (h4 : cs.length = 4) :
    decodeText cs plen = decodeTail 0 plen cs := by
  simp only [decodeText, fullGroups, h4, if_neg hp, Nat.reduceDiv, Nat.sub_self, Nat.mul_zero, List.take_zero,
    List.drop_zero, decodeFull]
  cases decodeTail 0 plen cs <;> rfl

theorem decodeText_enc1Text (b : Byte) : decodeText (enc1Text .standard b) 2 = .ok [b] := by
  have hmiss := firstMiss_map_fwdu .standard [(pack1 b).1, (pack1 b).2]
  calc decodeText (enc1Text .standard b) 2
    _ = decodeTail 0 2 (enc1Text .standard b) := decodeText_lastGroup (by decide) rfl
    _ = .ok (dec2Bytes (fwdu (pack1 b).1 .standard) (fwdu (pack1 b).2 .standard)) :=
        (decodeTail_spec 0 2 _ (by decide) rfl).2 hmiss
    _ = .ok [b] := by simp only [dec2Bytes, symVal, rev_fwdu, unpack2_pack1]

theorem decodeText_enc2Text (b0 b1 : Byte) : decodeText (enc2Text .standard b0 b1) 1 = .ok [b0, b1] := by
  have hmiss := firstMiss_map_fwdu .standard [(pack2 b0 b1).1, (pack2 b0 b1).2.1, (pack2 b0 b1).2.2]
  calc decodeText (enc2Text .standard b0 b1) 1
    _ = decodeTail 0 1 (enc2Text .standard b0 b1) := decodeText_lastGroup (by decide) rfl
    _ = .ok (dec3Bytes (fwdu (pack2 b0 b1).1 .standard) (fwdu (pack2 b0 b1).2.1 .standard)
          (fwdu (pack2 b0 b1).2.2 .standard)) := (decodeTail_spec 0 1 _ (by decide) rfl).2 hmiss
    _ = .ok [b0, b1] := by simp only [dec3Bytes, symVal, rev_fwdu, unpack3_pack2]

/-- The text of a triplet before the rest decodes to the triplet before the rest. -/
theorem decodeText_enc3Text_append (b0 b1 b2 : Byte) {p out : List Byte} {plen : Nat} (hlen : plen ≠ 0 → 4 ≤ p.length)
    (h : decodeText p plen = .ok out) :
    decodeText (enc3Text .standard b0 b1 b2 ++ p) plen = .ok (b0 :: b1 :: b2 :: out) := by
  have hmiss := firstMiss_map_fwdu .standard
    [(pack3 b0 b1 b2).1, (pack3 b0 b1 b2).2.1, (pack3 b0 b1 b2).2.2.1, (pack3 b0 b1 b2).2.2.2]
  have hgroup := decodeText_group hmiss hlen h
  rwa [dec4Bytes_fwdu, unpack4_pack3] at hgroup

theorem decodeText_encodeText (bs : List Byte) : decodeText (encodeText .standard bs) (tailPads bs.length) = .ok bs := by
  match bs with
  | [] => rfl
  | [b0] => exact decodeText_enc1Text b0
  | [b0, b1] => exact decodeText_enc2Text b0 b1
  | b0 :: b1 :: b2 :: rest =>
    have hpads : tailPads (b0 :: b1 :: b2 :: rest).length = tailPads rest.length := by
      simp only [tailPads, List.length_cons]
      omega
    rw [hpads]
    refine decodeText_enc3Text_append b0 b1 b2 (fun hp => ?_) (decodeText_encodeText rest)
    rw [encodeText_length, encodeLen_standard]
    unfold tailPads at hp
    omega

/-! ### The statement -/

theorem input_eq_encodeText {u : Alphabet} {s s' : State} (hw : s.cfg.wf = true)
    (hm : encodeLen u s.ilen.toNat ≤ s.cfg.nbuf) (hilen : s'.ilen = (s.encoded u).optr)
    (hbytes : ∀ i, i < (s.encoded u).optr.toNat → s'.readByte .ibuf i = (s.encoded u).readByte .obuf i) :
    s'.input = encodeText u s.input := by
  have hlen : s'.input.length = (encodeText u s.input).length := by
    rw [State.input_length, hilen, State.encoded_optr hw hm, encodeText_length, State.input_length]
  refine List.ext_getElem hlen fun i hi hi' => ?_
  rw [State.input_length, hilen] at hi
  rw [State.input_getElem, hbytes i hi]
  simpa using s.encoded_holds u i _ (List.getElem?_eq_getElem hi')

theorem encodeLen_le_standard (u : Alphabet) (n : Nat) : encodeLen u n ≤ encodeLen .standard n := by
  cases u with
  | standard => exact Nat.le_refl _
  | urlSafe =>
    simp only [encodeLen, tailLen]
    split <;> omega

/-- Settles O48: the text is valid with a padding length of at most 2, and decodes as the standard text does. -/
theorem encodeThenDecodeRoundTrip : Obligations.EncodeThenDecodeRoundTrip := by
  intro u u' s t s' hw hfits hroom hexec hcfg hilen hbytes
  have hm : encodeLen u s.ilen.toNat ≤ s.cfg.nbuf :=
    (encodeLen_le_standard u _).trans (by rwa [encodeLen_standard])
  rw [exec_encode_inside hfits hm] at hexec
  cases hexec
  obtain ⟨ss, hfill, hspell⟩ := exists_symbols_encodeText s.input
  have hin : s'.input = spell u ss (tailPads s.input.length) := (input_eq_encodeText hw hm hilen hbytes).trans (hspell u)
  have hw' : s'.cfg.wf = true := by rwa [hcfg]
  have hfits' : s'.ilen.toNat ≤ s'.cfg.nbuf := by rwa [hcfg, hilen, State.encoded_optr hw hm]
  have hv : ValidInput s'.cfg s'.inputBytes := by
    rw [← State.input_eq_inputBytes, hin]
    exact validInput_spell s'.cfg u (tailPads_le _)
  have hplen : plenOf s'.input = tailPads s.input.length := by rw [hin, plenOf_spell u hfill]
  have hp : plenOf s'.input ≤ 2 := hplen.trans_le (tailPads_le _)
  have hok : decodeText (padded s'.input) (plenOf s'.input) = .ok s.input := by
    rw [← decodeText_normalised, padded_normalised, plenOf_normalised, hplen, hin, normalised_spell u hfill, ← hspell]
    exact decodeText_encodeText s.input
  refine ⟨s'.decoded s.input, exec_decode_inside hfits' hv hp hok, rfl, rfl, rfl, decide_eq_true hp, ?_, fun i hi => ?_⟩
  · rw [State.decoded_optr_eq_length hw' hfits' hp hok, State.input_length]
  · rw [State.decoded_readByte s' (by rwa [State.input_length]), State.input_getElem]

end Sys2Proof.Machine
end

section
/-! The system family (45_system.md rules R210, R211): NOP, whose opcode belongs to no other row and whose mask leaves no bit
of the word free, and CLRERR. -/

namespace Sys2Proof.Machine

/-! ### The words of an opcode (rule R92) -/

/-- A word that decodes spells the row of whichever command has its opcode. -/
theorem row_spells_of_decode_of_op {w : Word} {i : Instr} (hd : decode w = .ok i) (c : Instr)
    (hop : w.op = c.row.pattern.op) : c.row.spells w = true := by
  have hs : i.row.spells w = true := row_spells_of_decode hd
  have hi : i.row ∈ opcodeMap := row_mem_opcodeMap i
  have hrow : i.row = c.row :=
    List.inj_on_of_nodup_map opcodeMap_op_nodup hi (row_mem_opcodeMap c) ((fields_of_spells hi hs).1.symm.trans hop)
  exact hrow ▸ hs

/-- The mask of NOP's row keeps every bit. -/
theorem nop_row_spells {w : Word} (h : Instr.nop.row.spells w = true) : w = 0x00000000 :=
  BitVec.and_allOnes.symm.trans (eq_of_beq h)

/-! ### Clearing a fault (rule R211) -/

theorem exec_clrerr (s : State) : exec .clrerr s = .next s.clearFault := rfl

theorem State.clearFault_faultLine (s : State) : s.clearFault.faultLine = false := rfl

theorem State.clearFault_eq_self {s : State} (herr : s.status.err = 0) (hinfo : s.einfo = 0) : s.clearFault = s := by
  rw [State.clearFault, ← herr, ← hinfo]

/-! ### The statements -/

/-- Settles O51: a word with OP = 0 that decodes spells NOP's row, so it is the word 0. -/
theorem nopChangesNothing : Obligations.NopChangesNothing := by
  refine ⟨fun _ => rfl, by decide, fun w hop hne => ?_⟩
  cases hd : decode w with
  | error e => exact ⟨e, rfl⟩
  | ok i => exact absurd (nop_row_spells (row_spells_of_decode_of_op hd .nop hop)) hne

/-- Settles O52, at the state `State.clearFault` leaves. -/
theorem clrerrClearsFault : Obligations.ClrerrClearsFault := fun s =>
  ⟨s.clearFault, exec_clrerr s, rfl, s.clearFault_faultLine, State.clearFault_eq_self⟩

end Sys2Proof.Machine
end

section
/-! The port while a fault is pending, and the fault line (60_exceptions.md rules R222, R224, R225, R229): every step has a
next state, a CMD write while a fault is pending runs nothing but CLRERR, a transaction that neither writes CMD nor reads
STATUS or EINFO does not depend on the fault record, and only a CMD write and reset change the record. -/

namespace Sys2Proof.Machine

/-! ### A CMD write while a fault is pending (rule R222) -/

section
variable {s : State} (he : s.status.err ≠ 0)
include he

theorem runCommand_of_pending (w : Word) :
    s.runCommand w = if w = 0x0000000F then exec .clrerr s else .next s :=
  if_pos (bne_iff_ne.2 he)

theorem runCommand_ignored {w : Word} (hw : w ≠ 0x0000000F) : s.runCommand w = .next s :=
  (runCommand_of_pending he w).trans (if_neg hw)

theorem runCommand_clrerr : s.runCommand 0x0000000F = .next (s.afterFault 0 0) :=
  (runCommand_of_pending he _).trans (if_pos rfl)

end

/-! ### The other transactions and the fault record (rule R222) -/

theorem State.regRead_afterFault (s : State) (code : BitVec 4) (info : Word) {n : Fin 16} (h1 : n ≠ 1) (h2 : n ≠ 2) :
    (s.afterFault code info).regRead n = s.regRead n := by
  unfold State.regRead
  split
  case h_1 | h_2 => omega
  all_goals rfl

theorem State.regStore_afterFault (s : State) (code : BitVec 4) (info : Word) (n : Fin 16) (v : Word) :
    (s.afterFault code info).regStore n v = (s.regStore n v).afterFault code info := by
  unfold State.regStore
  split <;> rfl

theorem State.readByte_afterFault (s : State) (code : BitVec 4) (info : Word) (b : Buf) (i : Nat) :
    (s.afterFault code info).readByte b i = s.readByte b i :=
  State.readByte_congr s _ b i (by cases b <;> rfl) rfl

theorem State.writeByte_afterFault (s : State) (code : BitVec 4) (info : Word) (b : Buf) (i : Nat) (v : Byte) :
    (s.afterFault code info).writeByte b i v = (s.writeByte b i v).afterFault code info := by
  cases b <;> rfl

theorem State.served_afterFault (s : State) (code : BitVec 4) (info : Word) (rest : List Txn) (r : Reply) :
    (s.afterFault code info).served rest r = (s.served rest r).afterFault code info := rfl

/-- A transaction other than a CMD write and a read of STATUS or EINFO commutes with writing the fault record. -/
theorem step_afterFault {s t : State} {x : Txn} {rest : List Txn} (code : BitVec 4) (info : Word)
    (hp : s.pending = x :: rest)
    (hx : (∃ n, x = .regRead n ∧ n ≠ 1 ∧ n ≠ 2) ∨ (∃ n v, x = .regWrite n v ∧ n ≠ 0) ∨ (∃ b i, x = .bufRead b i) ∨
      (∃ b i v, x = .bufWrite b i v))
    (h : step s = .next t) : step (s.afterFault code info) = .next (t.afterFault code info) := by
  have hp' : (s.afterFault code info).pending = x :: rest := hp
  rcases hx with ⟨n, rfl, h1, h2⟩ | ⟨n, v, rfl, hn⟩ | ⟨b, i, rfl⟩ | ⟨b, i, v, rfl⟩
  · obtain rfl := Host.Outcome.next.inj ((step_regRead s n rest hp).symm.trans h)
    rw [step_regRead _ n rest hp', s.regRead_afterFault code info h1 h2, State.served_afterFault]
  · obtain rfl := Host.Outcome.next.inj ((step_regWrite s n v rest hn hp).symm.trans h)
    rw [step_regWrite _ n v rest hn hp', State.served_afterFault, State.regStore_afterFault]
  · obtain rfl := Host.Outcome.next.inj ((step_bufRead s b i rest hp).symm.trans h)
    rw [step_bufRead _ b i rest hp', State.afterFault_cfg, State.readByte_afterFault, State.served_afterFault]
  · by_cases hi : i < s.cfg.nbuf
    · obtain rfl := Host.Outcome.next.inj ((step_bufWrite_inside s b i v rest hp hi).symm.trans h)
      rw [step_bufWrite_inside _ b i v rest hp' hi, State.served_afterFault, State.writeByte_afterFault]
    · have hout : s.cfg.nbuf ≤ i := Nat.le_of_not_lt hi
      obtain rfl := Host.Outcome.next.inj ((step_bufWrite_outside s b i v rest hp hout).symm.trans h)
      rw [step_bufWrite_outside _ b i v rest hp' hout, State.served_afterFault]

/-! ### What a step does to the fault record (rules R224, R225) -/

theorem State.faultLine_iff (s : State) : s.faultLine = true ↔ s.status.err ≠ 0 := bne_iff_ne

theorem State.faultLine_eq_false_iff (s : State) : s.faultLine = false ↔ s.status.err = 0 := bne_eq_false_iff_eq

theorem State.regStore_status (s : State) (n : Fin 16) (v : Word) : (s.regStore n v).status = s.status := by
  unfold State.regStore
  split <;> rfl

theorem State.regStore_einfo (s : State) (n : Fin 16) (v : Word) : (s.regStore n v).einfo = s.einfo := by
  unfold State.regStore
  split <;> rfl

/-- What stands at the head of the port: a CMD write, the reset event, or something (or nothing) whose step keeps STATUS
and EINFO. -/
theorem step_cases (s : State) :
    (∃ w rest, s.pending = .regWrite 0 w :: rest) ∨ (∃ rest, s.pending = .reset :: rest) ∨
    ∃ t, step s = .next t ∧ t.status = s.status ∧ t.einfo = s.einfo := by
  match hp : s.pending with
  | [] => exact .inr (.inr ⟨_, step_idle s hp, rfl, rfl⟩)
  | .regRead n :: rest => exact .inr (.inr ⟨_, step_regRead s n rest hp, rfl, rfl⟩)
  | .regWrite n v :: rest =>
    by_cases hn : n = 0
    · exact .inl ⟨v, rest, by rw [hn]⟩
    · exact .inr (.inr ⟨_, step_regWrite s n v rest hn hp, State.regStore_status _ n v, State.regStore_einfo _ n v⟩)
  | .bufRead b i :: rest => exact .inr (.inr ⟨_, step_bufRead s b i rest hp, rfl, rfl⟩)
  | .bufWrite b i v :: rest =>
    by_cases hi : i < s.cfg.nbuf
    · exact .inr (.inr ⟨_, step_bufWrite_inside s b i v rest hp hi, State.writeByte_status _ b i v,
        State.writeByte_einfo _ b i v⟩)
    · exact .inr (.inr ⟨_, step_bufWrite_outside s b i v rest hp (Nat.le_of_not_lt hi), rfl, rfl⟩)
  | .reset :: rest => exact .inr (.inl ⟨rest, rfl⟩)

/-- A step keeps the fault record, or is a CMD write with no fault pending, or ends with none pending by CLRERR or by the
reset event. -/
theorem step_record_cases {s t : State} (h : step s = .next t) :
    (t.status.err = s.status.err ∧ t.einfo = s.einfo) ∨
    (s.status.err = 0 ∧ ∃ w rest, s.pending = .regWrite 0 w :: rest) ∨
    (t.status.err = 0 ∧ ∃ rest, s.pending = .regWrite 0 0x0000000F :: rest ∨ s.pending = .reset :: rest) := by
  rcases step_cases s with ⟨w, rest, hp⟩ | ⟨rest, hp⟩ | ⟨t', hstep, hstatus, heinfo⟩
  · rw [step_cmdWrite s w rest hp] at h
    by_cases he : s.status.err = 0
    · exact .inr (.inl ⟨he, w, rest, hp⟩)
    by_cases hw : w = 0x0000000F
    · subst hw
      rw [runCommand_clrerr (s := s.served rest .done) he] at h
      cases h
      exact .inr (.inr ⟨rfl, rest, .inl hp⟩)
    · rw [runCommand_ignored (s := s.served rest .done) he hw] at h
      cases h
      exact .inl ⟨rfl, rfl⟩
  · rw [step_reset s rest hp] at h
    cases h
    exact .inr (.inr ⟨rfl, rest, .inr hp⟩)
  · obtain rfl := Host.Outcome.next.inj (hstep.symm.trans h)
    exact .inl ⟨congrArg Status.err hstatus, heinfo⟩

/-! ### A CMD write always ends (rule R229) -/

theorem runCommand_next (s : State) (w : Word) : ∃ t, s.runCommand w = .next t := by
  rcases runCommand_cases s w with ⟨-, -, hrun⟩ | ⟨-, -, hrun⟩ | ⟨-, -, hrun⟩ | ⟨-, i, -, hrun⟩
  · exact hrun ▸ exec_next .clrerr s
  · exact ⟨s, hrun⟩
  · exact ⟨_, hrun⟩
  · exact hrun ▸ exec_next i s

/-! ### The statements -/

/-- Settles O7: CMD runs CLRERR alone, and every other transaction commutes with writing the fault record. -/
theorem pendingFaultIgnoresCommands : Obligations.PendingFaultIgnoresCommands := by
  intro s rest he
  refine ⟨fun w hp hw => ?_, fun hp => ?_, fun x t hp hx h => step_afterFault 0 0 hp hx h⟩
  · exact (step_cmdWrite s w rest hp).trans (runCommand_ignored (s := s.served rest .done) he hw)
  · exact (step_cmdWrite s _ rest hp).trans (runCommand_clrerr (s := s.served rest .done) he)

/-- Settles O14, by what stands at the head of the port; every command ends. -/
theorem stepAlwaysHasNextState : Obligations.StepAlwaysHasNextState := by
  intro s
  rcases step_cases s with ⟨w, rest, hp⟩ | ⟨rest, hp⟩ | ⟨t, hstep, -⟩
  · rw [step_cmdWrite s w rest hp]
    exact runCommand_next _ w
  · exact ⟨_, step_reset s rest hp⟩
  · exact ⟨t, hstep⟩

/-- Settles O15, by what the step does to the fault record. -/
theorem faultLineFollowsErr : Obligations.FaultLineFollowsErr := by
  intro s t h
  refine ⟨t.faultLine_iff, ?_⟩
  simp only [State.faultLine_iff, State.faultLine_eq_false_iff]
  rcases step_record_cases h with ⟨herr, heinfo⟩ | ⟨hs, hcmd⟩ | ⟨ht, hclear⟩
  · rw [herr]
    exact ⟨fun h0 h1 => absurd h0 h1, fun h1 h0 => absurd h0 h1, fun _ _ => ⟨rfl, heinfo⟩⟩
  · exact ⟨fun _ _ => hcmd, fun h1 _ => absurd hs h1, fun h1 _ => absurd hs h1⟩
  · exact ⟨fun _ h1 => absurd ht h1, fun _ _ => hclear, fun _ h1 => absurd ht h1⟩

end Sys2Proof.Machine
end

section
/-! The causes of the faults (60_exceptions.md rules R220, R221): a command other than CLRERR keeps the fault record or ends
as one fault of the table. One lemma for each check that commands share, then the commands. -/

namespace Sys2Proof.Machine

/-! ### The two ways to end -/

/-- `t` has the fault record of `s`, or is what one fault of rule R220 that the command `i` can raise leaves of `s`. -/
def KeepsRecordOrFaults (i : Instr) (s t : State) : Prop :=
  (t.status.err = s.status.err ∧ t.einfo = s.einfo) ∨ ∃ code info, CauseOf i s code info ∧ t = s.afterFault code info

section
variable {i : Instr} {s t : State}

theorem CauseOf.faults {code : BitVec 4} {info : Word} (hc : CauseOf i s code info) :
    KeepsRecordOrFaults i s (s.afterFault code info) := .inr ⟨code, info, hc, rfl⟩

theorem keepsRecord_groupDone (n : Nat) (out : List Byte) : KeepsRecordOrFaults i s (s.groupDone n out) := .inl ⟨rfl, rfl⟩

/-! ### The shared checks -/

/-- The bounds checks of a group command raise BOUNDS with the cause of the side that failed (rule R74). -/
theorem boundedGroup_faults {n m : Nat} {run : Host.Outcome State Fault Refusal} (hn : i.consumes = some n)
    (hm : i.produces = some m) (h : s.boundedGroup n m run = .next t)
    (hrun : s.inputShort n = false → run = .next t → KeepsRecordOrFaults i s t) : KeepsRecordOrFaults i s t := by
  rcases boundedGroup_cases s t n m run h with ⟨hs, rfl⟩ | ⟨-, ho, rfl⟩ | ⟨hs, -, hend⟩
  · exact (CauseOf.inputSide n hn ((inputShort_iff s n).1 hs)).faults
  · exact (CauseOf.outputSide m hm ((outputFull_iff s m).1 ho)).faults
  · exact hrun hs hend

theorem boundedGroup_groupDone_faults {n m : Nat} {out : List Byte} (hn : i.consumes = some n) (hm : i.produces = some m)
    (h : s.boundedGroup n m (.next (s.groupDone n out)) = .next t) : KeepsRecordOrFaults i s t := by
  refine boundedGroup_faults hn hm h fun _ hend => ?_
  cases hend
  exact keepsRecord_groupDone n out

/-- A decoding group command raises BADCHAR at a character of the input without a reverse entry (rules R188 to R190). -/
theorem boundedGroup_decodeGroup_faults {m : Nat} {cs out : List Byte} (hi : i = .dec4 ∨ i = .dec3 ∨ i = .dec2)
    (hn : i.consumes = some cs.length) (hm : i.produces = some m)
    (hc : ∀ k (h : k < cs.length), cs[k] = s.readByte .ibuf (s.iptr.toNat + k))
    (h : s.boundedGroup cs.length m (s.decodeGroup cs out) = .next t) : KeepsRecordOrFaults i s t := by
  refine boundedGroup_faults hn hm h fun hs hend => ?_
  rcases decodeGroup_cases s t cs out hend with ⟨j, hj, rfl⟩ | ⟨-, rfl⟩
  · obtain ⟨hlt, -, hmiss⟩ := firstMiss_inside s j cs hc hs hj
    have hdec : i = .dec4 ∨ i = .dec3 ∨ i = .dec2 ∨ ∃ u, i = .decode u := by
      rcases hi with hi | hi | hi <;> simp [hi]
    exact (CauseOf.badchar _ hdec hlt hmiss).faults
  · exact keepsRecord_groupDone cs.length out

theorem not_validInput_of_validText (h : validText s.cfg s.input = false) : ¬ ValidInput s.cfg s.inputBytes := fun hv =>
  Bool.eq_false_iff.1 h ((validText_iff s.cfg s.input).2 hv)

/-- DECODE of a valid input raises PADLEN with the padding length, or BADCHAR below VLEN, which ILEN bounds (rule R191). -/
theorem decodeValid_faults {u : Alphabet} (h : s.decodeValid s.input = .next t) :
    KeepsRecordOrFaults (.decode u) s t := by
  rcases decodeValid_cases s t s.input h with ⟨hp, rfl⟩ | ⟨hp, j, hj, rfl⟩ | ⟨-, out, -, rfl⟩
  · rw [State.plenOf_input] at hp ⊢
    exact (CauseOf.padlen u _ rfl ((s.isVlen_iff _).2 rfl) hp).faults
  · obtain ⟨hlt, -, hmiss⟩ := decodeText_error s j hp hj
    rw [Nat.zero_add] at hmiss
    have hlen : vlenOf s.input ≤ s.ilen.toNat := s.input_length ▸ vlenOf_le_length s.input
    exact (CauseOf.badchar j (by simp) (hlt.trans_le hlen) hmiss).faults
  · exact .inl ⟨rfl, rfl⟩

end

theorem produces_enc2 (u : Alphabet) : (Instr.enc2 u).produces = some (tailLen u 2) := by cases u <;> rfl

theorem produces_enc1 (u : Alphabet) : (Instr.enc1 u).produces = some (tailLen u 1) := by cases u <;> rfl

/-! ### Every command -/

theorem exec_keepsRecordOrFaults {i : Instr} {s t : State} (hi : i ≠ .clrerr) (h : exec i s = .next t) :
    KeepsRecordOrFaults i s t := by
  cases i with
  | clrerr => exact absurd rfl hi
  | nop =>
    obtain rfl := exec_nop_cases s t h
    exact .inl ⟨rfl, rfl⟩
  | lutf u imm =>
    obtain rfl := exec_lutf_cases s t u imm h
    exact .inl ⟨rfl, rfl⟩
  | lutr imm =>
    obtain rfl := exec_lutr_cases s t imm h
    exact .inl ⟨rfl, rfl⟩
  | cls imm =>
    obtain rfl := exec_cls_cases s t imm h
    exact .inl ⟨rfl, rfl⟩
  | enc3 u => exact boundedGroup_groupDone_faults rfl rfl h
  | enc2 u => exact boundedGroup_groupDone_faults rfl (produces_enc2 u) h
  | enc1 u => exact boundedGroup_groupDone_faults rfl (produces_enc1 u) h
  | dec4 => exact boundedGroup_decodeGroup_faults (.inl rfl) rfl rfl (atCursor4_getElem s) h
  | dec3 => exact boundedGroup_decodeGroup_faults (.inr (.inl rfl)) rfl rfl (atCursor3_getElem s) h
  | dec2 => exact boundedGroup_decodeGroup_faults (.inr (.inr rfl)) rfl rfl (atCursor2_getElem s) h
  | valid =>
    rcases exec_valid_cases s t h with ⟨hlong, rfl⟩ | ⟨-, rfl⟩
    · exact (CauseOf.wholeInput rfl hlong).faults
    · exact .inl ⟨rfl, rfl⟩
  | info =>
    rcases exec_info_cases s t h with ⟨hlong, rfl⟩ | ⟨-, hv, rfl⟩ | ⟨-, -, rfl⟩
    · exact (CauseOf.wholeInput rfl hlong).faults
    · exact (CauseOf.invalid (by decide) (not_validInput_of_validText hv)).faults
    · exact .inl ⟨rfl, rfl⟩
  | encode u =>
    rcases exec_encode_cases s t u h with ⟨hlong, rfl⟩ | ⟨-, hout, rfl⟩ | ⟨-, -, rfl⟩
    · exact (CauseOf.wholeInput rfl hlong).faults
    · exact (CauseOf.wholeOutput u rfl hout).faults
    · exact .inl ⟨rfl, rfl⟩
  | decode u =>
    rcases exec_decode_cases s t u h with ⟨hlong, rfl⟩ | ⟨-, hv, rfl⟩ | ⟨-, -, hvalid⟩
    · exact (CauseOf.wholeInput rfl hlong).faults
    · exact (CauseOf.invalid (by simp [Instr.writes]) (not_validInput_of_validText hv)).faults
    · exact decodeValid_faults hvalid

/-- Settles O53, command by command; the parameters need not be legal. -/
theorem faultsAreAllOrNothing : Obligations.FaultsAreAllOrNothing := fun _ _ _ _ hi h => exec_keepsRecordOrFaults hi h

end Sys2Proof.Machine
end
